-- ==== Sys2Proof/Word.lean ====
section
/-! DEFINITION. The word types of the machine (40_primitives R140). Bits are numbered 1 to 16 as the spec numbers them
(00_scope R11); the functions that read bits by that numbering are in Machine/Bits.lean. -/

namespace Sys2Proof

/-- The 16-bit value type of every data register, of the write bus and of every memory cell (R140). -/
abbrev Word := BitVec 16

/-- A value of the address register `S` (10_state R31). -/
abbrev Addr := BitVec 12

/-- A format-P pulse id (30_encoding R122): a 6-bit number, of which 53 to 63 are reserved (R123). -/
abbrev PulseId := BitVec 6

/-- A value of the opcode register `SQ` (10_state R33). -/
abbrev Opcode := BitVec 6

/-- An I/O channel number, 0 to 63 (20_memory R94). -/
abbrev Channel := BitVec 6

/-- A word memory: (index, word) cells. Its canonical form and its operations are in Machine/Memory.lean (log 32). -/
abbrev Memory := List (Nat × Word)

end Sys2Proof
end

