-- ==== Sys2Proof/Config.lean ====
section
/-! DEFINITION. What an implementation fixes before the first tick: the types of the configuration record of 00_scope R9, of
the decode key, of subinstruction entries and definitions, and the opaque functions that stand for a parameter which the host
supplies as a function of its own. The values the spec takes are in Machine/Params.lean and Machine/Subinstructions.lean. -/

namespace Sys2Proof

/-- The stage part of the decode key, an explicit enumeration of twelve values (30_encoding R105): the normal stages `N(0..3)`
and the divide substages `D(0..7)`. -/
inductive StageKey where
  | normal (s : BitVec 2)
  | divide (d : BitVec 3)
  deriving DecidableEq, Repr

/-- Format K, the decode key (R105): stage key, extend flag, opcode bits. 12 x 2 x 64 values. -/
structure Key where
  stage  : StageKey
  extend : Bool
  opcode : Opcode
  deriving DecidableEq, Repr

/-- Format Q, one entry (R114): a pulse-number and a list of pulse ids run left to right. -/
structure Entry where
  n      : Nat
  pulses : List PulseId
  deriving DecidableEq, Repr

/-- Format D as the host writes it (R108), before the builder has checked it: the packed index of the stage key, the extend
value, the pattern's characters (leftmost is opcode bit 6), the name and the entries. -/
structure RawDef where
  stage   : Nat
  extend  : Nat
  pattern : List Char
  name    : String
  entries : List Entry
  deriving DecidableEq, Repr

/-- Format D as the builder leaves it: the stage key and extend value in form, the pattern as mask and value (R109). -/
structure Def where
  stage   : StageKey
  extend  : Bool
  mask    : Opcode
  value   : Opcode
  name    : String
  entries : List Entry
  deriving DecidableEq, Repr

/-- The two memories a logical address can reach (20_memory R70, R75). -/
inductive Space where
  | erasable
  | fixed
  deriving DecidableEq, Repr

/-- The two equal-length bit ranges of a `copy_bits` (40_primitives R141): source `srcLo..srcHi`, destination `dstLo..dstHi`,
counted from 1. The bit-layout rows of R9 are lists of these. -/
structure BitRange where
  srcLo : Nat
  srcHi : Nat
  dstLo : Nat
  dstHi : Nat
  deriving DecidableEq, Repr

/-- `BR_PACKING` (R9): the numeric packing the spec takes, and the other order that 90_conflicts C5 names, 00, 10, 01, 11. -/
inductive BrPacking where
  | numeric
  | nonMonotonic
  deriving DecidableEq, Repr

/-- The read of a `ZIP` action: at most one of `RB`, `RC` (46_compound R241). -/
inductive ZipRead where
  | none
  | rb
  | rc
  deriving DecidableEq, Repr

/-- The adder load of a `ZIP` action: at most one of `WY`, `WYD` (R241). -/
inductive ZipLoad where
  | none
  | wy
  | wyd
  deriving DecidableEq, Repr

/-- One valid row of `ZIP_TABLE`: read, adder load, `CI`, `MCRO`, performed in that order (R241). -/
structure ZipAction where
  read : ZipRead
  load : ZipLoad
  ci   : Bool
  mcro : Bool
  deriving DecidableEq, Repr

/-- `ZIP_SELECT`, an OPEN parameter (R241): the source read literally, the candidate `ZIP_GK`, or a function of the host's
own, number `i`, which nothing constrains (log 15, log 39). -/
inductive ZipSelect where
  | src
  | gk
  | host (i : Nat)
  deriving DecidableEq, Repr

/-- `EDIT_23` when it is supplied, an OPEN parameter (42_bus_write R191): one of the two candidates, or a function of the
host's own, number `i`, which nothing constrains (log 8, log 39). -/
inductive Edit23 where
  | src
  | gk
  | host (i : Nat)
  deriving DecidableEq, Repr

/-- The host's own `ZIP_SELECT` number `i`: any function of `L`. No body, so no proof can rest on a value of it (log 39). -/
opaque hostZipSelect : Nat → Word → BitVec 3

/-- The host's own `EDIT_23` number `i`: any function of the bus. No body, so no proof can rest on a value of it (log 39). -/
opaque hostEdit23 : Nat → Word → Word

/-- The decided rows of the parameter table R9, each a field a claim can name. Their values are `specParams`. The rows that
are bit layouts are lists of `BitRange`, copied one after another (log 3). -/
structure Params where
  /-- `ERASABLE_WORDS`: length of `E` (20_memory R72). -/
  erasableWords : Nat
  /-- `FIXED_WORDS`: length of `F` (R73). -/
  fixedWords : Nat
  /-- `RESERVED_LOW_LIMIT`: `S` below it makes no memory transaction (R79). -/
  reservedLowLimit : Nat
  /-- `E_UNSWITCHED_TOP`: highest `S` of the 1:1 erasable window (R74). -/
  eUnswitchedTop : Nat
  /-- `E_BANKED`: highest `S` of the banked erasable window (R74). -/
  eBankedTop : Nat
  /-- `E_BANKED`: words per erasable bank (R76). -/
  eBankWords : Nat
  /-- `F_BANKED`: highest `S` of the banked fixed window; above it is `F_UNSWITCHED` (R74). -/
  fBankedTop : Nat
  /-- `F_BANKED`: words per fixed bank (R77). -/
  fBankWords : Nat
  /-- `EB_WIDTH`: the number of bits of `EB` (10_state R36). -/
  ebWidth : Nat
  /-- `FB_WIDTH`: the number of bits of `FB` (R37). -/
  fbWidth : Nat
  /-- `EB` bus image: from the field to the bus (R36); a write takes the same ranges backwards. -/
  ebLayout : List BitRange
  /-- `FB` bus image: from the field to the bus (R37). Where two ranges show one field bit, a write takes the later one. -/
  fbLayout : List BitRange
  /-- `BB` bus image: where it shows `EB`; the rest of it is the `FB` image (R38). -/
  bbLayout : List BitRange
  /-- `OPCODE_SLICE`: from `B` to `SQ` (30_encoding R101). -/
  opcodeSlice : List BitRange
  /-- `G2LS_MAP`: from `G` to `L` (46_compound R243). -/
  g2lsMap : List BitRange
  /-- `L2GD_MAP`: from `L` to `G` (R244). -/
  l2gdMap : List BitRange
  /-- `L2GD_MAP`: the bit of `G` that takes `MCRO` (R244). -/
  l2gdMcroBit : Nat
  /-- `RESTART_ADDRESS` (41_bus_read R175). -/
  restartAddress : Word
  /-- `RAD_RELINT` (30_encoding R104). -/
  radRelint : Word
  /-- `RAD_INHINT` (R104). -/
  radInhint : Word
  /-- `RAD_EXTEND` (R104). -/
  radExtend : Word
  /-- `EDIT_TABLE`: the address of the cycle right (42_bus_write R186). -/
  editCycleRight : Addr
  /-- `EDIT_TABLE`: the address of the shift right. -/
  editShiftRight : Addr
  /-- `EDIT_TABLE`: the address of the cycle left. -/
  editCycleLeft : Addr
  /-- `EDIT_TABLE`: the fourth address (R191). -/
  editFourth : Addr
  /-- `X_PATTERNS`: the bits `MONEX` forces (43_adder_setup R204). -/
  monexBits : Word
  /-- `X_PATTERNS`: the bits `PONEX` forces (R205). -/
  ponexBits : Word
  /-- `X_PATTERNS`: the bits `PTWOX` forces (R206). -/
  ptwoxBits : Word
  /-- `X_PATTERNS`: the bits `B15X` forces (R207). -/
  b15xBits : Word
  /-- `TOV_CODE`: `BR1`, `BR2` for no overflow (44_branch_test R218). -/
  tovNone : Bool × Bool
  /-- `TOV_CODE`: `BR1`, `BR2` for positive overflow. -/
  tovPositive : Bool × Bool
  /-- `TOV_CODE`: `BR1`, `BR2` for negative overflow. -/
  tovNegative : Bool × Bool
  /-- `WALS_SIGN`: the value of `G[1]` for which `WALS` takes the sign from the bus (42_bus_write R190). -/
  walsBusWhen : Bool
  /-- `HELD_STAGE`: the values of `ST` that hold an instruction (48_scheduler R262). -/
  heldStages : List (BitVec 2)
  /-- `WYD_DIV_BLOCK`: the values of `DVStage` that block `Y[1]` (43_adder_setup R202). -/
  wydBlockStages : List (BitVec 3)
  /-- `TPZG_SET_ONLY` (44_branch_test R220). -/
  tpzgSetOnly : Bool
  /-- `BR_PACKING` (10_state R39). -/
  brPacking : BrPacking
  deriving DecidableEq, Repr

/-- The configuration record, all rows of R9: the decided ones in `params`, the others here. The decode
table is the pure function `buildTable` of `isaDefs` and `defaultSkip` (R10, R110). -/
structure Config where
  params : Params
  /-- `EDIT_23`, absent or supplied (R191). -/
  edit23 : Option Edit23
  /-- `ZIP_SELECT` (R241). -/
  zipSelect : ZipSelect
  /-- `ZIP_TABLE`: row `k` for selector `k`; a row marked `none`, or not in the list, is invalid (R241). -/
  zipTable : List (Option ZipAction)
  /-- `ISA_DEFS` as built, in declaration order (R110). -/
  isaDefs : List Def
  /-- `DEFAULT_SKIP_ENTRIES` (48_scheduler R281). -/
  defaultSkip : List Entry
  /-- `BOOTSTRAP_ENTRIES`: the queue before the first tick (70_reset R332). No tick reads this row or the next two. -/
  bootstrap : List Entry
  /-- `FIXED_IMAGE`: the flat file of big-endian words, byte by byte (20_memory R87, 70_reset R333). -/
  fixedImage : List (BitVec 8)
  /-- `ERASABLE_INIT`: the cells of `E` initialised before the first tick, first to last (R333). -/
  erasableInit : List (Nat × Word)
  /-- `HOST_CHANNEL_WRITES` (R5, D40). -/
  hostChannelWrites : Bool
  deriving DecidableEq, Repr

/-- What the builder was checking: a definition as the host wrote it, the default skip's entries, or the bootstrap entries. -/
inductive BuildItem where
  | definition (d : RawDef)
  | defaultSkip (es : List Entry)
  | bootstrap (es : List Entry)
  deriving DecidableEq, Repr

/-- Why the builder refuses what the host supplies, before any tick (60_exceptions R306, 30_encoding R115, R116). Each refusal of
the table R300 carries the definition, or the entries, that it is about. All are safe: no machine is produced. -/
inductive BuildRefusal where
  /-- A pulse-number `n` outside 1..12. -/
  | badPulseNumber (item : BuildItem) (n : Nat)
  /-- Three entries at pulse-number `n`. -/
  | badAlternativeCount (item : BuildItem) (n : Nat)
  /-- Five or more entries, `count`, at pulse-number `n` (R116, R301). -/
  | branchCollision (item : BuildItem) (n count : Nat)
  /-- A pulse id 53 to 63 (R123). -/
  | reservedPulse (item : BuildItem) (id : PulseId)
  /-- A pattern, stage key or extend value out of form. -/
  | badDefinition (d : RawDef)
  /-- `CopyBitsRange`: a layout of the parameters holds a range that `copy_bits` does not take (40_primitives R141). -/
  | copyBitsRange (r : BitRange)
  /-- An image with more words than `FIXED_WORDS` (70_reset R333). -/
  | imageTooLong (words : Nat)
  /-- An image whose last word has one byte only (log 33). -/
  | imageOddLength
  /-- A block initialisation of a cell that does not exist (20_memory R72, log 33). -/
  | erasableInitRange (index : Nat)
  deriving DecidableEq, Repr

/-- The diagnostic record of the unimplemented opcode (48_scheduler R273, 60_exceptions R307): `Diag(B, SQ, stage key, Extend, Z)`. -/
structure Diag where
  b      : Word
  sq     : Opcode
  stage  : StageKey
  extend : Bool
  z      : Word
  deriving DecidableEq, Repr

end Sys2Proof
end

