-- ==== Sys2Proof/Machine/Bits.lean ====
section
/-! DEFINITION. Bits and slices by the spec's numbering (00_scope R11, R12: bit 1 is the least significant), and the word
primitives `copy_bits`, `double_sign_expand` and `double_sign_compress` (40_primitives R141 to R143). All pure. -/

namespace Sys2Proof.Machine

/-- `v[i]`, bit `i` of `v`, counted from 1 (R12). -/
def bit {n : Nat} (v : BitVec n) (i : Nat) : Bool := v.getLsbD (i - 1)

/-- `v[hi:lo]`, bits `hi` down to `lo`, both counted from 1 (R12). -/
def slice {n : Nat} (v : BitVec n) (hi lo : Nat) : BitVec (hi - lo + 1) := v.extractLsb' (lo - 1) (hi - lo + 1)

/-- `zext_16` of a 12-bit value (R12). -/
def zext16 (v : Addr) : Word := v.setWidth 16

/-- The `clear_mode` argument of `copy_bits` (R141). -/
inductive ClearMode where
  | clearAll
  | clearChanged
  | clearNone
  deriving DecidableEq, Repr

/-- The requirement of `copy_bits` (R141). The layouts of the parameters are checked before the first tick, so the failure
`CopyBitsRange` is a build refusal and never a fault of a run (60_exceptions R300, R306). -/
def copyBitsOk (slo shi dlo dhi : Nat) : Bool :=
  decide (1 ≤ slo ∧ slo ≤ shi ∧ shi ≤ 16 ∧ 1 ≤ dlo ∧ dlo ≤ dhi ∧ dhi ≤ 16 ∧ shi - slo = dhi - dlo)

/-- `copy_bits(source, dest, (slo, shi), (dlo, dhi), mode)` (R141). Under `clearNone` the field is ORed onto the destination
(decision D35, log 34). -/
def copyBits (source dest : Word) (slo shi dlo dhi : Nat) (mode : ClearMode) : Word :=
  let field : Word := (slice source shi slo).setWidth 16
  let changed : Word := (BitVec.allOnes (dhi - dlo + 1)).setWidth 16 <<< (dlo - 1)
  let base : Word :=
    match mode with
    | .clearAll => 0
    | .clearChanged => dest &&& ~~~changed
    | .clearNone => dest
  base ||| (field <<< (dlo - 1))

/-- The ranges of a layout copied one after another, the other bits of the destination kept (R141, mode `ClearChanged`). -/
def copyRanges (ranges : List BitRange) (source dest : Word) : Word :=
  ranges.foldl (fun d r => copyBits source d r.srcLo r.srcHi r.dstLo r.dstHi .clearChanged) dest

/-- A range that meets the requirement of `copy_bits` (R141). -/
def rangeOk (r : BitRange) : Bool := copyBitsOk r.srcLo r.srcHi r.dstLo r.dstHi

/-- A range with source and destination exchanged: what takes a field back from its image. -/
def swapRange (r : BitRange) : BitRange := { srcLo := r.dstLo, srcHi := r.dstHi, dstLo := r.srcLo, dstHi := r.srcHi }

/-- The low `n` bits of a word, the others 0. -/
def lowBits (n : Nat) (v : Word) : Word := BitVec.ofNat 16 (v.toNat % 2 ^ n)

/-- `double_sign_expand` (R142): bit 15 duplicated into bit 16. -/
def doubleSignExpand (v : Word) : Word := slice v 15 15 ++ slice v 15 1

/-- `double_sign_compress` (R143): bit 16 copied into bit 15, and bit 16 zeroed when `maskBit16`. -/
def doubleSignCompress (v : Word) (maskBit16 : Bool) : Word :=
  (if maskBit16 then 0#1 else slice v 16 16) ++ slice v 16 16 ++ slice v 14 1

end Sys2Proof.Machine
end

