-- ==== Sys2Proof/Machine/Params.lean ====
section
/-! DEFINITION. The values the spec takes for the decided rows of the parameter table (00_scope R9) and the candidate
`ZIP_GK` (46_compound R241). Rows of kind GK are the spec's decisions from general knowledge, not the source's. -/

namespace Sys2Proof.Machine

/-- The "value taken" column of R9 (decisions D2, D4, D6 to D8, D11, D15 to D19, D21, D22, D24, D26; logs 2 to 14, 16, 22, 23). -/
def specParams : Params where
  erasableWords := 2048
  fixedWords := 36864
  reservedLowLimit := 0o10
  eUnswitchedTop := 0o1377
  eBankedTop := 0o1777
  eBankWords := 0o400
  fBankedTop := 0o3777
  fBankWords := 0o2000
  ebWidth := 3
  fbWidth := 5
  ebLayout := [⟨1, 3, 9, 11⟩]
  fbLayout := [⟨1, 4, 11, 14⟩, ⟨5, 5, 15, 15⟩, ⟨5, 5, 16, 16⟩]
  bbLayout := [⟨1, 3, 1, 3⟩]
  opcodeSlice := [⟨10, 14, 1, 5⟩, ⟨16, 16, 6, 6⟩]
  g2lsMap := [⟨4, 15, 1, 12⟩, ⟨16, 16, 16, 16⟩, ⟨1, 1, 15, 15⟩]
  l2gdMap := [⟨1, 14, 2, 15⟩, ⟨16, 16, 16, 16⟩]
  l2gdMcroBit := 1
  restartAddress := 0x0800#16
  radRelint := 0x0003#16
  radInhint := 0x0004#16
  radExtend := 0x0006#16
  editCycleRight := 0o20#12
  editShiftRight := 0o21#12
  editCycleLeft := 0o22#12
  editFourth := 0o23#12
  monexBits := 0xFFFE#16
  ponexBits := 0x0001#16
  ptwoxBits := 0x0002#16
  b15xBits := 0x4000#16
  tovNone := (false, false)
  tovPositive := (false, true)
  tovNegative := (true, false)
  walsBusWhen := true
  heldStages := [1#2, 2#2, 3#2]
  wydBlockStages := [1#3, 2#3, 3#3, 4#3, 5#3, 6#3, 7#3]
  tpzgSetOnly := false
  brPacking := .numeric

/-- `ZIP_TABLE` of the candidate `ZIP_GK` (R241), row `k` for `{L[15], L[2], L[1]} = k`. Under it no row is invalid. -/
def zipTableGK : List (Option ZipAction) :=
  [ some { read := .none, load := .wy,  ci := false, mcro := false },
    some { read := .rb,   load := .wy,  ci := false, mcro := false },
    some { read := .rb,   load := .wyd, ci := false, mcro := false },
    some { read := .rc,   load := .wy,  ci := true,  mcro := true },
    some { read := .rb,   load := .wy,  ci := false, mcro := false },
    some { read := .rb,   load := .wyd, ci := false, mcro := false },
    some { read := .rc,   load := .wy,  ci := true,  mcro := true },
    some { read := .none, load := .wy,  ci := false, mcro := true } ]

end Sys2Proof.Machine
end

