-- ==== Sys2Proof/Syntax.lean ====
section
/-! DEFINITION. The instruction set `AGCS-uSEQ`: one constructor per row of spec/opcode_table.json. -/

namespace Sys2Proof

/-- The rows of the opcode table: the 53 control pulses of format P (30_encoding R122), which have no operands; the three
sentinel words of format W that the pulse `RAD` acts on (R104); and the default skip, reached by a format-K decode key, whose
operands are that key's parts (R105, R281). The operand types hold exactly the values the encodings admit. -/
inductive Instr where
  | ra
  | rb
  | rq
  | rz
  | rc
  | rg
  | rl
  | rsc
  | wsc
  | rch
  | wch
  | ru
  | rus
  | r1c
  | rb1
  | rstrt
  | wa
  | wb
  | wl
  | wq
  | wz
  | ws
  | wg
  | wals
  | wy
  | wy12
  | wyd
  | a2x
  | monex
  | ponex
  | ptwox
  | b15x
  | ci
  | tsgn
  | tsgn2
  | tmz
  | tov
  | tpzg
  | trsm
  | tl15
  | st1
  | st2
  | nisq
  | rad
  | zip
  | zap
  | g2ls
  | l2gd
  | neacon
  | neacof
  | pifl
  | dvst
  | stage
  | radRelint
  | radInhint
  | radExtend
  | defaultSkip (k : StageKey) (e : Bool) (o : Opcode)
  deriving DecidableEq, Repr

end Sys2Proof
end

