-- ==== Sys2Proof/Decode.lean ====
section
/-! DEFINITION. Encodings (30_encoding R100 to R125): the format-P pulse id, the format-W word with its opcode and address
fields, the format-K packed key; the decoder, total and rejecting by name, and after it the encoder. The three formats stand in
three different places of the machine (a pulse list, the register `G`, the decode key), so a number is decoded as what its place
makes it (log 36). -/

namespace Sys2Proof

/-- An encoded instruction, by format (R100). -/
inductive Encoded where
  /-- Format P, a pulse id of a pulse list. -/
  | pulse (id : PulseId)
  /-- Format W, the word that `RAD` inspects in `G`. -/
  | word (w : Word)
  /-- Format K, the packed key `kkkkeoooooo` of R105. -/
  | key (k : BitVec 11)
  deriving DecidableEq, Repr

/-- Why the decoder gives no instruction. -/
inductive Reject where
  /-- A pulse id 53 to 63: reserved, no meaning (R123). -/
  | reservedPulse (id : PulseId)
  /-- A word that is none of the three sentinels: an ordinary word, which `RAD` does not act on (R104). -/
  | ordinaryWord (w : Word)
  /-- A packed key whose stage index is 12 to 15: there are twelve stage keys (R105). -/
  | badStageKey (k : BitVec 4)
  deriving DecidableEq, Repr

/-- The pulse-id table (R122), read from id to pulse. -/
def decodePulse (id : PulseId) : Except Reject Instr :=
  match id.toNat with
  | 0 => .ok .ra
  | 1 => .ok .rb
  | 2 => .ok .rq
  | 3 => .ok .rz
  | 4 => .ok .rc
  | 5 => .ok .rg
  | 6 => .ok .rl
  | 7 => .ok .rsc
  | 8 => .ok .wsc
  | 9 => .ok .rch
  | 10 => .ok .wch
  | 11 => .ok .ru
  | 12 => .ok .rus
  | 13 => .ok .r1c
  | 14 => .ok .rb1
  | 15 => .ok .rstrt
  | 16 => .ok .wa
  | 17 => .ok .wb
  | 18 => .ok .wl
  | 19 => .ok .wq
  | 20 => .ok .wz
  | 21 => .ok .ws
  | 22 => .ok .wg
  | 23 => .ok .wals
  | 24 => .ok .wy
  | 25 => .ok .wy12
  | 26 => .ok .wyd
  | 27 => .ok .a2x
  | 28 => .ok .monex
  | 29 => .ok .ponex
  | 30 => .ok .ptwox
  | 31 => .ok .b15x
  | 32 => .ok .ci
  | 33 => .ok .tsgn
  | 34 => .ok .tsgn2
  | 35 => .ok .tmz
  | 36 => .ok .tov
  | 37 => .ok .tpzg
  | 38 => .ok .trsm
  | 39 => .ok .tl15
  | 40 => .ok .st1
  | 41 => .ok .st2
  | 42 => .ok .nisq
  | 43 => .ok .rad
  | 44 => .ok .zip
  | 45 => .ok .zap
  | 46 => .ok .g2ls
  | 47 => .ok .l2gd
  | 48 => .ok .neacon
  | 49 => .ok .neacof
  | 50 => .ok .pifl
  | 51 => .ok .dvst
  | 52 => .ok .stage
  | _ => .error (.reservedPulse id)

/-- The sentinel words (R104), compared on all 16 bits in the order of 45_stage_flow R233. -/
def decodeWord (p : Params) (w : Word) : Except Reject Instr :=
  if w = p.radRelint then .ok .radRelint
  else if w = p.radInhint then .ok .radInhint
  else if w = p.radExtend then .ok .radExtend
  else .error (.ordinaryWord w)

/-- The stage key with packed index `k`: `s` for `N(s)`, `4 + d` for `D(d)` (R105). -/
def stageOfIndex (k : BitVec 4) : Except Reject StageKey :=
  if k.toNat < 4 then .ok (.normal (BitVec.ofNat 2 k.toNat))
  else if k.toNat < 12 then .ok (.divide (BitVec.ofNat 3 (k.toNat - 4)))
  else .error (.badStageKey k)

/-- The packed key `kkkkeoooooo` (R105): the default skip at that key. -/
def decodeKey (k : BitVec 11) : Except Reject Instr :=
  match stageOfIndex (k.extractLsb' 7 4) with
  | .ok stage => .ok (.defaultSkip stage (k.getLsbD 6) (k.extractLsb' 0 6))
  | .error r => .error r

/-- The decoder: total, one instruction or a rejection by name. The sentinel values are the configuration's. -/
def decode (p : Params) : Encoded → Except Reject Instr
  | .pulse id => decodePulse id
  | .word w => decodeWord p w
  | .key k => decodeKey k

/-- The opcode bits of an instruction word (format W): `{B[16], B[14:10]}` (R101, R102). -/
def opcodeOf (p : Params) (b : Word) : Opcode := (Machine.copyRanges p.opcodeSlice b 0x0000#16).setWidth 6

/-- The address field of an instruction word (format W): bits 12..1 (R101, R103). -/
def addressOf (b : Word) : Addr := Machine.slice b 12 1

/-- The pulse-id table (R122), read from pulse to id; the rows of formats W and K have none. -/
def pulseId : Instr → Option PulseId
  | .ra => some 0#6
  | .rb => some 1#6
  | .rq => some 2#6
  | .rz => some 3#6
  | .rc => some 4#6
  | .rg => some 5#6
  | .rl => some 6#6
  | .rsc => some 7#6
  | .wsc => some 8#6
  | .rch => some 9#6
  | .wch => some 10#6
  | .ru => some 11#6
  | .rus => some 12#6
  | .r1c => some 13#6
  | .rb1 => some 14#6
  | .rstrt => some 15#6
  | .wa => some 16#6
  | .wb => some 17#6
  | .wl => some 18#6
  | .wq => some 19#6
  | .wz => some 20#6
  | .ws => some 21#6
  | .wg => some 22#6
  | .wals => some 23#6
  | .wy => some 24#6
  | .wy12 => some 25#6
  | .wyd => some 26#6
  | .a2x => some 27#6
  | .monex => some 28#6
  | .ponex => some 29#6
  | .ptwox => some 30#6
  | .b15x => some 31#6
  | .ci => some 32#6
  | .tsgn => some 33#6
  | .tsgn2 => some 34#6
  | .tmz => some 35#6
  | .tov => some 36#6
  | .tpzg => some 37#6
  | .trsm => some 38#6
  | .tl15 => some 39#6
  | .st1 => some 40#6
  | .st2 => some 41#6
  | .nisq => some 42#6
  | .rad => some 43#6
  | .zip => some 44#6
  | .zap => some 45#6
  | .g2ls => some 46#6
  | .l2gd => some 47#6
  | .neacon => some 48#6
  | .neacof => some 49#6
  | .pifl => some 50#6
  | .dvst => some 51#6
  | .stage => some 52#6
  | .radRelint => none
  | .radInhint => none
  | .radExtend => none
  | .defaultSkip _ _ _ => none

/-- The packed index of a stage key (R105). -/
def stageIndex : StageKey → BitVec 4
  | .normal s => BitVec.ofNat 4 s.toNat
  | .divide d => BitVec.ofNat 4 (4 + d.toNat)

/-- The packed decode key (R105): `((k * 2) + extend) * 64 + opcode`. -/
def packKey (k : Key) : BitVec 11 := stageIndex k.stage ++ BitVec.ofBool k.extend ++ k.opcode

/-- The encoder: the id of a pulse, the word of a sentinel, the packed key of the default skip. -/
def encode (p : Params) (i : Instr) : Encoded :=
  match i with
  | .radRelint => .word p.radRelint
  | .radInhint => .word p.radInhint
  | .radExtend => .word p.radExtend
  | .defaultSkip k e o => .key (packKey { stage := k, extend := e, opcode := o })
  | other => .pulse ((pulseId other).getD 0#6)

/-- The pulse ids of a list of pulses, for writing entries by mnemonic. -/
def pulseIds (is : List Instr) : List PulseId := is.filterMap pulseId

/-- The format in which a word of `nbits` bits of the opcode table stands: up to one byte is a pulse id; two bytes are one of
the three sentinel words, else a packed key (log 36). -/
def formatTableWord (nbits w : Nat) : Option Encoded :=
  if nbits ≤ 8 then (if w < 2 ^ 6 then some (.pulse (BitVec.ofNat 6 w)) else none)
  else if w = Machine.specParams.radRelint.toNat ∨ w = Machine.specParams.radInhint.toNat
      ∨ w = Machine.specParams.radExtend.toNat then
    some (.word (BitVec.ofNat 16 w))
  else if w < 2 ^ 11 then some (.key (BitVec.ofNat 11 w))
  else none

/-- The instruction the decoder reads from a word of the opcode table, with the spec's own sentinel values (log 36). -/
def decodeTableWord (nbits w : Nat) : Option Instr :=
  match formatTableWord nbits w with
  | some x => (decode Machine.specParams x).toOption
  | none => none

end Sys2Proof
end

