-- ==== Sys2Proof/Machine/Subinstructions.lean ====
section
/-! DEFINITION. The subinstructions the spec itself writes out (48_scheduler R281, 70_reset R332), the decode table and its
construction (30_encoding R108 to R113), and the configuration the spec's defaults give (00_scope R9). -/

namespace Sys2Proof.Machine

/-- `DEFAULT_SKIP_ENTRIES` (R281, decision D27, log 17): `T1: RZ WS WY12 CI; T2: RSC WG NISQ; T6: RU WZ; T8: RAD WB WS`. -/
def defaultSkipEntries : List Entry :=
  [ { n := 1, pulses := pulseIds [.rz, .ws, .wy12, .ci] },
    { n := 2, pulses := pulseIds [.rsc, .wg, .nisq] },
    { n := 6, pulses := pulseIds [.ru, .wz] },
    { n := 8, pulses := pulseIds [.rad, .wb, .ws] } ]

/-- `GOJ1`, the candidate for `BOOTSTRAP_ENTRIES` (R332, decision D28): `T2: RSC WG; T8: RSTRT WS WB`. -/
def bootstrapGOJ1 : List Entry :=
  [ { n := 2, pulses := pulseIds [.rsc, .wg] },
    { n := 8, pulses := pulseIds [.rstrt, .ws, .wb] } ]

/-- The configuration of the spec's defaults: the values of R9, `EDIT_23` absent, the candidate `ZIP_GK`, no definitions, no
bootstrap entries, no image, no initialisation, no host channel writes (logs 8, 15, 19, 20, 30). -/
def specConfig : Config where
  params := specParams
  edit23 := none
  zipSelect := .gk
  zipTable := zipTableGK
  isaDefs := []
  defaultSkip := defaultSkipEntries
  bootstrap := []
  fixedImage := []
  erasableInit := []
  hostChannelWrites := false

/-- One character of a pattern: whether it fixes its bit, and the bit it requires (R109); none for a character outside `0 1 x`. -/
def patternChar (c : Char) : Option (Bool × Bool) :=
  if c = '0' then some (true, false)
  else if c = '1' then some (true, true)
  else if c = 'x' then some (false, false)
  else none

/-- The mask and value of a pattern's characters, leftmost first, each shifting in at the bottom (R109). -/
def patternBits : List Char → Opcode × Opcode → Option (Opcode × Opcode)
  | [], acc => some acc
  | c :: rest, (m, v) =>
    match patternChar c with
    | some (fixed, one) =>
      patternBits rest ((m <<< 1) ||| (BitVec.ofBool fixed).setWidth 6, (v <<< 1) ||| (BitVec.ofBool one).setWidth 6)
    | none => none

/-- Mask and value of a pattern of exactly six characters over `0 1 x` (R108, R109). -/
def maskValue (pattern : List Char) : Option (Opcode × Opcode) :=
  if pattern.length = 6 then patternBits pattern (0#6, 0#6) else none

/-- An opcode matches iff its masked bits are the required value (R109). -/
def matchesOpcode (d : Def) (o : Opcode) : Bool := decide (o &&& d.mask = d.value)

/-- A definition covers a key when stage key and extend value are equal and the pattern matches the opcode (R110). -/
def covers (d : Def) (k : Key) : Bool :=
  decide (d.stage = k.stage) && decide (d.extend = k.extend) && matchesOpcode d k.opcode

/-- The decode table: for every key a declared definition, or `none` for the default skip. -/
abbrev DecodeTable := Key → Option Def

/-- Step (2) of the construction for one definition: overwrite every key it covers (R110). -/
def installDef (table : DecodeTable) (d : Def) : DecodeTable := fun k => if covers d k then some d else table k

/-- `build_decode_table` (R110): the default everywhere, then the definitions in declaration order, the last write winning
(R111). A pure function of the definitions (R10). -/
def buildTable (defs : List Def) : DecodeTable := defs.foldl installDef (fun _ => none)

/-- The entries the lookup gives at a key (R113). -/
def tableEntries (c : Config) (k : Key) : List Entry :=
  match buildTable c.isaDefs k with
  | some d => d.entries
  | none => c.defaultSkip

end Sys2Proof.Machine
end

