-- ==== Sys2Proof/Machine/State.lean ====
section
/-! DEFINITION. The state of the machine (10_state R20 to R62), its faults (60_exceptions R300) and refusals, and the state at
creation (R61). INVENTORY.md lists every field with its rule and reset value. -/

namespace Sys2Proof.Machine

/-- The complete state of the machine (R20), and three fields of the model's own: `cfg`, `hostInputs`, `diags`. -/
structure State where
  /-- `A`, the accumulator (R21). -/
  a : Word
  /-- `B`, the buffer (R22). -/
  b : Word
  /-- `G`, memory data (R23). -/
  g : Word
  /-- `L`, the low-order accumulator (R24). -/
  l : Word
  /-- `Q`, the return register (R25). -/
  q : Word
  /-- `Z`, the program counter (R26, R28). -/
  z : Word
  /-- `EB`, the erasable-bank field: its `EB_WIDTH` bits, 3 in `specParams`, at the low end (R36, log 3). -/
  eb : Word
  /-- `FB`, the fixed-bank field: its `FB_WIDTH` bits, 5 in `specParams`, at the low end (R37, log 3). -/
  fb : Word
  /-- `S`, the address register (R31). -/
  sReg : Addr
  /-- `S_temp`, inert: no rule reads or writes it (R32). -/
  sTemp : Addr
  /-- `SQ`, the opcode register (R33). -/
  sq : Opcode
  /-- `ST`, the instruction stage (R34). -/
  st : BitVec 2
  /-- `STNext`, the staged next stage (R35). -/
  stNext : BitVec 2
  /-- `BR1`, a branch flip-flop (R39). -/
  br1 : Bool
  /-- `BR2`, a branch flip-flop (R39). -/
  br2 : Bool
  /-- `X`, an adder operand (R49). -/
  x : Word
  /-- `Y`, an adder operand (R49). -/
  y : Word
  /-- `CI`, the explicit carry (R50). -/
  ci : Bool
  /-- `WBUS`, the write bus (R52). -/
  wbus : Word
  /-- `NextInstruction` (R40). -/
  nextInstruction : Bool
  /-- `InhibitInterrupts` (R41). -/
  inhibitInterrupts : Bool
  /-- `NoEAC`, the end-around-carry inhibit (R42). -/
  noEAC : Bool
  /-- `MCRO` (R43). -/
  mcro : Bool
  /-- `Extend` (R44). -/
  extend : Bool
  /-- `Extend_Next` (R45). -/
  extendNext : Bool
  /-- `DVSequence` (R46). -/
  dvSequence : Bool
  /-- `DVStage` (R47). -/
  dvStage : BitVec 3
  /-- The latch `PIFL` (R48). -/
  pifl : Bool
  /-- `T`, the time-pulse counter, 1 to 12 (R53; the range is an invariant, `Safety.lean`). -/
  t : Nat
  /-- `Queue`, in order of enqueue (R54). -/
  queue : List Entry
  /-- `WBA`, the write-back address latch (R55). -/
  wba : Option Nat
  /-- `Chan`, the I/O-channel store (R56). -/
  chan : Memory
  /-- `E`, the erasable array (R57, 20_memory R72). -/
  eMem : Memory
  /-- `F`, the fixed array (R57, 20_memory R73). -/
  fMem : Memory
  /-- The model's own: the configuration record of 00_scope R9, which no rule changes (log 1). -/
  cfg : Config
  /-- The model's own: the channel writes the host still has to make, one batch before each tick (R6, D40, log 30). -/
  hostInputs : List (List (Channel × Word))
  /-- The model's own: the diagnostics emitted so far, an output trace that nothing reads (R58, R307, log 35). -/
  diags : List Diag
  deriving DecidableEq, Repr

/-- The fatal defects (60_exceptions R300). Each carries the source's info and the state at the raising point, with everything
done that was done before it and nothing after (R308, log 29). All are safe: the spec ends the run at the same point. -/
inductive Fault where
  /-- Dispatch (48_scheduler R265, R301): more than four entries at time pulse `t`. -/
  | branchCollision (t count : Nat) (wreck : State)
  /-- Dispatch (R266, R302): two to four entries at `t` and the branch register is not below their count. -/
  | branchIndexOutOfRange (t count br : Nat) (wreck : State)
  /-- `ZIP` (46_compound R241, R303): the table marks the selected row invalid. -/
  | zipInvalid (l : Word) (k : BitVec 3) (wreck : State)
  /-- The T4 read (20_memory R78, R304): the resolved index is not below the array's length. -/
  | addressRange (s : Addr) (space : Space) (index : Nat) (wreck : State)
  /-- `WG` at the fourth edit address with `EDIT_23` absent (42_bus_write R191, R305). -/
  | edit23Unspecified (w : Word) (wreck : State)
  deriving DecidableEq, Repr

/-- Where the model gives no meaning. -/
inductive Refusal where
  /-- An arm of `exec` without a meaning (there is none left). Safe: the model stops. -/
  | notModelled (mnemonic : String)
  /-- Dispatch of a reserved pulse id, 53 to 63, which no built table holds (30_encoding R123). Safe: the model stops. -/
  | reservedPulse (id : PulseId)
  deriving DecidableEq, Repr

/-- The state at creation (10_state R61): every register and latch zero, `T` = 1, `WBA` empty, channels and memories zero. The
OPEN contents are empty: no bootstrap entries, no image, no definitions (logs 19, 20). -/
def State.reset : State where
  a := 0x0000#16
  b := 0x0000#16
  g := 0x0000#16
  l := 0x0000#16
  q := 0x0000#16
  z := 0x0000#16
  eb := 0#16
  fb := 0#16
  sReg := 0#12
  sTemp := 0#12
  sq := 0#6
  st := 0#2
  stNext := 0#2
  br1 := false
  br2 := false
  x := 0x0000#16
  y := 0x0000#16
  ci := false
  wbus := 0x0000#16
  nextInstruction := false
  inhibitInterrupts := false
  noEAC := false
  mcro := false
  extend := false
  extendNext := false
  dvSequence := false
  dvStage := 0#3
  pifl := false
  t := 1
  queue := []
  wba := none
  chan := []
  eMem := []
  fMem := []
  cfg := specConfig
  hostInputs := []
  diags := []

end Sys2Proof.Machine
end

