-- ==== Sys2Proof/Machine/Flags.lean ====
section
/-! DEFINITION. Every flag computation of the rules: the branch tests (44_branch_test), the packed branch register
(10_state R39), the conditions on latches (43_adder_setup R202, 48_scheduler R262, R263) and the divide ring (47 R254). -/

namespace Sys2Proof.Machine

/-- The sign bit of a word is bit 16 (10_state R30, decision D20, log 12). -/
def signBit (w : Word) : Bool := bit w 16

/-- Minus zero is all ones, on all 16 bits (44_branch_test R219). -/
def isMinusZero (w : Word) : Bool := decide (w = 0xFFFF#16)

/-- Plus zero, on all 16 bits (R220). -/
def isPlusZero (w : Word) : Bool := decide (w = 0x0000#16)

/-- The `TOV` code of a word's top two bits (R218): 01 is positive overflow, 10 negative, 00 and 11 none. -/
def overflowCode (p : Params) (w : Word) : Bool × Bool :=
  match bit w 16, bit w 15 with
  | false, true => p.tovPositive
  | true, false => p.tovNegative
  | false, false => p.tovNone
  | true, true => p.tovNone

/-- The value `TPZG` gives `BR2`: assigned, or only set under `TPZG_SET_ONLY` (R220). -/
def plusZeroFlag (p : Params) (br2 : Bool) (g : Word) : Bool :=
  if p.tpzgSetOnly then br2 || isPlusZero g else isPlusZero g

/-- The packed branch register, `BR = 2*BR1 + BR2` (10_state R39, decision D2); under the other packing that 90_conflicts C5
names the alternatives stand in the order 00, 10, 01, 11 (log 22). -/
def packedBranch (p : Params) (br1 br2 : Bool) : Nat :=
  match p.brPacking with
  | .numeric => 2 * br1.toNat + br2.toNat
  | .nonMonotonic => br1.toNat + 2 * br2.toNat

/-- The stage register indicates a held multi-cycle instruction (48_scheduler R262, decision D6, log 23). -/
def isHeld (p : Params) (st : BitVec 2) : Bool := p.heldStages.contains st

/-- The ticks at whose start the latch `PIFL` is cleared (R263). -/
def clearsPifl (t : Nat) : Bool := decide (t = 2 ∨ t = 5 ∨ t = 8 ∨ t = 11)

/-- `WYD` does not write `Y[1]` (43_adder_setup R202): end-around carry inhibited, a divide substage active, or `PIFL` with
`L[15]`. -/
def wydBlocked (s : State) : Bool :=
  s.noEAC || s.cfg.params.wydBlockStages.contains s.dvStage || (s.pifl && bit s.l 15)

/-- The next divide substage: a three-bit twisted ring (47_supplementary R254). -/
def nextDvStage (d : BitVec 3) : BitVec 3 := (d <<< 1) ||| (if bit d 3 then 0#3 else 1#3)

end Sys2Proof.Machine
end

