-- ==== Sys2Proof/Machine/Memory.lean ====
section
/-! DEFINITION. Word memories (20_memory R71 to R73, 10_state R56): sparse lists of (index, word) cells in one canonical form,
indices strictly rising and no cell of 0x0000, which is what an unlisted index reads as. The spec's own default is that zero:
`ERASABLE_INIT` (R61), the words beyond the image's end (R333) and a channel never written (R56) are all 0x0000 (log 32). -/

namespace Sys2Proof.Machine

/-- What an index that is not listed reads as. -/
def unlistedWord : Word := 0x0000#16

/-- The word at index `i`. -/
def memRead : Memory → Nat → Word
  | [], _ => unlistedWord
  | (j, v) :: rest, i => if i = j then v else memRead rest i

/-- The cell `(i, v)` in front of a list, or nothing when `v` is what an unlisted index reads as. -/
def memCons (i : Nat) (v : Word) (rest : Memory) : Memory :=
  if v = unlistedWord then rest else (i, v) :: rest

/-- Store `v` at index `i`, keeping the canonical form. -/
def memWrite : Memory → Nat → Word → Memory
  | [], i, v => memCons i v []
  | (j, w) :: rest, i, v =>
    if i < j then memCons i v ((j, w) :: rest)
    else if i = j then memCons i v rest
    else (j, w) :: memWrite rest i v

/-- Every index of the list is above `lo`, the indices rise strictly, and no cell is 0x0000. -/
def memWfAbove : Nat → Memory → Bool
  | _, [] => true
  | lo, (j, v) :: rest => decide (lo < j) && decide (v ≠ unlistedWord) && memWfAbove j rest

/-- The canonical form. -/
def memWf : Memory → Bool
  | [] => true
  | (j, v) :: rest => decide (v ≠ unlistedWord) && memWfAbove j rest

/-- Every listed index is below `n`: the memory holds no cell outside an array of `n` words. -/
def memBounded (n : Nat) (m : Memory) : Bool := m.all fun c => decide (c.1 < n)

/-- Store a list of cells, first to last. -/
def memWriteAll (m : Memory) : List (Nat × Word) → Memory
  | [] => m
  | (i, v) :: rest => memWriteAll (memWrite m i v) rest

/-- The words of an image, one after another from index `i`. -/
def memOfWords : Nat → List Word → Memory
  | _, [] => []
  | i, v :: rest => memCons i v (memOfWords (i + 1) rest)

end Sys2Proof.Machine
end

