-- ==== Sys2Proof/Machine/Ops.lean ====
section
/-! DEFINITION. The named operations over the state: sequencing, the fault, the updates the pulses share, address translation
and the two memory steps of the cycle (20_memory R75 to R82). -/

namespace Sys2Proof.Machine

/-- Go on with the next state; a fault or a refusal ends the step there (48_scheduler R260). -/
def andThen (o : Host.Outcome State Fault Refusal) (f : State → Host.Outcome State Fault Refusal) :
    Host.Outcome State Fault Refusal :=
  match o with
  | .next s => f s
  | .fault r => .fault r
  | .refused r => .refused r

/-- `raise Fault(name, info)` (60_exceptions R308): the step ends at once, nothing is saved, no vector is fetched and no mode
changes; the fault carries the state as it stands. This is the whole of taking an exception here: the machine has no handler and
no return from one (R300, R309). -/
def raise (f : State → Fault) (s : State) : Host.Outcome State Fault Refusal := .fault (f s)

/-- The effect of an OR-type read pulse (41_bus_read R160). -/
def orBus (v : Word) (s : State) : State := { s with wbus := s.wbus ||| v }

/-- The effect of a constant pulse: the bus is overwritten (41_bus_read R171). -/
def setBus (v : Word) (s : State) : State := { s with wbus := v }

/-- What `WY`, `WY12` and `WYD` share: `X` and the carry cleared, `Y` loaded (43_adder_setup R200 to R202). -/
def loadAdder (v : Word) (s : State) : State := { s with x := 0x0000#16, y := v, ci := false }

/-- Force bits into `X`: OR, other bits kept (43_adder_setup R204 to R207). -/
def forceX (v : Word) (s : State) : State := { s with x := s.x ||| v }

/-- OR bits into `STNext` (45_stage_flow R230, R231). -/
def requestStage (v : BitVec 2) (s : State) : State := { s with stNext := s.stNext ||| v }

/-- Assign both branch flip-flops (44_branch_test R218). -/
def setBranch (v : Bool × Bool) (s : State) : State := { s with br1 := v.1, br2 := v.2 }

/-- Append a subinstruction's entries to the queue (48_scheduler R272). -/
def enqueue (es : List Entry) (s : State) : State := { s with queue := s.queue ++ es }

/-- Emit a diagnostic record: output only (48_scheduler R273). -/
def emitDiag (d : Diag) (s : State) : State := { s with diags := s.diags ++ [d] }

/-- `resolve(S, EB, FB)` (20_memory R75 to R77): the array a logical address reaches and the index there. Total and pure. -/
def resolve (p : Params) (s : Addr) (eb fb : Word) : Space × Nat :=
  if s.toNat ≤ p.eUnswitchedTop then (.erasable, s.toNat)
  else if s.toNat ≤ p.eBankedTop then (.erasable, (lowBits p.ebWidth eb).toNat * p.eBankWords + s.toNat % p.eBankWords)
  else if s.toNat ≤ p.fBankedTop then (.fixed, (lowBits p.fbWidth fb).toNat * p.fBankWords + s.toNat % p.fBankWords)
  else (.fixed, s.toNat)

/-- The length of an array (R72, R73). -/
def spaceWords (p : Params) : Space → Nat
  | .erasable => p.erasableWords
  | .fixed => p.fixedWords

/-- The word an array holds at an index. -/
def readSpace (s : State) : Space → Nat → Word
  | .erasable, i => memRead s.eMem i
  | .fixed, i => memRead s.fMem i

/-- The T4 read (R79 to R81): nothing for a reserved low address; the fault for an index outside its array; else `G` is the
compressed word, and an erasable cell is zeroed and its index latched. -/
def memoryRead (s : State) : Host.Outcome State Fault Refusal :=
  if s.sReg.toNat < s.cfg.params.reservedLowLimit then .next s
  else
    let target := resolve s.cfg.params s.sReg s.eb s.fb
    if spaceWords s.cfg.params target.1 ≤ target.2 then raise (.addressRange s.sReg target.1 target.2) s
    else
      match target.1 with
      | .erasable =>
        .next { s with
          g := doubleSignCompress (memRead s.eMem target.2) false
          eMem := memWrite s.eMem target.2 0x0000#16
          wba := some target.2 }
      | .fixed => .next { s with g := doubleSignCompress (memRead s.fMem target.2) false }

/-- The T9 write-back (R82): all 16 bits of `G` to the index latched at T4, and the latch emptied. -/
def writeBack (s : State) : State :=
  match s.wba with
  | some i => { s with eMem := memWrite s.eMem i s.g, wba := none }
  | none => s

end Sys2Proof.Machine
end

