-- ==== Sys2Proof/Machine/Operands.lean ====
section
/-! DEFINITION. What the pulses read and where they write: the mirrored `L`, the bank images, the central registers, the
channels, the adder, the edit shifts and the words built bit by bit (files 40 to 46). -/

namespace Sys2Proof.Machine

/-- `L` as `RL` puts it on the bus: bit 16 mirrored into bits 15 and 16 (41_bus_read R166). -/
def mirroredSign (l : Word) : Word := slice l 16 16 ++ slice l 16 16 ++ slice l 14 1

/-- The bus image of `EB`: in `specParams` the field in bits 11..9 (10_state R36, log 3). -/
def ebImage (p : Params) (eb : Word) : Word := copyRanges p.ebLayout (lowBits p.ebWidth eb) 0x0000#16

/-- The bus image of `FB`: in `specParams` its top bit in bits 16 and 15, the others in bits 14..11 (R37, log 3). -/
def fbImage (p : Params) (fb : Word) : Word := copyRanges p.fbLayout (lowBits p.fbWidth fb) 0x0000#16

/-- The bus image of `BB`: the image of `FB` ORed with `EB`, in `specParams` in bits 3..1 (R38, log 3). -/
def bbImage (p : Params) (eb fb : Word) : Word := fbImage p fb ||| copyRanges p.bbLayout (lowBits p.ebWidth eb) 0x0000#16

/-- A field taken back from a bus word by its layout, `width` bits of it; the other bits of the bus are ignored (R36 to R38). -/
def fieldOfImage (layout : List BitRange) (width : Nat) (w : Word) : Word :=
  lowBits width (copyRanges (layout.map swapRange) w 0x0000#16)

/-- `EB` as a write of the `EB` image takes it: in `specParams` bits 11..9 (R36). -/
def ebOfImage (p : Params) (w : Word) : Word := fieldOfImage p.ebLayout p.ebWidth w

/-- `FB` as a write of the `FB` or `BB` image takes it: in `specParams` bit 16 and bits 14..11 (R37). -/
def fbOfImage (p : Params) (w : Word) : Word := fieldOfImage p.fbLayout p.fbWidth w

/-- `EB` as a write of the `BB` image takes it: in `specParams` bits 3..1 (R38). -/
def ebOfBothImage (p : Params) (w : Word) : Word := fieldOfImage p.bbLayout p.ebWidth w

/-- The central register selected by `S`, all 12 bits compared; nothing, so 0x0000, from 7 up (41_bus_read R169, log 26). -/
def centralRead (s : State) : Word :=
  match s.sReg.toNat with
  | 0 => s.a
  | 1 => s.l
  | 2 => s.q
  | 3 => ebImage s.cfg.params s.eb
  | 4 => fbImage s.cfg.params s.fb
  | 5 => s.z
  | 6 => bbImage s.cfg.params s.eb s.fb
  | _ => 0x0000#16

/-- A write to the central register selected by `S`; nothing from 7 up (42_bus_write R188, log 26). -/
def centralWrite (w : Word) (s : State) : State :=
  match s.sReg.toNat with
  | 0 => { s with a := w }
  | 1 => { s with l := w }
  | 2 => { s with q := w }
  | 3 => { s with eb := ebOfImage s.cfg.params w }
  | 4 => { s with fb := fbOfImage s.cfg.params w }
  | 5 => { s with z := w }
  | 6 => { s with fb := fbOfImage s.cfg.params w, eb := ebOfBothImage s.cfg.params w }
  | _ => s

/-- The channel number is `S[6:1]` (20_memory R94, decision D13, log 27). -/
def channelOf (s : Addr) : Channel := slice s 6 1

/-- The value of a channel: 1 is `L`, 2 is `Q`, any other the channel store (41_bus_read R168). -/
def channelRead (s : State) : Word :=
  let c := channelOf s.sReg
  if c = 1#6 then s.l else if c = 2#6 then s.q else memRead s.chan c.toNat

/-- A write to a channel: 1 is `L`, 2 is `Q`, any other replaces the stored word (42_bus_write R189). -/
def channelWrite (w : Word) (s : State) : State :=
  let c := channelOf s.sReg
  if c = 1#6 then { s with l := w }
  else if c = 2#6 then { s with q := w }
  else { s with chan := memWrite s.chan c.toNat w }

/-- The adder (40_primitives R144): the carry in is the explicit carry OR the carry out of the raw sum unless inhibited. -/
def adder (x y : Word) (explicitCarry inhibitEndAroundCarry : Bool) : Word :=
  let raw := x.toNat + y.toNat
  let sum : Word := BitVec.ofNat 16 raw
  let eac := decide (2 ^ 16 ≤ raw) && !inhibitEndAroundCarry
  if explicitCarry || eac then sum + 1#16 else sum

/-- The adder output `U()` on the present operands and latches (R145). -/
def adderOut (s : State) : Word := adder s.x s.y s.ci s.noEAC

/-- The cycle right of `WG` (42_bus_write R186). -/
def cycleRight (w : Word) : Word := slice w 1 1 ++ slice w 1 1 ++ slice w 16 16 ++ slice w 14 2

/-- The arithmetic shift right of `WG` (R186). -/
def shiftRight (w : Word) : Word := slice w 16 16 ++ slice w 16 16 ++ slice w 16 16 ++ slice w 14 2

/-- The cycle left of `WG` (R186). -/
def cycleLeft (w : Word) : Word := slice w 14 14 ++ slice w 14 14 ++ slice w 13 1 ++ slice w 16 16

/-- The function `EDIT_23` when it is supplied (R191): the two candidates written out, or the host's own. -/
def applyEdit23 (e : Edit23) (w : Word) : Word :=
  match e with
  | .src => slice w 14 14 ++ slice w 14 14 ++ slice w 13 1 ++ 0#1
  | .gk => 0#9 ++ slice w 14 8
  | .host i => hostEdit23 i w

/-- The word `WG` puts in `G`, or none at the fourth edit address with `EDIT_23` absent (R186, R191). The four addresses are
compared in the order of R186, on all 12 bits of `S`. -/
def editedWord (c : Config) (s : Addr) (w : Word) : Option Word :=
  if s = c.params.editCycleRight then some (cycleRight w)
  else if s = c.params.editShiftRight then some (shiftRight w)
  else if s = c.params.editCycleLeft then some (cycleLeft w)
  else if s = c.params.editFourth then c.edit23.map fun e => applyEdit23 e w
  else some w

/-- `A` as `WALS` writes it: the bus's bits 16..3 below the sign, which is `G[16]` or the bus's bit 16 by `G[1]` (R190). -/
def walsA (p : Params) (g w : Word) : Word :=
  let sign := if bit g 1 = p.walsBusWhen then slice w 16 16 else slice g 16 16
  sign ++ sign ++ slice w 16 3

/-- `L` as `WALS` writes it: the bus's bits 2..1 in bits 14..13, the others kept (R190). -/
def walsL (l w : Word) : Word := slice l 16 15 ++ slice w 2 1 ++ slice l 12 1

/-- `Y` as `WYD` writes it: bus bits 14..1 in bits 15..2, bit 16 in bit 16, and in bit 1 bit 16 unless blocked (43_adder_setup R202). -/
def doubledWord (w : Word) (blocked : Bool) : Word :=
  slice w 16 16 ++ slice w 14 1 ++ (if blocked then 0#1 else slice w 16 16)

/-- `L` as `G2LS` writes it: the ranges of `G2LS_MAP`, the other bits of `L` kept (46_compound R243). -/
def g2lsWord (p : Params) (g l : Word) : Word := copyRanges p.g2lsMap g l

/-- `G` as `L2GD` writes it: the ranges of `L2GD_MAP` from `L`, and `MCRO` in its bit; in `specParams` every bit is written
(R244). -/
def l2gdWord (p : Params) (l : Word) (mcro : Bool) (g : Word) : Word :=
  copyBits ((BitVec.ofBool mcro).setWidth 16) (copyRanges p.l2gdMap l g) 1 1 p.l2gdMcroBit p.l2gdMcroBit .clearChanged

/-- Every range that the parameters give `copy_bits`. -/
def layoutRanges (p : Params) : List BitRange :=
  p.ebLayout ++ p.fbLayout ++ p.bbLayout ++ p.opcodeSlice ++ p.g2lsMap ++ p.l2gdMap ++
    [{ srcLo := 1, srcHi := 1, dstLo := p.l2gdMcroBit, dstHi := p.l2gdMcroBit }]

/-- `ZIP_SELECT(L)` (R241): `L[3:1]`, or `{L[15], L[2], L[1]}`, or the host's own function. -/
def zipSelectOf (z : ZipSelect) (l : Word) : BitVec 3 :=
  match z with
  | .src => slice l 3 1
  | .gk => slice l 15 15 ++ slice l 2 2 ++ slice l 1 1
  | .host i => hostZipSelect i l

/-- The row of `ZIP_TABLE` a selector picks, or none where the table marks it invalid (R241). -/
def zipRow (table : List (Option ZipAction)) (k : BitVec 3) : Option ZipAction := (table[k.toNat]?).getD none

end Sys2Proof.Machine
end

