-- ==== Sys2Proof/Machine/AdderSetup.lean ====
section
/-! DEFINITION. The adder set-up pulses (43_adder_setup R200 to R209). None changes the bus or the branch flip-flops; none faults. -/

namespace Sys2Proof.Machine

/-- `WY` (R200): `X` and the carry cleared, `Y` loaded with the bus. -/
def execWy (s : State) : Host.Outcome State Fault Refusal := .next (loadAdder s.wbus s)

/-- `WY12` (R201): as `WY`, with the low 12 bits of the bus. -/
def execWy12 (s : State) : Host.Outcome State Fault Refusal := .next (loadAdder (zext16 (slice s.wbus 12 1)) s)

/-- `WYD` (R202): as `WY`, with the bus doubled, bit 1 subject to the three blocking conditions (decision D18, log 10). -/
def execWyd (s : State) : Host.Outcome State Fault Refusal := .next (loadAdder (doubledWord s.wbus (wydBlocked s)) s)

/-- `A2X` (R203): `A` to `X`, a full overwrite, not through the bus. -/
def execA2x (s : State) : Host.Outcome State Fault Refusal := .next { s with x := s.a }

/-- `MONEX` (R204): force minus one into `X` (decision D19, log 11). -/
def execMonex (s : State) : Host.Outcome State Fault Refusal := .next (forceX s.cfg.params.monexBits s)

/-- `PONEX` (R205): force plus one into `X`. -/
def execPonex (s : State) : Host.Outcome State Fault Refusal := .next (forceX s.cfg.params.ponexBits s)

/-- `PTWOX` (R206): force plus two into `X`. -/
def execPtwox (s : State) : Host.Outcome State Fault Refusal := .next (forceX s.cfg.params.ptwoxBits s)

/-- `B15X` (R207): force bit 15 into `X`. -/
def execB15x (s : State) : Host.Outcome State Fault Refusal := .next (forceX s.cfg.params.b15xBits s)

/-- `CI` (R208): set the explicit carry-in. -/
def execCi (s : State) : Host.Outcome State Fault Refusal := .next { s with ci := true }

end Sys2Proof.Machine
end

