-- ==== Sys2Proof/Machine/BranchTest.lean ====
section
/-! DEFINITION. The branch-test pulses (44_branch_test R215 to R223). Each writes only the flip-flops its rule names; the bus and the
data registers keep their values. -/

namespace Sys2Proof.Machine

/-- `TSGN` (R216): the sign bit of the bus to `BR1`. -/
def execTsgn (s : State) : Host.Outcome State Fault Refusal := .next { s with br1 := signBit s.wbus }

/-- `TSGN2` (R217): the sign bit of the bus to `BR2`. -/
def execTsgn2 (s : State) : Host.Outcome State Fault Refusal := .next { s with br2 := signBit s.wbus }

/-- `TMZ` (R219): `BR2` assigned, set iff the bus is minus zero (decision D22, log 13). -/
def execTmz (s : State) : Host.Outcome State Fault Refusal := .next { s with br2 := isMinusZero s.wbus }

/-- `TOV` (R218): both flip-flops assigned the overflow code of the bus (decision D21, log 12). -/
def execTov (s : State) : Host.Outcome State Fault Refusal := .next (setBranch (overflowCode s.cfg.params s.wbus) s)

/-- `TPZG` (R220): `BR2` assigned (or only set, under `TPZG_SET_ONLY`) from `G` being plus zero. -/
def execTpzg (s : State) : Host.Outcome State Fault Refusal := .next { s with br2 := plusZeroFlag s.cfg.params s.br2 s.g }

/-- `TRSM` (R221): request stage 2 iff `S` is 17 octal; nothing otherwise (decision D23, log 14). -/
def execTrsm (s : State) : Host.Outcome State Fault Refusal :=
  .next (if s.sReg = 0o17#12 then requestStage 2#2 s else s)

/-- `TL15` (R222): bit 15 of `L` to `BR1`. -/
def execTl15 (s : State) : Host.Outcome State Fault Refusal := .next { s with br1 := bit s.l 15 }

end Sys2Proof.Machine
end

