-- ==== Sys2Proof/Machine/BusRead.lean ====
section
/-! DEFINITION. The bus-read pulses (41_bus_read R160 to R175). Each ORs a value onto the write bus, but for the three constants of R171,
which overwrite it; no other state changes and no fault is raised. -/

namespace Sys2Proof.Machine

/-- `RA` (R161): OR `A` onto the bus. -/
def execRa (s : State) : Host.Outcome State Fault Refusal := .next (orBus s.a s)

/-- `RB` (R162): OR `B` onto the bus. -/
def execRb (s : State) : Host.Outcome State Fault Refusal := .next (orBus s.b s)

/-- `RQ` (R163): OR `Q` onto the bus. -/
def execRq (s : State) : Host.Outcome State Fault Refusal := .next (orBus s.q s)

/-- `RZ` (R164): OR `Z` onto the bus. -/
def execRz (s : State) : Host.Outcome State Fault Refusal := .next (orBus s.z s)

/-- `RC` (R165): OR the complement of `B`, all 16 bits, onto the bus. -/
def execRc (s : State) : Host.Outcome State Fault Refusal := .next (orBus (~~~s.b) s)

/-- `RG` (R167): OR `G` onto the bus. -/
def execRg (s : State) : Host.Outcome State Fault Refusal := .next (orBus s.g s)

/-- `RL` (R166): OR `L`, bit 16 mirrored into bits 15 and 16, onto the bus. -/
def execRl (s : State) : Host.Outcome State Fault Refusal := .next (orBus (mirroredSign s.l) s)

/-- `RSC` (R169): OR the central register selected by `S` onto the bus; 0x0000 for `S` from 7 up. -/
def execRsc (s : State) : Host.Outcome State Fault Refusal := .next (orBus (centralRead s) s)

/-- `RCH` (R168): OR the channel selected by `S[6:1]` onto the bus. -/
def execRch (s : State) : Host.Outcome State Fault Refusal := .next (orBus (channelRead s) s)

/-- `RU` (R170): OR the adder output onto the bus. -/
def execRu (s : State) : Host.Outcome State Fault Refusal := .next (orBus (adderOut s) s)

/-- `RUS` (R172): OR the adder output, bit 15 mirrored into bit 16, onto the bus. -/
def execRus (s : State) : Host.Outcome State Fault Refusal := .next (orBus (doubleSignExpand (adderOut s)) s)

/-- `R1C` (R173): overwrite the bus with all ones but bit 1. -/
def execR1c (s : State) : Host.Outcome State Fault Refusal := .next (setBus 0xFFFE#16 s)

/-- `RB1` (R174): overwrite the bus with the value 1. -/
def execRb1 (s : State) : Host.Outcome State Fault Refusal := .next (setBus 0x0001#16 s)

/-- `RSTRT` (R175): overwrite the bus with `RESTART_ADDRESS` (decision D15, log 5). -/
def execRstrt (s : State) : Host.Outcome State Fault Refusal := .next (setBus s.cfg.params.restartAddress s)

end Sys2Proof.Machine
end

