-- ==== Sys2Proof/Machine/BusWrite.lean ====
section
/-! DEFINITION. The bus-write pulses (42_bus_write R180 to R191). Each copies the bus as it stands, or a function of it, to its
destination; the bus keeps its value. -/

namespace Sys2Proof.Machine

/-- `WA` (R181): the bus to `A`. -/
def execWa (s : State) : Host.Outcome State Fault Refusal := .next { s with a := s.wbus }

/-- `WB` (R182): the bus to `B`. -/
def execWb (s : State) : Host.Outcome State Fault Refusal := .next { s with b := s.wbus }

/-- `WL` (R183): the bus to `L`. -/
def execWl (s : State) : Host.Outcome State Fault Refusal := .next { s with l := s.wbus }

/-- `WQ` (R184): the bus to `Q`. -/
def execWq (s : State) : Host.Outcome State Fault Refusal := .next { s with q := s.wbus }

/-- `WZ` (R187): the bus to `Z`, nothing masked. -/
def execWz (s : State) : Host.Outcome State Fault Refusal := .next { s with z := s.wbus }

/-- `WS` (R185): the low 12 bits of the bus to `S`. -/
def execWs (s : State) : Host.Outcome State Fault Refusal := .next { s with sReg := slice s.wbus 12 1 }

/-- `WG` (R186, R191): the bus to `G`, shifted while `S` holds an edit address; the fault of R305 at the fourth edit address with
`EDIT_23` absent. -/
def execWg (s : State) : Host.Outcome State Fault Refusal :=
  match editedWord s.cfg s.sReg s.wbus with
  | some v => .next { s with g := v }
  | none => raise (.edit23Unspecified s.wbus) s

/-- `WSC` (R188): the bus to the central register selected by `S`; nothing for `S` from 7 up. -/
def execWsc (s : State) : Host.Outcome State Fault Refusal := .next (centralWrite s.wbus s)

/-- `WCH` (R189): the bus to the channel selected by `S[6:1]`. -/
def execWch (s : State) : Host.Outcome State Fault Refusal := .next (channelWrite s.wbus s)

/-- `WALS` (R190): the bus split across `A` and `L`, the sign of `A` chosen by `G[1]`. -/
def execWals (s : State) : Host.Outcome State Fault Refusal := .next { s with a := walsA s.cfg.params s.g s.wbus, l := walsL s.l s.wbus }

end Sys2Proof.Machine
end

