-- ==== Sys2Proof/Machine/Compound.lean ====
section
/-! DEFINITION. The compound macro-pulses (46_compound R240 to R244): each performs other pulses' rules in the order written, each
seeing the state the one before left. -/

namespace Sys2Proof.Machine

/-- `G2LS` (R243): `G` to `L`, shifted (decision D26, log 16). -/
def execG2ls (s : State) : Host.Outcome State Fault Refusal := .next { s with l := g2lsWord s.cfg.params s.g s.l }

/-- `L2GD` (R244): `L` to `G`, doubled, `MCRO` in bit 1 (decision D26, log 16). -/
def execL2gd (s : State) : Host.Outcome State Fault Refusal := .next { s with g := l2gdWord s.cfg.params s.l s.mcro s.g }

/-- `ZAP` (R242): `RU`, `G2LS`, `WALS`. -/
def execZap (s : State) : Host.Outcome State Fault Refusal :=
  andThen (execRu s) fun s1 => andThen (execG2ls s1) execWals

/-- The read of a `ZIP` action (R241). -/
def zipDoRead (r : ZipRead) (s : State) : Host.Outcome State Fault Refusal :=
  match r with
  | .none => .next s
  | .rb => execRb s
  | .rc => execRc s

/-- The adder load of a `ZIP` action (R241). -/
def zipDoLoad (r : ZipLoad) (s : State) : Host.Outcome State Fault Refusal :=
  match r with
  | .none => .next s
  | .wy => execWy s
  | .wyd => execWyd s

/-- A `ZIP` action (R241): read, adder load, `CI`, `MCRO`, in that order. -/
def zipDoAction (act : ZipAction) (s : State) : Host.Outcome State Fault Refusal :=
  andThen (zipDoRead act.read s) fun s1 =>
  andThen (zipDoLoad act.load s1) fun s2 =>
  andThen (if act.ci then execCi s2 else .next s2) fun s3 =>
  .next (if act.mcro then { s3 with mcro := true } else s3)

/-- `ZIP` (R241): the action the table gives for the selector of `L`, then `A2X`, `L2GD`; the fault of R303, before anything
changes, where the table marks the row invalid (decision D25, log 15). -/
def execZip (s : State) : Host.Outcome State Fault Refusal :=
  let k := zipSelectOf s.cfg.zipSelect s.l
  match zipRow s.cfg.zipTable k with
  | none => raise (.zipInvalid s.l k) s
  | some act =>
    andThen (zipDoAction act s) fun s1 =>
    andThen (execA2x s1) execL2gd

end Sys2Proof.Machine
end

