-- ==== Sys2Proof/Machine/DefaultSkip.lean ====
section
/-! DEFINITION. The default skip subinstruction (48_scheduler R281, R283): what the scheduler does at T12 when the decode key selects the
default entry. -/

namespace Sys2Proof.Machine

/-- `DEFAULT_SKIP` at the key `(k, e, o)`: its entries are appended to the queue (R272, R281), and outside the legitimate skip
stage `N(2)` a diagnostic is emitted (R273, R307). -/
def execDefaultSkip (k : StageKey) (e : Bool) (o : Opcode) (s : State) : Host.Outcome State Fault Refusal :=
  let queued := enqueue s.cfg.defaultSkip s
  .next (if k = .normal 2#2 then queued
    else emitDiag { b := s.b, sq := o, stage := k, extend := e, z := s.z } queued)

end Sys2Proof.Machine
end

