-- ==== Sys2Proof/Machine/StageFlow.lean ====
section
/-! DEFINITION. The stage and flow-control pulses (45_stage_flow R230 to R233) and the three sentinel words (30_encoding R104), whose
meaning is what `RAD` does on finding them in `G`. -/

namespace Sys2Proof.Machine

/-- `ST1` (R230): OR 1 into `STNext`. -/
def execSt1 (s : State) : Host.Outcome State Fault Refusal := .next (requestStage 1#2 s)

/-- `ST2` (R231): OR 2 into `STNext`. -/
def execSt2 (s : State) : Host.Outcome State Fault Refusal := .next (requestStage 2#2 s)

/-- `NISQ` (R232): set the fetch-next-instruction latch, clear the interrupt-inhibit latch. -/
def execNisq (s : State) : Host.Outcome State Fault Refusal :=
  .next { s with nextInstruction := true, inhibitInterrupts := false }

/-- `RAD_RELINT` (R104, R233): release interrupts, then `RZ`, `ST2`. -/
def execRadRelint (s : State) : Host.Outcome State Fault Refusal :=
  andThen (execRz { s with inhibitInterrupts := false }) execSt2

/-- `RAD_INHINT` (R104, R233): inhibit interrupts, then `RZ`, `ST2`. -/
def execRadInhint (s : State) : Host.Outcome State Fault Refusal :=
  andThen (execRz { s with inhibitInterrupts := true }) execSt2

/-- `RAD_EXTEND` (R104, R233): extend the next instruction, then `RZ`, `ST2`. -/
def execRadExtend (s : State) : Host.Outcome State Fault Refusal :=
  andThen (execRz { s with extendNext := true }) execSt2

/-- `RAD` (R233): decode `G` as a format-W word; a sentinel has its effect, any other word is a plain `RG`. -/
def execRad (s : State) : Host.Outcome State Fault Refusal :=
  match decodeWord s.cfg.params s.g with
  | .ok .radRelint => execRadRelint s
  | .ok .radInhint => execRadInhint s
  | .ok .radExtend => execRadExtend s
  | _ => execRg s

end Sys2Proof.Machine
end

