-- ==== Sys2Proof/Machine/Supplementary.lean ====
section
/-! DEFINITION. The supplementary pulses (47_supplementary R250 to R255), the spec's own setters of `NoEAC`, `PIFL`, `DVStage` and
`DVSequence` (decision D31, log 28). -/

namespace Sys2Proof.Machine

/-- `NEACON` (R251): inhibit end-around carry. -/
def execNeacon (s : State) : Host.Outcome State Fault Refusal := .next { s with noEAC := true }

/-- `NEACOF` (R252): permit end-around carry. -/
def execNeacof (s : State) : Host.Outcome State Fault Refusal := .next { s with noEAC := false }

/-- Pulse `PIFL` (R253): set the latch `PIFL`. -/
def execPifl (s : State) : Host.Outcome State Fault Refusal := .next { s with pifl := true }

/-- `DVST` (R254): advance the divide substage. -/
def execDvst (s : State) : Host.Outcome State Fault Refusal := .next { s with dvStage := nextDvStage s.dvStage }

/-- `STAGE` (R255): use the divide substage as the next stage key. -/
def execStage (s : State) : Host.Outcome State Fault Refusal := .next { s with dvSequence := true }

end Sys2Proof.Machine
end

