-- ==== Sys2Proof/Machine/Dispatch.lean ====
section
/-! DEFINITION. One arm per row of the opcode table, each a direct call of the row's meaning. -/

namespace Sys2Proof.Machine

def exec (i : Instr) (s : State) : Host.Outcome State Fault Refusal :=
  match i with
  | .ra => Sys2Proof.Machine.execRa s
  | .rb => Sys2Proof.Machine.execRb s
  | .rq => Sys2Proof.Machine.execRq s
  | .rz => Sys2Proof.Machine.execRz s
  | .rc => Sys2Proof.Machine.execRc s
  | .rg => Sys2Proof.Machine.execRg s
  | .rl => Sys2Proof.Machine.execRl s
  | .rsc => Sys2Proof.Machine.execRsc s
  | .wsc => Sys2Proof.Machine.execWsc s
  | .rch => Sys2Proof.Machine.execRch s
  | .wch => Sys2Proof.Machine.execWch s
  | .ru => Sys2Proof.Machine.execRu s
  | .rus => Sys2Proof.Machine.execRus s
  | .r1c => Sys2Proof.Machine.execR1c s
  | .rb1 => Sys2Proof.Machine.execRb1 s
  | .rstrt => Sys2Proof.Machine.execRstrt s
  | .wa => Sys2Proof.Machine.execWa s
  | .wb => Sys2Proof.Machine.execWb s
  | .wl => Sys2Proof.Machine.execWl s
  | .wq => Sys2Proof.Machine.execWq s
  | .wz => Sys2Proof.Machine.execWz s
  | .ws => Sys2Proof.Machine.execWs s
  | .wg => Sys2Proof.Machine.execWg s
  | .wals => Sys2Proof.Machine.execWals s
  | .wy => Sys2Proof.Machine.execWy s
  | .wy12 => Sys2Proof.Machine.execWy12 s
  | .wyd => Sys2Proof.Machine.execWyd s
  | .a2x => Sys2Proof.Machine.execA2x s
  | .monex => Sys2Proof.Machine.execMonex s
  | .ponex => Sys2Proof.Machine.execPonex s
  | .ptwox => Sys2Proof.Machine.execPtwox s
  | .b15x => Sys2Proof.Machine.execB15x s
  | .ci => Sys2Proof.Machine.execCi s
  | .tsgn => Sys2Proof.Machine.execTsgn s
  | .tsgn2 => Sys2Proof.Machine.execTsgn2 s
  | .tmz => Sys2Proof.Machine.execTmz s
  | .tov => Sys2Proof.Machine.execTov s
  | .tpzg => Sys2Proof.Machine.execTpzg s
  | .trsm => Sys2Proof.Machine.execTrsm s
  | .tl15 => Sys2Proof.Machine.execTl15 s
  | .st1 => Sys2Proof.Machine.execSt1 s
  | .st2 => Sys2Proof.Machine.execSt2 s
  | .nisq => Sys2Proof.Machine.execNisq s
  | .rad => Sys2Proof.Machine.execRad s
  | .zip => Sys2Proof.Machine.execZip s
  | .zap => Sys2Proof.Machine.execZap s
  | .g2ls => Sys2Proof.Machine.execG2ls s
  | .l2gd => Sys2Proof.Machine.execL2gd s
  | .neacon => Sys2Proof.Machine.execNeacon s
  | .neacof => Sys2Proof.Machine.execNeacof s
  | .pifl => Sys2Proof.Machine.execPifl s
  | .dvst => Sys2Proof.Machine.execDvst s
  | .stage => Sys2Proof.Machine.execStage s
  | .radRelint => Sys2Proof.Machine.execRadRelint s
  | .radInhint => Sys2Proof.Machine.execRadInhint s
  | .radExtend => Sys2Proof.Machine.execRadExtend s
  | .defaultSkip k e o => Sys2Proof.Machine.execDefaultSkip k e o s

end Sys2Proof.Machine
end

