-- ==== Sys2Proof/Machine/Scheduler.lean ====
section
/-! DEFINITION. The scheduler (48_scheduler R260 to R277): the nine steps of one tick, and the placing of an instruction where
the next tick fetches it. -/

namespace Sys2Proof.Machine

/-- One channel write of the host: to a stored channel only, channels 1 and 2 being registers (10_state R56, log 30). -/
def hostWriteChannel (chan : Memory) (w : Channel × Word) : Memory :=
  if w.1 = 1#6 ∨ w.1 = 2#6 then chan else memWrite chan w.1.toNat w.2

/-- Before a tick the host makes its next batch of channel writes, where `HOST_CHANNEL_WRITES` allows any (R6, D40, log 30). -/
def applyHostWrites (s : State) : State :=
  if s.cfg.hostChannelWrites then
    match s.hostInputs with
    | [] => s
    | batch :: rest => { s with chan := batch.foldl hostWriteChannel s.chan, hostInputs := rest }
  else s

/-- Step 1 (R261): `MCRO <- 0`. -/
def clearMcro (s : State) : State := { s with mcro := false }

/-- Step 2 (R262): at T1, unless the stage holds an instruction, `NextInstruction` and `Extend_Next` are cleared. -/
def clearFetchLatches (s : State) : State :=
  if s.t = 1 ∧ isHeld s.cfg.params s.st = false then { s with nextInstruction := false, extendNext := false } else s

/-- Step 3 (R263): the latch `PIFL` is cleared at T2, T5, T8 and T11. -/
def clearPiflLatch (s : State) : State := if clearsPifl s.t then { s with pifl := false } else s

/-- The steps before the dispatch. -/
def tickStart (s : State) : State := clearPiflLatch (clearFetchLatches (clearMcro s))

/-- The entries at the current time pulse, in order of enqueue (R264). -/
def collected (s : State) : List Entry := s.queue.filter fun e => decide (e.n = s.t)

/-- The queue without them, the others in order (R264). -/
def dropCollected (s : State) : State := { s with queue := s.queue.filter fun e => decide (e.n ≠ s.t) }

/-- Decode a pulse id and execute it; a reserved id has no meaning (30_encoding R123). -/
def runPulse (id : PulseId) (s : State) : Host.Outcome State Fault Refusal :=
  match decodePulse id with
  | .ok i => exec i s
  | .error _ => .refused (.reservedPulse id)

/-- Execute a pulse list left to right, each pulse on the state the one before left (R267). -/
def runPulses : List PulseId → State → Host.Outcome State Fault Refusal
  | [], s => .next s
  | id :: rest, s => andThen (runPulse id s) (runPulses rest)

/-- Step 4 (R264 to R267): collect and remove the entries of this time pulse, and run the one there is or the one the packed
branch register selects. -/
def dispatch (s : State) : Host.Outcome State Fault Refusal :=
  let found := collected s
  let s1 := dropCollected s
  let br := packedBranch s.cfg.params s.br1 s.br2
  match found with
  | [] => .next s1
  | [e] => runPulses e.pulses s1
  | _ =>
    if 4 < found.length then raise (.branchCollision s.t found.length) s1
    else
      match found[br]? with
      | some e => runPulses e.pulses s1
      | none => raise (.branchIndexOutOfRange s.t found.length br) s1

/-- Step 5 (R268): the memory read at T4. -/
def readStep (s : State) : Host.Outcome State Fault Refusal := if s.t = 4 then memoryRead s else .next s

/-- Step 6 (R269): the write-back at T9. -/
def writeBackStep (s : State) : State := if s.t = 9 then writeBack s else s

/-- Step 7a (R270): commit the stage and, when the next instruction was requested, its opcode bits and extend flag. -/
def commitStage (s : State) : State :=
  if s.nextInstruction then
    { s with st := s.stNext, stNext := 0#2, sq := opcodeOf s.cfg.params s.b, extend := s.extendNext }
  else { s with st := s.stNext, stNext := 0#2 }

/-- The decode key (30_encoding R106): the divide substage when a divide sequence is active, else the stage. -/
def decodeKeyOf (s : State) : Key where
  stage := if s.dvSequence then .divide s.dvStage else .normal s.st
  extend := s.extend
  opcode := s.sq

/-- Steps 7b to 7d (R271 to R273): look up the next subinstruction and append its entries. -/
def invokeNext (s : State) : Host.Outcome State Fault Refusal :=
  match buildTable s.cfg.isaDefs (decodeKeyOf s) with
  | some d => .next (enqueue d.entries s)
  | none => exec (.defaultSkip (decodeKeyOf s).stage (decodeKeyOf s).extend (decodeKeyOf s).opcode) s

/-- Step 7 (R270 to R274): the cycle boundary at T12. -/
def cycleStep (s : State) : Host.Outcome State Fault Refusal :=
  if s.t = 12 then
    andThen (invokeNext (commitStage s)) fun s1 => .next { s1 with dvSequence := false }
  else .next s

/-- Steps 8 and 9 (R275, R276): the bus cleared, the counter advanced, 12 wrapping to 1. -/
def tickEnd (s : State) : State := { s with wbus := 0x0000#16, t := s.t % 12 + 1 }

/-- The steps after the dispatch. -/
def afterDispatch (s : State) : Host.Outcome State Fault Refusal :=
  andThen (readStep s) fun s1 =>
  andThen (cycleStep (writeBackStep s1)) fun s2 =>
  .next (tickEnd s2)

/-- The whole tick (R277), after the channel writes the host made since the last one. -/
def tick (s : State) : Host.Outcome State Fault Refusal :=
  andThen (dispatch (tickStart (applyHostWrites s))) afterDispatch

/-- Place a pulse list as the only one of the current time pulse. -/
def placePulses (s : State) (ids : List PulseId) : State :=
  { dropCollected s with queue := (dropCollected s).queue ++ [{ n := s.t, pulses := ids }] }

/-- Place a decode key as the one the next T12 looks up, with no definition covering it. -/
def placeKey (s : State) (k : Key) : State :=
  let s1 := { s with
    t := 12
    queue := s.queue.filter fun e => decide (e.n ≠ 12)
    nextInstruction := false
    sq := k.opcode
    extend := k.extend
    cfg := { s.cfg with isaDefs := s.cfg.isaDefs.filter fun d => !covers d k } }
  match k.stage with
  | .normal n => { s1 with dvSequence := false, stNext := n }
  | .divide d => { s1 with dvSequence := true, dvStage := d }

/-- Place an instruction of the opcode table where the next tick fetches it (log 19): a pulse id alone in the list of the
current time pulse; a sentinel word in `G` with `RAD` alone in that list; a decode key at a T12 that looks it up. -/
def placeTableWord (s : State) (nbits w : Nat) : State :=
  match formatTableWord nbits w with
  | some (.pulse id) => placePulses s [id]
  | some (.word v) => { placePulses s (pulseIds [.rad]) with g := v }
  | some (.key k) =>
    match decodeKey k with
    | .ok (.defaultSkip stage e o) => placeKey s { stage := stage, extend := e, opcode := o }
    | _ => s
  | none => s

end Sys2Proof.Machine
end

