-- ==== Sys2Proof/Machine/Step.lean ====
section
/-! DEFINITION. The step of the machine: one call of `tick` (00_scope R6, 48_scheduler R260). -/

namespace Sys2Proof.Machine

/-- One step is one time pulse (R6, R260). -/
def step (s : State) : Host.Outcome State Fault Refusal := tick s

/-- The state with an instruction of the opcode table placed where the next step fetches it (log 19). -/
def State.withFetchWord (s : State) (nbits w : Nat) : State := placeTableWord s nbits w

end Sys2Proof.Machine
end

