-- ==== Sys2Proof/Machine/Builder.lean ====
section
/-! DEFINITION. What happens before the first tick (00_scope R5, 30_encoding R115, R116, 60_exceptions R306, 70_reset R333): the
checks on the layouts, the definitions, the default entry and the bootstrap entries, the loading of the image, the block
initialisation, and the state at creation they give. -/

namespace Sys2Proof.Machine

/-- What the host supplies before the first tick: the configuration's parameters, the definitions as written, the bootstrap
entries, the image's bytes, the erasable block initialisation, and a preset of `Z` (R332, program P3). -/
structure HostSupply where
  params            : Params
  edit23            : Option Edit23
  zipSelect         : ZipSelect
  zipTable          : List (Option ZipAction)
  isaDefs           : List RawDef
  defaultSkip       : List Entry
  hostChannelWrites : Bool
  bootstrap         : List Entry
  image             : List (BitVec 8)
  erasableInit      : List (Nat × Word)
  presetZ           : Word
  hostInputs        : List (List (Channel × Word))
  deriving DecidableEq, Repr

/-- A host that supplies the spec's defaults and nothing else (00_scope R9; logs 8, 15, 19, 20, 30). -/
def specSupply : HostSupply where
  params := specParams
  edit23 := none
  zipSelect := .gk
  zipTable := zipTableGK
  isaDefs := []
  defaultSkip := defaultSkipEntries
  hostChannelWrites := false
  bootstrap := []
  image := []
  erasableInit := []
  presetZ := 0x0000#16
  hostInputs := []

/-- How many entries of a list stand at pulse-number `n`. -/
def countAt (es : List Entry) (n : Nat) : Nat := (es.filter fun e => decide (e.n = n)).length

/-- The decoder gives no pulse for this id (R123). -/
def isReservedId (id : PulseId) : Bool :=
  match decodePulse id with
  | .ok _ => false
  | .error _ => true

/-- The entries the builder checks in an item. -/
def itemEntries : BuildItem → List Entry
  | .definition d => d.entries
  | .defaultSkip es => es
  | .bootstrap es => es

/-- The first check of R115 and R116 that an item's entries fail, if any; a list that fails several is refused by the first in
the order pulse-number, five or more, three, reserved id (log 33). The refusal carries the item (60_exceptions R300). -/
def entriesRefusal (item : BuildItem) : Option BuildRefusal :=
  let es := itemEntries item
  match es.find? fun e => !decide (1 ≤ e.n ∧ e.n ≤ 12) with
  | some e => some (.badPulseNumber item e.n)
  | none =>
    match (List.range' 1 12).find? fun n => decide (4 < countAt es n) with
    | some n => some (.branchCollision item n (countAt es n))
    | none =>
      match (List.range' 1 12).find? fun n => decide (countAt es n = 3) with
      | some n => some (.badAlternativeCount item n)
      | none =>
        match (es.flatMap Entry.pulses).find? isReservedId with
        | some id => some (.reservedPulse item id)
        | none => none

/-- The item that a refusal is about; none for a refusal of a layout, of the image or of the block initialisation. -/
def refusedItem : BuildRefusal → Option BuildItem
  | .badPulseNumber item _ => some item
  | .badAlternativeCount item _ => some item
  | .branchCollision item _ _ => some item
  | .reservedPulse item _ => some item
  | .badDefinition d => some (.definition d)
  | .copyBitsRange _ => none
  | .imageTooLong _ => none
  | .imageOddLength => none
  | .erasableInitRange _ => none

/-- The stage key with a packed index written as a number (R105); none from 12 up. -/
def stageOfNat (k : Nat) : Option StageKey :=
  if k < 4 then some (.normal (BitVec.ofNat 2 k))
  else if k < 12 then some (.divide (BitVec.ofNat 3 (k - 4)))
  else none

/-- One definition checked (R115): stage key, extend value, pattern, entries. -/
def buildDef (d : RawDef) : Except BuildRefusal Def :=
  match stageOfNat d.stage, maskValue d.pattern with
  | some stage, some mv =>
    if d.extend < 2 then
      match entriesRefusal (.definition d) with
      | some r => .error r
      | none =>
        .ok { stage := stage, extend := decide (d.extend = 1), mask := mv.1, value := mv.2, name := d.name, entries := d.entries }
    else .error (.badDefinition d)
  | _, _ => .error (.badDefinition d)

/-- All definitions in declaration order, or the first refusal: no table is produced (R115). -/
def buildDefs : List RawDef → Except BuildRefusal (List Def)
  | [] => .ok []
  | d :: rest =>
    match buildDef d with
    | .error r => .error r
    | .ok b =>
      match buildDefs rest with
      | .error r => .error r
      | .ok bs => .ok (b :: bs)

/-- The words of a big-endian image, `byte[2k] * 256 + byte[2k+1]` (20_memory R87); none for an odd number of bytes (log 33). -/
def imageWords : List (BitVec 8) → Option (List Word)
  | [] => some []
  | [_] => none
  | hi :: lo :: rest =>
    match imageWords rest with
    | some ws => some ((hi ++ lo) :: ws)
    | none => none

/-- The creation state of what the host supplies (R333, R61), or the first refusal. -/
def create (h : HostSupply) : Except BuildRefusal State :=
  match (layoutRanges h.params).find? fun r => !rangeOk r with
  | some r => .error (.copyBitsRange r)
  | none =>
  match buildDefs h.isaDefs with
  | .error r => .error r
  | .ok defs =>
    match entriesRefusal (.defaultSkip h.defaultSkip) with
    | some r => .error r
    | none =>
      match entriesRefusal (.bootstrap h.bootstrap) with
      | some r => .error r
      | none =>
        match imageWords h.image with
        | none => .error .imageOddLength
        | some ws =>
          if h.params.fixedWords < ws.length then .error (.imageTooLong ws.length)
          else
            match h.erasableInit.find? fun c => decide (h.params.erasableWords ≤ c.1) with
            | some bad => .error (.erasableInitRange bad.1)
            | none =>
              .ok { State.reset with
                z := h.presetZ
                queue := h.bootstrap
                eMem := memWriteAll [] h.erasableInit
                fMem := memOfWords 0 ws
                cfg :=
                  { params := h.params
                    edit23 := h.edit23
                    zipSelect := h.zipSelect
                    zipTable := h.zipTable
                    isaDefs := defs
                    defaultSkip := h.defaultSkip
                    bootstrap := h.bootstrap
                    fixedImage := h.image
                    erasableInit := h.erasableInit
                    hostChannelWrites := h.hostChannelWrites }
                hostInputs := h.hostInputs }

end Sys2Proof.Machine
end

