-- ==== Sys2Proof/WellFormed.lean ====
section
/-! DEFINITION. Well-formedness (30_encoding R115), said as conditions, beside the builder that finds the first one broken. An
`Instr` itself needs no check: its operand types hold exactly the encodable values (R105), and a pulse has no operands (R122). -/

namespace Sys2Proof.Machine

/-- A pulse id is one of the 53 assigned ones (R123). -/
def idWf (id : PulseId) : Bool := decide (id.toNat < 53)

/-- An entry's pulse-number is in 1..12 and its ids are assigned (R114, R115). -/
def entryWf (e : Entry) : Bool := decide (1 ≤ e.n ∧ e.n ≤ 12) && e.pulses.all idWf

/-- At every pulse-number there are 0, 1, 2 or 4 entries (R115). -/
def countsWf (es : List Entry) : Bool :=
  (List.range' 1 12).all fun n =>
    decide (countAt es n = 0 ∨ countAt es n = 1 ∨ countAt es n = 2 ∨ countAt es n = 4)

/-- A list of entries is well formed (R115). -/
def entriesWf (es : List Entry) : Bool := es.all entryWf && countsWf es

/-- A pattern has exactly six characters over `0 1 x` (R108). -/
def patternWf (p : List Char) : Bool :=
  decide (p.length = 6) && p.all fun c => decide (c = '0' ∨ c = '1' ∨ c = 'x')

/-- A definition as the host writes it is well formed (R115). -/
def rawDefWf (d : RawDef) : Bool :=
  decide (d.stage < 12) && decide (d.extend < 2) && patternWf d.pattern && entriesWf d.entries

/-- Every range of the layouts is one that `copy_bits` takes (40_primitives R141). -/
def layoutsWf (p : Params) : Bool := (layoutRanges p).all rangeOk

/-- A configuration holds only well-formed entries and layouts. -/
def configWf (c : Config) : Bool := layoutsWf c.params && entriesWf c.defaultSkip && c.isaDefs.all fun d => entriesWf d.entries

end Sys2Proof.Machine
end

