-- ==== Sys2Proof/Safety.lean ====
section
/-! DEFINITION. What holds of the machine between ticks, and which ends of a step count as safe, in the terms the statements use. -/

namespace Sys2Proof.Machine

/-- `T` is in 1..12 (10_state R53). -/
abbrev timeInRange (s : State) : Prop := 1 ≤ s.t ∧ s.t ≤ 12

/-- Every queued entry is well formed and still to come in this cycle (R54, 30_encoding R117). -/
abbrev queueInForm (s : State) : Prop := entriesWf s.queue = true ∧ ∀ e ∈ s.queue, s.t ≤ e.n

/-- The channel store is canonical, holds channel numbers only, and never channels 1 and 2 (R56). -/
abbrev channelsInForm (s : State) : Prop :=
  memWf s.chan = true ∧ memBounded 64 s.chan = true ∧ memRead s.chan 1 = 0x0000#16 ∧ memRead s.chan 2 = 0x0000#16

/-- The erasable array is canonical and holds no cell beyond its length (20_memory R72). -/
abbrev erasableInForm (s : State) : Prop :=
  memWf s.eMem = true ∧ memBounded s.cfg.params.erasableWords s.eMem = true

/-- The fixed array is canonical and holds no cell beyond its length (R73). -/
abbrev fixedInForm (s : State) : Prop :=
  memWf s.fMem = true ∧ memBounded s.cfg.params.fixedWords s.fMem = true

/-- `WBA` is non-empty only between a T4 and the next T9, then names a cell of `E`, and that cell holds 0x0000 (R55, R84). -/
abbrev latchInForm (s : State) : Prop :=
  ∀ i ∈ s.wba, 5 ≤ s.t ∧ s.t ≤ 9 ∧ i < s.cfg.params.erasableWords ∧ memRead s.eMem i = 0x0000#16

/-- The bank registers hold no bit above their widths (10_state R36, R37). -/
abbrev banksInForm (s : State) : Prop :=
  s.eb.toNat < 2 ^ s.cfg.params.ebWidth ∧ s.fb.toNat < 2 ^ s.cfg.params.fbWidth

/-- What every tick keeps and creation establishes. -/
abbrev Inv (s : State) : Prop :=
  timeInRange s ∧ s.wbus = 0x0000#16 ∧ banksInForm s ∧ queueInForm s ∧ channelsInForm s ∧ erasableInForm s ∧ fixedInForm s ∧
    latchInForm s ∧ configWf s.cfg = true

/-- The OPEN and configurable behaviour is settled so that no pulse and no memory access can fault: the spec's parameter values,
`EDIT_23` supplied, and a `ZIP_TABLE` with eight valid rows. -/
abbrev fullySpecified (c : Config) : Prop :=
  c.params = specParams ∧ c.edit23.isSome = true ∧ c.zipTable.length = 8 ∧ c.zipTable.all Option.isSome = true

/-- A fault that a run of a well-formed machine can end in (60_exceptions R300): not `BranchCollision`, which is a table defect. -/
def isRunFault : Fault → Bool
  | .branchCollision _ _ _ => false
  | .branchIndexOutOfRange _ _ _ _ => true
  | .zipInvalid _ _ _ => true
  | .addressRange _ _ _ _ => true
  | .edit23Unspecified _ _ => true

/-- The same fault with the same info, the state it carries changed by `g`. -/
def mapWreck (g : State → State) : Fault → Fault
  | .branchCollision t count w => .branchCollision t count (g w)
  | .branchIndexOutOfRange t count br w => .branchIndexOutOfRange t count br (g w)
  | .zipInvalid l k w => .zipInvalid l k (g w)
  | .addressRange a sp i w => .addressRange a sp i (g w)
  | .edit23Unspecified v w => .edit23Unspecified v (g w)

/-- A safe end of a step: a next state, or one of the faults the spec lets a run end in. -/
def safeOutcome : Host.Outcome State Fault Refusal → Bool
  | .next _ => true
  | .fault f => isRunFault f
  | .refused _ => false

/-- Repeat the step, stopping at the first fault or refusal (`Host.Core.run` on this machine). -/
def runTicks : Nat → State → Host.Outcome State Fault Refusal
  | 0, s => .next s
  | k + 1, s => andThen (step s) (runTicks k)

end Sys2Proof.Machine
end

