-- ==== Sys2Proof/Certificates/Slice0/Obligations.lean ====
section
/-! DEFINITION. The statements for the provers: what the numbered rules say of creation, encodings, the pulses, the primitives,
memory, the tick, the decode table and whole runs. Bits are numbered as in the spec (`bit v 1` is the least significant). -/

open Sys2Proof Sys2Proof.Machine

/-! ### Creation -/

/-- R61: the state at creation. The zeros are the spec's decision D28 (log 18); the empty queue and memories and the
configuration are the OPEN contents at the model's choice (logs 19, 20). -/
def Obligations.ResetState : Prop :=
  let s := State.reset
  (s.a = 0 ∧ s.b = 0 ∧ s.g = 0 ∧ s.l = 0 ∧ s.q = 0 ∧ s.z = 0) ∧
  (s.eb = 0 ∧ s.fb = 0 ∧ s.sReg = 0 ∧ s.sTemp = 0 ∧ s.sq = 0 ∧ s.st = 0 ∧ s.stNext = 0) ∧
  (s.br1 = false ∧ s.br2 = false ∧ s.x = 0 ∧ s.y = 0 ∧ s.ci = false ∧ s.wbus = 0) ∧
  (s.nextInstruction = false ∧ s.inhibitInterrupts = false ∧ s.noEAC = false ∧ s.mcro = false) ∧
  (s.extend = false ∧ s.extendNext = false ∧ s.dvSequence = false ∧ s.dvStage = 0 ∧ s.pifl = false) ∧
  (s.t = 1 ∧ s.queue = [] ∧ s.wba = none) ∧
  (∀ i, memRead s.chan i = 0) ∧ (∀ i, memRead s.eMem i = 0) ∧ (∀ i, memRead s.fMem i = 0) ∧
  s.cfg = specConfig

/-- The invariant holds at reset. -/
def Obligations.InvAtReset : Prop := Inv State.reset

/-- R333, R87, R61: an accepted creation takes the configuration, the queue, the image and the block initialisation from what the
host supplies, the registers from the reset state, and is in form. The register values are decision D28 (log 18), a preset of `Z`
apart; that an image of an odd number of bytes is refused is the model's choice (log 33). -/
def Obligations.CreationInForm : Prop :=
  ∀ (h : HostSupply) (s : State), create h = .ok s →
    Inv s ∧
    s = { State.reset with
      z := h.presetZ, queue := h.bootstrap, eMem := s.eMem, fMem := s.fMem, cfg := s.cfg, hostInputs := h.hostInputs } ∧
    s.cfg = {
      params := h.params, edit23 := h.edit23, zipSelect := h.zipSelect, zipTable := h.zipTable, isaDefs := s.cfg.isaDefs,
      defaultSkip := h.defaultSkip, bootstrap := h.bootstrap, fixedImage := h.image, erasableInit := h.erasableInit,
      hostChannelWrites := h.hostChannelWrites } ∧
    buildDefs h.isaDefs = .ok s.cfg.isaDefs ∧
    (∀ c ∈ h.erasableInit, c.1 < h.params.erasableWords) ∧
    (∀ i, memRead s.eMem i = (((h.erasableInit.filter fun c => decide (c.1 = i)).getLast?).map Prod.snd).getD 0) ∧
    h.image.length % 2 = 0 ∧ h.image.length / 2 ≤ h.params.fixedWords ∧
    (∀ (k : Nat) (hi lo : BitVec 8), h.image[2 * k]? = some hi → h.image[2 * k + 1]? = some lo →
      (memRead s.fMem k).toNat = hi.toNat * 256 + lo.toNat) ∧
    (∀ k, h.image.length ≤ 2 * k → memRead s.fMem k = 0)

/-- R115, R116, R306, R110: the builder accepts a list of definitions exactly when every one is well formed; what it builds carries,
definition by definition and in order, the stage key, extend value, mask and value of the pattern, name and entries of what was
written; a refusal carries a definition of the list that is not well formed. -/
def Obligations.BuilderAcceptsExactlyTheWellFormed : Prop :=
  ∀ defs : List RawDef,
    ((∃ built, buildDefs defs = .ok built) ↔ ∀ d ∈ defs, rawDefWf d = true) ∧
    (∀ built, buildDefs defs = .ok built → built.length = defs.length ∧
      ∀ (k : Nat) (d : RawDef) (b : Def), defs[k]? = some d → built[k]? = some b →
        d.stage = (match b.stage with | .normal q => q.toNat | .divide q => 4 + q.toNat) ∧
        d.extend = b.extend.toNat ∧ maskValue d.pattern = some (b.mask, b.value) ∧
        b.name = d.name ∧ b.entries = d.entries) ∧
    (∀ r, buildDefs defs = .error r → ∃ d ∈ defs, rawDefWf d = false ∧ refusedItem r = some (.definition d))

/-! ### Encodings -/

/-- R122, R104, R105: a few words read by the decoder. -/
def Obligations.SomeWordsDecode : Prop :=
  decodeTableWord 8 0b00000000 = some .ra ∧
  decodeTableWord 8 0b00001000 = some .wsc ∧
  decodeTableWord 8 0b00011010 = some .wyd ∧
  decodeTableWord 8 0b00100100 = some .tov ∧
  decodeTableWord 8 0b00101011 = some .rad ∧
  decodeTableWord 8 0b00101101 = some .zap ∧
  decodeTableWord 8 0b00110100 = some .stage ∧
  decodeTableWord 16 0b0000000000000110 = some .radExtend ∧
  decodeTableWord 16 0b0000010111000101 = some (.defaultSkip (.divide 7#3) true 0b000101#6) ∧
  decodeTableWord 8 0b00110101 = none

/-- R122, R104, R105: the decoder and the encoder agree in both directions, for any three distinct sentinel words. -/
def Obligations.DecodeEncodeAgree : Prop :=
  ∀ p : Params, p.radRelint ≠ p.radInhint → p.radRelint ≠ p.radExtend → p.radInhint ≠ p.radExtend →
    (∀ i : Instr, decode p (encode p i) = .ok i) ∧
    (∀ (x : Encoded) (i : Instr), decode p x = .ok i → encode p i = x)

/-- R123, R104, R105: what the decoder rejects, and under which name: ids from 53, words that are no sentinel, stage indices
from 12. -/
def Obligations.DecoderRejects : Prop :=
  (∀ id : PulseId, (53 ≤ id.toNat → decodePulse id = .error (.reservedPulse id)) ∧
    (id.toNat < 53 → ∃ i, decodePulse id = .ok i)) ∧
  (∀ (p : Params) (w : Word), (∃ i, decodeWord p w = .ok i) ↔ w = p.radRelint ∨ w = p.radInhint ∨ w = p.radExtend) ∧
  (∀ k : BitVec 11, (∃ i, decodeKey k = .ok i) ↔ (k >>> 7).toNat < 12)

/-- R101, R102, R103: the opcode bits and the address field of an instruction word. The opcode's place is decision D4. -/
def Obligations.InstructionWordFields : Prop :=
  ∀ b : Word,
    (bit (opcodeOf specParams b) 6 = bit b 16 ∧ ∀ i, 1 ≤ i → i ≤ 5 → bit (opcodeOf specParams b) i = bit b (i + 9)) ∧
    ∀ i, 1 ≤ i → i ≤ 12 → bit (addressOf b) i = bit b i

/-! ### The bus-read pulses -/

/-- R160 to R167: the register reads OR onto the bus and change nothing else; `RL` mirrors bit 16 of `L` into bits 15 and 16. -/
def Obligations.RegisterReadsOrOntoTheBus : Prop :=
  ∀ s : State,
    exec .ra s = .next { s with wbus := s.wbus ||| s.a } ∧
    exec .rb s = .next { s with wbus := s.wbus ||| s.b } ∧
    exec .rq s = .next { s with wbus := s.wbus ||| s.q } ∧
    exec .rz s = .next { s with wbus := s.wbus ||| s.z } ∧
    exec .rc s = .next { s with wbus := s.wbus ||| ~~~s.b } ∧
    exec .rg s = .next { s with wbus := s.wbus ||| s.g } ∧
    ∃ v : Word, exec .rl s = .next { s with wbus := s.wbus ||| v } ∧
      bit v 16 = bit s.l 16 ∧ bit v 15 = bit s.l 16 ∧ ∀ i, 1 ≤ i → i ≤ 14 → bit v i = bit s.l i

/-- R169: `RSC` by the value of `S`. The bank images and the zero from 7 up are decisions D11 and D12 (logs 3, 26). -/
def Obligations.RscReadsTheCentralRegister : Prop :=
  ∀ s : State, ∃ v : Word,
    exec .rsc s = .next { s with wbus := s.wbus ||| v } ∧
    (s.sReg = 0 → v = s.a) ∧ (s.sReg = 1 → v = s.l) ∧ (s.sReg = 2 → v = s.q) ∧ (s.sReg = 5 → v = s.z) ∧
    (s.cfg.params = specParams →
      (s.sReg = 3 → ∀ i, 1 ≤ i → i ≤ 16 → bit v i = (decide (9 ≤ i ∧ i ≤ 11) && bit s.eb (i - 8))) ∧
      (s.sReg = 4 → bit v 16 = bit s.fb 5 ∧ bit v 15 = bit s.fb 5 ∧
        (∀ i, 1 ≤ i → i ≤ 4 → bit v (i + 10) = bit s.fb i) ∧ ∀ i, 1 ≤ i → i ≤ 10 → bit v i = false) ∧
      (s.sReg = 6 → bit v 16 = bit s.fb 5 ∧ bit v 15 = bit s.fb 5 ∧
        (∀ i, 1 ≤ i → i ≤ 4 → bit v (i + 10) = bit s.fb i) ∧ (∀ i, 4 ≤ i → i ≤ 10 → bit v i = false) ∧
        ∀ i, 1 ≤ i → i ≤ 3 → bit v i = bit s.eb i)) ∧
    (7 ≤ s.sReg.toNat → v = 0)

/-- R168, R94: `RCH` by the low six bits of `S` (decision D13, log 27). -/
def Obligations.RchReadsTheChannel : Prop :=
  ∀ s : State,
    let c := s.sReg.toNat % 64
    exec .rch s = .next { s with
      wbus := s.wbus ||| (if c = 1 then s.l else if c = 2 then s.q else memRead s.chan c) }

/-- R171, R173, R174, R175: the constants overwrite the bus; the restart address is configuration (decision D15, log 5). -/
def Obligations.ConstantsOverwriteTheBus : Prop :=
  ∀ s : State,
    exec .r1c s = .next { s with wbus := 0xFFFE#16 } ∧
    exec .rb1 s = .next { s with wbus := 0x0001#16 } ∧
    exec .rstrt s = .next { s with wbus := s.cfg.params.restartAddress } ∧
    specParams.restartAddress = 0x0800#16

/-! ### The bus-write pulses -/

/-- R180 to R185, R187: the plain writes copy the bus to their register, `WS` its low 12 bits, and change nothing else. -/
def Obligations.RegisterWritesCopyTheBus : Prop :=
  ∀ s : State,
    exec .wa s = .next { s with a := s.wbus } ∧
    exec .wb s = .next { s with b := s.wbus } ∧
    exec .wl s = .next { s with l := s.wbus } ∧
    exec .wq s = .next { s with q := s.wbus } ∧
    exec .wz s = .next { s with z := s.wbus } ∧
    exec .ws s = .next { s with sReg := s.wbus.setWidth 12 }

/-- R186, R191, R305: `WG` shifts the bus at the three first edit addresses, at the fourth runs the supplied function or faults
with nothing changed when none is supplied, and copies the bus at every other address. The addresses and shifts are decision D16
(log 7); `EDIT_23` is OPEN (log 8), a function of the host's own stays free (log 39). -/
def Obligations.WgCopiesOrEdits : Prop :=
  ∀ s : State, s.cfg.params = specParams →
    (s.sReg = 0o20#12 → ∃ v : Word, exec .wg s = .next { s with g := v } ∧
      bit v 16 = bit s.wbus 1 ∧ bit v 15 = bit s.wbus 1 ∧ bit v 14 = bit s.wbus 16 ∧
      ∀ i, 1 ≤ i → i ≤ 13 → bit v i = bit s.wbus (i + 1)) ∧
    (s.sReg = 0o21#12 → ∃ v : Word, exec .wg s = .next { s with g := v } ∧
      bit v 16 = bit s.wbus 16 ∧ bit v 15 = bit s.wbus 16 ∧ bit v 14 = bit s.wbus 16 ∧
      ∀ i, 1 ≤ i → i ≤ 13 → bit v i = bit s.wbus (i + 1)) ∧
    (s.sReg = 0o22#12 → ∃ v : Word, exec .wg s = .next { s with g := v } ∧
      bit v 16 = bit s.wbus 14 ∧ bit v 15 = bit s.wbus 14 ∧ bit v 1 = bit s.wbus 16 ∧
      ∀ i, 2 ≤ i → i ≤ 14 → bit v i = bit s.wbus (i - 1)) ∧
    (s.sReg ≠ 0o20#12 → s.sReg ≠ 0o21#12 → s.sReg ≠ 0o22#12 → s.sReg ≠ 0o23#12 →
      exec .wg s = .next { s with g := s.wbus }) ∧
    (s.sReg = 0o23#12 → s.cfg.edit23 = none → exec .wg s = .fault (.edit23Unspecified s.wbus s)) ∧
    (s.sReg = 0o23#12 → s.cfg.edit23 = some .src → ∃ v : Word, exec .wg s = .next { s with g := v } ∧
      bit v 16 = bit s.wbus 14 ∧ bit v 15 = bit s.wbus 14 ∧ bit v 1 = false ∧
      ∀ i, 2 ≤ i → i ≤ 14 → bit v i = bit s.wbus (i - 1)) ∧
    (s.sReg = 0o23#12 → s.cfg.edit23 = some .gk → ∃ v : Word, exec .wg s = .next { s with g := v } ∧
      (∀ i, 1 ≤ i → i ≤ 7 → bit v i = bit s.wbus (i + 7)) ∧ ∀ i, 8 ≤ i → i ≤ 16 → bit v i = false) ∧
    (∀ n, s.sReg = 0o23#12 → s.cfg.edit23 = some (.host n) → exec .wg s = .next { s with g := hostEdit23 n s.wbus })

/-- R188: `WSC` by the value of `S`. The bank fields' places and the nothing from 7 up are decisions D11, D12, D44 (logs 3, 26). -/
def Obligations.WscWritesTheCentralRegister : Prop :=
  ∀ s : State,
    let w := s.wbus
    (s.sReg = 0 → exec .wsc s = .next { s with a := w }) ∧
    (s.sReg = 1 → exec .wsc s = .next { s with l := w }) ∧
    (s.sReg = 2 → exec .wsc s = .next { s with q := w }) ∧
    (s.sReg = 3 → ∃ e : Word, exec .wsc s = .next { s with eb := e } ∧
      (s.cfg.params = specParams → e.toNat < 8 ∧ ∀ i, 1 ≤ i → i ≤ 3 → bit e i = bit w (i + 8))) ∧
    (s.sReg = 4 → ∃ f : Word, exec .wsc s = .next { s with fb := f } ∧
      (s.cfg.params = specParams → f.toNat < 32 ∧ bit f 5 = bit w 16 ∧ ∀ i, 1 ≤ i → i ≤ 4 → bit f i = bit w (i + 10))) ∧
    (s.sReg = 5 → exec .wsc s = .next { s with z := w }) ∧
    (s.sReg = 6 → ∃ e f : Word, exec .wsc s = .next { s with fb := f, eb := e } ∧
      (s.cfg.params = specParams →
        e.toNat < 8 ∧ (∀ i, 1 ≤ i → i ≤ 3 → bit e i = bit w i) ∧
        f.toNat < 32 ∧ bit f 5 = bit w 16 ∧ ∀ i, 1 ≤ i → i ≤ 4 → bit f i = bit w (i + 10))) ∧
    (7 ≤ s.sReg.toNat → exec .wsc s = .next s)

/-- R189, R94: `WCH` by the low six bits of `S` (decision D13, log 27): channels 1 and 2 are `L` and `Q`; a stored channel reads
back the bus and every other channel reads as before. -/
def Obligations.WchWritesTheChannel : Prop :=
  ∀ s : State,
    let c := s.sReg.toNat % 64
    (c = 1 → exec .wch s = .next { s with l := s.wbus }) ∧
    (c = 2 → exec .wch s = .next { s with q := s.wbus }) ∧
    (c ≠ 1 → c ≠ 2 → memWf s.chan = true → ∃ m : Memory, exec .wch s = .next { s with chan := m } ∧
      memWf m = true ∧ memRead m c = s.wbus ∧ ∀ k, k ≠ c → memRead m k = memRead s.chan k)

/-- R190: `WALS` splits the bus across `A` and `L`. The polarity of `G[1]` is decision D17 (log 9). -/
def Obligations.WalsSplitsTheBus : Prop :=
  ∀ s : State, s.cfg.params = specParams → ∃ av lv : Word,
    exec .wals s = .next { s with a := av, l := lv } ∧
    (∀ i, 1 ≤ i → i ≤ 14 → bit av i = bit s.wbus (i + 2)) ∧
    (bit s.g 1 = false → bit av 15 = bit s.g 16 ∧ bit av 16 = bit s.g 16) ∧
    (bit s.g 1 = true → bit av 15 = bit s.wbus 16 ∧ bit av 16 = bit s.wbus 16) ∧
    bit lv 14 = bit s.wbus 2 ∧ bit lv 13 = bit s.wbus 1 ∧
    bit lv 16 = bit s.l 16 ∧ bit lv 15 = bit s.l 15 ∧ ∀ i, 1 ≤ i → i ≤ 12 → bit lv i = bit s.l i

/-! ### The adder set-up pulses -/

/-- R200, R201, R203 to R208: `WY` and `WY12` clear `X` and the carry and load `Y`; `A2X` overwrites `X`, the forcing pulses OR
their pattern into it, `CI` sets the carry. The patterns are configuration (decision D19, log 11). -/
def Obligations.AdderSetupPulses : Prop :=
  (∀ s : State,
    exec .wy s = .next { s with x := 0, y := s.wbus, ci := false } ∧
    exec .wy12 s = .next { s with x := 0, y := BitVec.ofNat 16 (s.wbus.toNat % 4096), ci := false } ∧
    exec .a2x s = .next { s with x := s.a } ∧
    exec .monex s = .next { s with x := s.x ||| s.cfg.params.monexBits } ∧
    exec .ponex s = .next { s with x := s.x ||| s.cfg.params.ponexBits } ∧
    exec .ptwox s = .next { s with x := s.x ||| s.cfg.params.ptwoxBits } ∧
    exec .b15x s = .next { s with x := s.x ||| s.cfg.params.b15xBits } ∧
    exec .ci s = .next { s with ci := true }) ∧
  specParams.monexBits = 0xFFFE#16 ∧ specParams.ponexBits = 0x0001#16 ∧
  specParams.ptwoxBits = 0x0002#16 ∧ specParams.b15xBits = 0x4000#16

/-- R202: `WYD` doubles the bus into `Y`; bit 1 takes the sign unless one of the three conditions blocks it. The clearing and
the stage test are decision D18 (log 10). -/
def Obligations.WydDoublesTheBus : Prop :=
  ∀ s : State, s.cfg.params = specParams → ∃ v : Word,
    exec .wyd s = .next { s with x := 0, y := v, ci := false } ∧
    bit v 16 = bit s.wbus 16 ∧ (∀ i, 2 ≤ i → i ≤ 15 → bit v i = bit s.wbus (i - 1)) ∧
    ((s.noEAC = true ∨ s.dvStage ≠ 0 ∨ (s.pifl = true ∧ bit s.l 15 = true)) → bit v 1 = false) ∧
    ((s.noEAC = false ∧ s.dvStage = 0 ∧ (s.pifl = false ∨ bit s.l 15 = false)) → bit v 1 = bit s.wbus 16)

/-! ### The branch-test pulses -/

/-- R216 to R220, R222: the branch tests. The sign bit, the assignments, the default of `TPZG_SET_ONLY` and the code of `TOV` are
decisions D20, D21 and D22 (logs 12, 13). -/
def Obligations.BranchTests : Prop :=
  (∀ s : State,
    exec .tsgn s = .next { s with br1 := bit s.wbus 16 } ∧
    exec .tsgn2 s = .next { s with br2 := bit s.wbus 16 } ∧
    exec .tmz s = .next { s with br2 := decide (s.wbus.toNat = 65535) } ∧
    exec .tl15 s = .next { s with br1 := bit s.l 15 } ∧
    (s.cfg.params.tpzgSetOnly = false → exec .tpzg s = .next { s with br2 := decide (s.g.toNat = 0) }) ∧
    (s.cfg.params.tpzgSetOnly = true → exec .tpzg s = .next { s with br2 := s.br2 || decide (s.g.toNat = 0) })) ∧
  specParams.tpzgSetOnly = false ∧
  (∀ s : State, s.cfg.params = specParams → ∃ c1 c2 : Bool,
    exec .tov s = .next { s with br1 := c1, br2 := c2 } ∧
    (bit s.wbus 16 = false → bit s.wbus 15 = true → c1 = false ∧ c2 = true) ∧
    (bit s.wbus 16 = true → bit s.wbus 15 = false → c1 = true ∧ c2 = false) ∧
    (bit s.wbus 16 = bit s.wbus 15 → c1 = false ∧ c2 = false))

/-- R223: `TSGN` and `TMZ` on one bus value give the packed branch register 3 for minus zero, 2 for any other negative word, 0
for a word without sign. -/
def Obligations.SignAndMinusZeroTogether : Prop :=
  ∀ s : State, s.cfg.params.brPacking = .numeric → ∃ t : State,
    runPulses (pulseIds [.tsgn, .tmz]) s = .next t ∧ t = { s with br1 := t.br1, br2 := t.br2 } ∧
    packedBranch s.cfg.params t.br1 t.br2 =
      (if s.wbus = 0xFFFF#16 then 3 else if 0x8000 ≤ s.wbus.toNat then 2 else 0)

/-! ### Stage and flow -/

/-- R221, R230, R231, R232: the requests of a stage and `NISQ`. `TRSM` doing nothing elsewhere is decision D23 (log 14). -/
def Obligations.StageRequestsAndNisq : Prop :=
  ∀ s : State,
    exec .st1 s = .next { s with stNext := s.stNext ||| 1 } ∧
    exec .st2 s = .next { s with stNext := s.stNext ||| 2 } ∧
    (s.sReg.toNat = 15 → exec .trsm s = .next { s with stNext := s.stNext ||| 2 }) ∧
    (s.sReg.toNat ≠ 15 → exec .trsm s = .next s) ∧
    exec .nisq s = .next { s with nextInstruction := true, inhibitInterrupts := false }

/-- R233, R104: `RAD` on a sentinel has that sentinel's side effect, puts `Z` on the bus and requests stage 2; on any other word
it is `RG`. The three rows of the sentinels have those same effects. The values are decision D24 (log 6). -/
def Obligations.RadActsOnSentinels : Prop :=
  (∀ s : State, s.cfg.params = specParams →
    (s.g = 0x0003#16 → exec .rad s = .next { s with
      inhibitInterrupts := false, wbus := s.wbus ||| s.z, stNext := s.stNext ||| 2 }) ∧
    (s.g = 0x0004#16 → exec .rad s = .next { s with
      inhibitInterrupts := true, wbus := s.wbus ||| s.z, stNext := s.stNext ||| 2 }) ∧
    (s.g = 0x0006#16 → exec .rad s = .next { s with
      extendNext := true, wbus := s.wbus ||| s.z, stNext := s.stNext ||| 2 }) ∧
    (s.g ≠ 0x0003#16 → s.g ≠ 0x0004#16 → s.g ≠ 0x0006#16 → exec .rad s = .next { s with wbus := s.wbus ||| s.g })) ∧
  (∀ s : State,
    exec .radRelint s = .next { s with
      inhibitInterrupts := false, wbus := s.wbus ||| s.z, stNext := s.stNext ||| 2 } ∧
    exec .radInhint s = .next { s with
      inhibitInterrupts := true, wbus := s.wbus ||| s.z, stNext := s.stNext ||| 2 } ∧
    exec .radExtend s = .next { s with extendNext := true, wbus := s.wbus ||| s.z, stNext := s.stNext ||| 2 })

/-! ### The compound and supplementary pulses -/

/-- R243, R244: the fixed transfers between `G` and `L`, bit by bit for the ranges of decision D26 (log 16); both complete for any
ranges. -/
def Obligations.TransfersBetweenGAndL : Prop :=
  ∀ s : State,
    (∃ v : Word, exec .g2ls s = .next { s with l := v } ∧
      (s.cfg.params = specParams →
        (∀ i, 1 ≤ i → i ≤ 12 → bit v i = bit s.g (i + 3)) ∧ bit v 16 = bit s.g 16 ∧ bit v 15 = bit s.g 1 ∧
        bit v 14 = bit s.l 14 ∧ bit v 13 = bit s.l 13)) ∧
    (∃ v : Word, exec .l2gd s = .next { s with g := v } ∧
      (s.cfg.params = specParams →
        (∀ i, 2 ≤ i → i ≤ 15 → bit v i = bit s.l (i - 1)) ∧ bit v 16 = bit s.l 16 ∧ bit v 1 = s.mcro))

/-- R242: `ZAP` is `RU`, `G2LS`, `WALS`; it always completes and writes the bus, `L` and `A` as the three rules say, bit by bit.
Ranges and polarity are decisions D26 and D17 (logs 16, 9). -/
def Obligations.ZapIsItsThreeParts : Prop :=
  ∀ s : State, s.cfg.params = specParams → ∃ av lv : Word,
    let u := s.wbus ||| adder s.x s.y s.ci s.noEAC
    exec .zap s = .next { s with wbus := u, a := av, l := lv } ∧
    exec .zap s = andThen (exec .ru s) (fun s1 => andThen (exec .g2ls s1) (exec .wals)) ∧
    (∀ i, 1 ≤ i → i ≤ 14 → bit av i = bit u (i + 2)) ∧
    (bit s.g 1 = false → bit av 15 = bit s.g 16 ∧ bit av 16 = bit s.g 16) ∧
    (bit s.g 1 = true → bit av 15 = bit u 16 ∧ bit av 16 = bit u 16) ∧
    (∀ i, 1 ≤ i → i ≤ 12 → bit lv i = bit s.g (i + 3)) ∧ bit lv 13 = bit u 1 ∧ bit lv 14 = bit u 2 ∧
    bit lv 15 = bit s.g 1 ∧ bit lv 16 = bit s.g 16

/-- R241, R303: `ZIP`, for any selector and table: where the row is valid, its read, adder load, carry and `MCRO`, then `A2X` and
`L2GD` (its ranges those of decision D26, log 16); where it is marked invalid, the fault with `L` and the selector, nothing
changed. -/
def Obligations.ZipPerformsItsAction : Prop :=
  (∀ s : State, zipRow s.cfg.zipTable (zipSelectOf s.cfg.zipSelect s.l) = none →
    exec .zip s = .fault (.zipInvalid s.l (zipSelectOf s.cfg.zipSelect s.l) s)) ∧
  ∀ (s : State) (act : ZipAction), zipRow s.cfg.zipTable (zipSelectOf s.cfg.zipSelect s.l) = some act →
    let bus := match act.read with
      | .none => s.wbus
      | .rb => s.wbus ||| s.b
      | .rc => s.wbus ||| ~~~s.b
    ∃ gv : Word,
      exec .zip s = .next { s with
        wbus := bus
        x := s.a
        y := match act.load with
          | .none => s.y
          | .wy => bus
          | .wyd => doubledWord bus (wydBlocked s)
        ci := act.ci || (decide (act.load = .none) && s.ci)
        mcro := act.mcro || s.mcro
        g := gv } ∧
      (s.cfg.params = specParams →
        bit gv 16 = bit s.l 16 ∧ (∀ i, 2 ≤ i → i ≤ 15 → bit gv i = bit s.l (i - 1)) ∧ bit gv 1 = (act.mcro || s.mcro))

/-- R241: the multiply step of the candidate `ZIP_GK` adds 0, `B`, 2`B` or the complement of `B` with a carry, by `L[15]`, `L[2]`,
`L[1]`, and never faults. The candidate is decision D25 (log 15), named by the hypothesis. -/
def Obligations.ZipMultiplyStep : Prop :=
  ∀ s : State, s.cfg.params = specParams → s.cfg.zipSelect = .gk → s.cfg.zipTable = zipTableGK →
    s.wbus = 0 → s.mcro = false → s.noEAC = false → s.dvStage = 0 → s.pifl = false →
    let k := (bit s.l 15).toNat * 4 + (bit s.l 2).toNat * 2 + (bit s.l 1).toNat
    ∃ t : State, exec .zip s = .next t ∧
      t = { s with wbus := t.wbus, x := s.a, y := t.y, ci := t.ci, mcro := t.mcro, g := t.g } ∧
      ((k = 0 ∨ k = 7) → t.y = 0) ∧
      ((k = 1 ∨ k = 4) → t.y = s.b) ∧
      ((k = 2 ∨ k = 5) → bit t.y 16 = bit s.b 16 ∧ bit t.y 1 = bit s.b 16 ∧
        ∀ i, 2 ≤ i → i ≤ 15 → bit t.y i = bit s.b (i - 1)) ∧
      ((k = 3 ∨ k = 6) → t.y = ~~~s.b) ∧
      ((k = 3 ∨ k = 6) → t.ci = true) ∧ ((k ≠ 3 ∧ k ≠ 6) → t.ci = false) ∧
      ((k = 3 ∨ k = 6 ∨ k = 7) → t.mcro = true) ∧ ((k ≠ 3 ∧ k ≠ 6 ∧ k ≠ 7) → t.mcro = false) ∧
      bit t.g 1 = t.mcro ∧ bit t.g 16 = bit s.l 16 ∧ ∀ i, 2 ≤ i → i ≤ 15 → bit t.g i = bit s.l (i - 1)

/-- R251 to R255: the supplementary pulses (decision D31, log 28), the divide substage by its full table. -/
def Obligations.SupplementaryPulses : Prop :=
  ∀ s : State,
    exec .neacon s = .next { s with noEAC := true } ∧
    exec .neacof s = .next { s with noEAC := false } ∧
    exec .pifl s = .next { s with pifl := true } ∧
    exec .stage s = .next { s with dvSequence := true } ∧
    ∃ d : BitVec 3, exec .dvst s = .next { s with dvStage := d } ∧
      [1, 3, 5, 7, 0, 2, 4, 6][s.dvStage.toNat]? = some d.toNat

/-- R281, R272, R273, R307: the default skip appends its entries and, outside stage `N(2)`, emits its diagnostic. The stage is
decision D27 (log 17). -/
def Obligations.DefaultSkipIsQueued : Prop :=
  (∀ (s : State) (k : StageKey) (e : Bool) (o : Opcode),
    (k = .normal 2#2 → exec (.defaultSkip k e o) s = .next { s with queue := s.queue ++ s.cfg.defaultSkip }) ∧
    (k ≠ .normal 2#2 → exec (.defaultSkip k e o) s = .next { s with
      queue := s.queue ++ s.cfg.defaultSkip
      diags := s.diags ++ [{ b := s.b, sq := o, stage := k, extend := e, z := s.z }] })) ∧
  specConfig.defaultSkip =
    [ { n := 1, pulses := [3#6, 21#6, 25#6, 32#6] }, { n := 2, pulses := [7#6, 22#6, 42#6] },
      { n := 6, pulses := [11#6, 20#6] }, { n := 8, pulses := [43#6, 17#6, 21#6] } ]

/-- R300: of all the rows only `WG` and `ZIP` can fault, each with its own fault, carrying the state it found; no row is ever
refused. -/
def Obligations.OnlyWgAndZipFault : Prop :=
  ∀ (i : Instr) (s : State),
    (∀ f, exec i s = .fault f →
      (i = .wg ∧ f = .edit23Unspecified s.wbus s ∧ s.cfg.edit23 = none ∧ s.sReg = s.cfg.params.editFourth) ∨
      (i = .zip ∧ ∃ k, f = .zipInvalid s.l k s)) ∧
    ∀ r, exec i s ≠ .refused r

/-! ### The primitives -/

/-- R144: the adder, by natural numbers, and its corner cases; reading it writes no flag and raises no error. -/
def Obligations.AdderIsEndAroundCarry : Prop :=
  (∀ (x y : Word) (c inh : Bool),
    (adder x y c inh).toNat =
      ((x.toNat + y.toNat) % 65536 + (if c = true ∨ (65536 ≤ x.toNat + y.toNat ∧ inh = false) then 1 else 0)) % 65536) ∧
  (∀ s : State, exec .ru s = .next { s with wbus := s.wbus ||| adder s.x s.y s.ci s.noEAC }) ∧
  adder 0xFFFF#16 0x0001#16 true false = 0x0001#16 ∧ adder 0xFFFF#16 0x0000#16 true false = 0x0000#16 ∧
  adder 0xFFFF#16 0xFFFF#16 false false = 0xFFFF#16 ∧ adder 0xFFFF#16 0x0001#16 false false = 0x0001#16 ∧
  adder 0xFFFF#16 0x0001#16 false true = 0x0000#16 ∧ (∀ x : Word, adder x (~~~x) false false = 0xFFFF#16)

/-- R146: the facts of the adder a program may rely on. -/
def Obligations.AdderFacts : Prop :=
  ∀ (x y : Word) (c inh : Bool),
    adder x y c inh = adder y x c inh ∧
    adder x 0 false inh = x ∧
    adder x (~~~x) false inh = 0xFFFF#16 ∧ adder x (~~~x) true false = 0 ∧
    (adder x y c true).toNat = (x.toNat + y.toNat + c.toNat) % 65536 ∧
    adder x 0 true inh = x + 1 ∧
    (adder x y false false = 0 ↔ x = 0 ∧ y = 0)

/-- R142: `double_sign_expand` duplicates bit 15 into bit 16; it is the operation inside `RUS`. -/
def Obligations.DoubleSignExpand : Prop :=
  (∀ v : Word, bit (doubleSignExpand v) 16 = bit v 15 ∧ ∀ i, 1 ≤ i → i ≤ 15 → bit (doubleSignExpand v) i = bit v i) ∧
  (∀ s : State, exec .rus s = .next { s with wbus := s.wbus ||| doubleSignExpand (adder s.x s.y s.ci s.noEAC) }) ∧
  doubleSignExpand 0x4000#16 = 0xC000#16 ∧ doubleSignExpand 0x8000#16 = 0x0000#16 ∧
  doubleSignExpand 0x3FFF#16 = 0x3FFF#16 ∧ doubleSignExpand 0xBFFF#16 = 0x3FFF#16

/-- R143: `double_sign_compress` copies bit 16 into bit 15 and zeroes bit 16 on request; without the mask it is the identity
exactly on the words whose two top bits are equal. -/
def Obligations.DoubleSignCompress : Prop :=
  ∀ (v : Word) (mask : Bool),
    bit (doubleSignCompress v mask) 15 = bit v 16 ∧
    bit (doubleSignCompress v mask) 16 = (if mask = true then false else bit v 16) ∧
    (∀ i, 1 ≤ i → i ≤ 14 → bit (doubleSignCompress v mask) i = bit v i) ∧
    (doubleSignCompress v false = v ↔ bit v 15 = bit v 16)

/-- R141: `copy_bits`, bit by bit, in the three modes, on ranges that meet its requirement. Under `clearNone` the field is ORed,
decision D35 (log 34). -/
def Obligations.CopyBitsBitByBit : Prop :=
  ∀ (source dest : Word) (slo shi dlo dhi : Nat), copyBitsOk slo shi dlo dhi = true →
    ∀ (mode : ClearMode) (i : Nat), 1 ≤ i → i ≤ 16 →
      (dlo ≤ i → i ≤ dhi → bit (copyBits source dest slo shi dlo dhi mode) i =
        (bit source (i - dlo + slo) || (decide (mode = .clearNone) && bit dest i))) ∧
      ((i < dlo ∨ dhi < i) → bit (copyBits source dest slo shi dlo dhi mode) i =
        (decide (mode ≠ .clearAll) && bit dest i))

/-! ### Memory -/

/-- R74 to R78: with the spec's map (decisions D7, D8, log 2) every address translates below its array's length; the erasable
window reaches word `k` of bank `b` at `0o400 * b + k`, which for banks 0, 1 and 2 is the unswitched cell of that address; the fixed
window reaches word `k` of bank `b` at `0o2000 * b + k`, which for banks 2 and 3 is the unswitched word. -/
def Obligations.TranslationInRange : Prop :=
  (∀ (a : Addr) (eb fb : Word),
    (resolve specParams a eb fb).2 < spaceWords specParams (resolve specParams a eb fb).1 ∧
    ((resolve specParams a eb fb).1 = .erasable ↔ a.toNat ≤ 0o1777)) ∧
  (∀ (k b : Nat) (fb : Word), k ≤ 0o377 → b ≤ 7 →
    resolve specParams (BitVec.ofNat 12 (0o1400 + k)) (BitVec.ofNat 16 b) fb = (.erasable, 0o400 * b + k) ∧
    (b ≤ 2 → ∀ eb : Word, resolve specParams (BitVec.ofNat 12 (0o400 * b + k)) eb fb = (.erasable, 0o400 * b + k))) ∧
  (∀ (k b : Nat) (eb : Word), k ≤ 0o1777 → b ≤ 31 →
    resolve specParams (BitVec.ofNat 12 (0o2000 + k)) eb (BitVec.ofNat 16 b) = (.fixed, 0o2000 * b + k) ∧
    (2 ≤ b → b ≤ 3 → ∀ fb : Word, resolve specParams (BitVec.ofNat 12 (0o2000 * b + k)) eb fb = (.fixed, 0o2000 * b + k)))

/-- R79, R80, R81, R268: at T4, on the state `u` that the dispatch left (so a `WS` in the list of T4 counts): nothing for the
reserved low addresses; an erasable cell is read, compressed, zeroed and remembered; a fixed cell is read and compressed; with
nothing to dispatch, `u` is the state itself. The map is decisions D7 and D8 (log 2), the compression D9 (log 24). -/
def Obligations.TheT4Read : Prop :=
  ∀ s u : State, s.t = 4 → s.cfg.params = specParams → dispatch (tickStart (applyHostWrites s)) = .next u →
    let base : State := { u with wbus := 0, t := 5 }
    (u.sReg.toNat ≤ 0o7 → step s = .next base) ∧
    (∀ i, 0o10 ≤ u.sReg.toNat → u.sReg.toNat ≤ 0o1777 →
      i = (if u.sReg.toNat ≤ 0o1377 then u.sReg.toNat else u.eb.toNat % 8 * 0o400 + u.sReg.toNat % 0o400) →
      step s = .next { base with
        g := doubleSignCompress (memRead s.eMem i) false
        eMem := memWrite s.eMem i 0
        wba := some i }) ∧
    (∀ i, 0o2000 ≤ u.sReg.toNat →
      i = (if u.sReg.toNat ≤ 0o3777 then u.fb.toNat % 32 * 0o2000 + u.sReg.toNat % 0o2000 else u.sReg.toNat) →
      step s = .next { base with g := doubleSignCompress (memRead s.fMem i) false }) ∧
    ((∀ e ∈ s.queue, e.n ≠ 4) → s.cfg.hostChannelWrites = false → u = { s with mcro := false })

/-- R78, R304, R308: whatever the configured map, a T4 read whose index is not below its array's length faults with the address,
the space and the index, what the dispatch did being done and nothing of the read. -/
def Obligations.TheT4ReadOutOfRange : Prop :=
  ∀ (s u : State) (sp : Space) (i : Nat), s.t = 4 → dispatch (tickStart (applyHostWrites s)) = .next u →
    s.cfg.params.reservedLowLimit ≤ u.sReg.toNat → resolve s.cfg.params u.sReg u.eb u.fb = (sp, i) →
    spaceWords s.cfg.params sp ≤ i →
    step s = .fault (.addressRange u.sReg sp i u)

/-- R82, R269: at T9, on the state `u` that the dispatch left (so a `WG` in the list of T9 reaches memory): the remembered cell
takes all 16 bits of `G`, every other cell is kept, and the latch is emptied; with nothing remembered nothing is written; with
nothing to dispatch, `u` is the state itself. The uncompressed store is decision D38 (log 24). -/
def Obligations.TheT9WriteBack : Prop :=
  ∀ s u : State, s.t = 9 → memWf s.eMem = true → dispatch (tickStart (applyHostWrites s)) = .next u →
    (s.wba = none → step s = .next { u with wbus := 0, t := 10 }) ∧
    (∀ i, s.wba = some i → ∃ m : Memory,
      step s = .next { u with wbus := 0, t := 10, wba := none, eMem := m } ∧
      memRead m i = u.g ∧ ∀ j, j ≠ i → memRead m j = memRead s.eMem j) ∧
    ((∀ e ∈ s.queue, e.n ≠ 9) → s.cfg.hostChannelWrites = false → u = { s with mcro := false })

/-- R85: a cell read at T4 and written back at T9 with `G` unchanged between holds the compressed word, which is the old word
exactly when its two top bits agree; no other cell has changed. This is the resolution of 90_conflicts C3 with decisions D9 and D38
(log 24), a choice of the spec and the model where the source says otherwise. -/
def Obligations.ReadAndWriteBackIdempotence : Prop :=
  ∀ (s s1 t : State) (i : Nat), Inv s → s.t = 4 → step s = .next s1 → s1.wba = some i → runTicks 5 s1 = .next t → t.g = s1.g →
    let v := memRead s.eMem i
    memRead t.eMem i = doubleSignCompress v false ∧
    (memRead t.eMem i = v ↔ bit v 15 = bit v 16) ∧
    ∀ j, j ≠ i → memRead t.eMem j = memRead s.eMem j

/-- R84, R55: the latch is set by a T4 read only, kept until T9, emptied there, and the remembered cell reads 0x0000 until
then. -/
def Obligations.TheWriteBackWindow : Prop :=
  ∀ s t : State, Inv s → step s = .next t →
    (s.t = 4 → s.wba = none) ∧ (s.t = 9 → t.wba = none) ∧
    (s.t ≠ 4 → s.t ≠ 9 → t.wba = s.wba) ∧
    ∀ i, t.wba = some i → memRead t.eMem i = 0 ∧ 5 ≤ t.t ∧ t.t ≤ 9

/-! ### The tick -/

/-- A step runs the decoded instruction, by format (R260, R267, R233, R271, R281): a pulse id alone in the list of the present
time pulse; a sentinel word under `RAD`; the decode key that no definition covers, at T12. -/
def Obligations.AStepRunsTheDecodedInstruction : Prop :=
  (∀ (s : State) (id : PulseId) (i : Instr),
    s.queue.filter (fun e => decide (e.n = s.t)) = [{ n := s.t, pulses := [id] }] → decodePulse id = .ok i →
    step s = andThen (exec i (dropCollected (tickStart (applyHostWrites s)))) afterDispatch) ∧
  (∀ (s : State) (i : Instr), decodeWord s.cfg.params s.g = .ok i → exec .rad s = exec i s) ∧
  (∀ (s : State) (k : Key), s.t = 12 → (∀ e ∈ s.queue, e.n ≠ 12) → s.cfg.hostChannelWrites = false →
    k = decodeKeyOf (commitStage s) → (∀ d ∈ s.cfg.isaDefs, covers d k = false) →
    step s = andThen (exec (.defaultSkip k.stage k.extend k.opcode) { commitStage s with mcro := false })
      (fun u => .next { u with dvSequence := false, wbus := 0, t := 1 }))

/-- R261, R263: the two steps before the dispatch that need no decision, and that every tick begins with them. -/
def Obligations.LatchesClearedBeforeTheDispatch : Prop :=
  ∀ s : State,
    step s = andThen (dispatch (tickStart (applyHostWrites s))) afterDispatch ∧
    (tickStart s).mcro = false ∧
    (tickStart s).pifl = (if s.t = 2 ∨ s.t = 5 ∨ s.t = 8 ∨ s.t = 11 then false else s.pifl)

/-- R262: the fetch latches are cleared at T1 unless the stage holds an instruction, which by decision D6 (log 23) every stage but
0 does; the steps before the dispatch change nothing else. -/
def Obligations.FetchLatchesClearedAtT1 : Prop :=
  ∀ s : State, s.cfg.params = specParams →
    let clear := decide (s.t = 1 ∧ s.st = 0)
    tickStart s = { s with
      mcro := false
      nextInstruction := s.nextInstruction && !clear
      extendNext := s.extendNext && !clear
      pifl := (tickStart s).pifl }

/-- R264 to R266: the dispatch by the number of entries collected and the packed branch register. The fault for an index out of
range is decision D3, the packing D2 (log 22). -/
def Obligations.DispatchSelectsByTheBranchRegister : Prop :=
  ∀ s : State, s.cfg.params.brPacking = .numeric →
    let found := s.queue.filter fun e => decide (e.n = s.t)
    let rest : State := { s with queue := s.queue.filter fun e => decide (e.n ≠ s.t) }
    let br := 2 * s.br1.toNat + s.br2.toNat
    (found.length = 0 → dispatch s = .next rest) ∧
    (∀ e, found = [e] → dispatch s = runPulses e.pulses rest) ∧
    (∀ e, 2 ≤ found.length → found.length ≤ 4 → found[br]? = some e → dispatch s = runPulses e.pulses rest) ∧
    (2 ≤ found.length → found.length ≤ 4 → found.length ≤ br →
      dispatch s = .fault (.branchIndexOutOfRange s.t found.length br rest)) ∧
    (5 ≤ found.length → dispatch s = .fault (.branchCollision s.t found.length rest))

/-- R267: a list runs in declared order, each pulse on the state the one before left; an empty list does nothing; a fault of a
pulse ends the list and the tick at that pulse. -/
def Obligations.ListsRunInDeclaredOrder : Prop :=
  (∀ s : State, runPulses [] s = .next s) ∧
  (∀ (id : PulseId) (i : Instr) (s : State), decodePulse id = .ok i → runPulses [id] s = exec i s) ∧
  (∀ (xs ys : List PulseId) (s : State), runPulses (xs ++ ys) s = andThen (runPulses xs s) (runPulses ys)) ∧
  (∀ (xs ys : List PulseId) (id : PulseId) (i : Instr) (s u : State) (f : Fault),
    runPulses xs s = .next u → decodePulse id = .ok i → exec i u = .fault f →
    runPulses (xs ++ id :: ys) s = .fault f) ∧
  (∀ (s : State) (f : Fault), dispatch (tickStart (applyHostWrites s)) = .fault f → step s = .fault f)

/-- R270 to R274: at T12, on the state `u` that the dispatch left (so an `ST1` in the list of T12 is committed): the stage and, if
requested, opcode and extend flag committed, the entries of the key appended, the diagnostic for a default entry outside `N(2)`, the
divide latch cleared; with nothing to dispatch, `u` is the state itself. The opcode's place and the skip stage are decisions D4 and
D27 (logs 4, 17). -/
def Obligations.TheCycleBoundary : Prop :=
  ∀ s u : State, s.t = 12 → dispatch (tickStart (applyHostWrites s)) = .next u →
    let sq := if u.nextInstruction = true then opcodeOf s.cfg.params u.b else s.sq
    let ex := if u.nextInstruction = true then u.extendNext else s.extend
    let k : Key := { stage := if u.dvSequence = true then .divide u.dvStage else .normal u.stNext, extend := ex, opcode := sq }
    step s = .next { u with
      st := u.stNext
      stNext := 0
      sq := sq
      extend := ex
      queue := u.queue ++ tableEntries s.cfg k
      diags :=
        if (∀ d ∈ s.cfg.isaDefs, covers d k = false) ∧ k.stage ≠ .normal 2#2 then
          u.diags ++ [{ b := u.b, sq := sq, stage := k.stage, extend := ex, z := u.z }]
        else u.diags
      dvSequence := false
      wbus := 0
      t := 1 } ∧
    ((∀ e ∈ s.queue, e.n ≠ 12) → s.cfg.hostChannelWrites = false → u = { s with mcro := false })

/-- R275, R276: after every tick that goes on the bus is 0 and the counter has advanced, 12 wrapping to 1. -/
def Obligations.BusClearedAndCounterAdvanced : Prop :=
  ∀ s t : State, step s = .next t → t.wbus = 0 ∧ t.t = s.t % 12 + 1

/-- R280(a), R53: after 12k ticks the counter is back. -/
def Obligations.TwelveTicksMakeACycle : Prop :=
  ∀ (k : Nat) (s t : State), timeInRange s → runTicks (12 * k) s = .next t → t.t = s.t

/-- R280(c), R272: when a T12 tick returns, the queue holds exactly the entries of the subinstruction just selected. -/
def Obligations.QueueAfterT12 : Prop :=
  ∀ s t : State, Inv s → s.t = 12 → step s = .next t →
    ∃ u : State, dispatch (tickStart (applyHostWrites s)) = .next u ∧
      t.queue = tableEntries t.cfg {
        stage := if u.dvSequence = true then .divide u.dvStage else .normal t.st
        extend := t.extend
        opcode := t.sq }

/-- R280(d), R280(e), R58: which ticks change what, whatever lists run: the decode-key registers at T12 only, `E` at T4 and T9
only, `F` and the configuration never, the queue by removal and by the T12 append only. -/
def Obligations.WhichTicksChangeWhat : Prop :=
  ∀ s t : State, step s = .next t →
    (s.t ≠ 12 → t.st = s.st ∧ t.sq = s.sq ∧ t.extend = s.extend ∧
      t.queue = s.queue.filter fun e => decide (e.n ≠ s.t)) ∧
    (s.t ≠ 4 → s.t ≠ 9 → t.eMem = s.eMem) ∧
    t.fMem = s.fMem ∧ t.cfg = s.cfg ∧ t.sTemp = s.sTemp

/-- R62: the two columns of writers. The pulses first: what each register's listed pulses are, the scheduler's registers being
written by no pulse; then the scheduler's steps before and after the dispatch, the cell that T4 zeroes being the one that `S`, `EB`
and `FB` resolve to; and the dispatch, which removes the entries of its time pulse from the queue and otherwise runs one of their
lists or none. The writes from 0 to 6 of `WSC`, the channel number and the writers of `NoEAC`, `PIFL`, `DVStage` and `DVSequence`
are decisions D12, D13 and D31 (logs 26, 27, 28). -/
def Obligations.EveryWriterIsListed : Prop :=
  (∀ (i : Instr) (s t : State), (pulseId i).isSome = true → exec i s = .next t →
    (t.a ≠ s.a → i = .wa ∨ i = .wals ∨ i = .zap ∨ (i = .wsc ∧ s.sReg = 0)) ∧
    (t.b ≠ s.b → i = .wb) ∧
    (t.g ≠ s.g → i = .wg ∨ i = .l2gd ∨ i = .zip) ∧
    (t.l ≠ s.l → i = .wl ∨ i = .wals ∨ i = .g2ls ∨ i = .zap ∨ (i = .wsc ∧ s.sReg = 1) ∨
      (i = .wch ∧ channelOf s.sReg = 1)) ∧
    (t.q ≠ s.q → i = .wq ∨ (i = .wsc ∧ s.sReg = 2) ∨ (i = .wch ∧ channelOf s.sReg = 2)) ∧
    (t.z ≠ s.z → i = .wz ∨ (i = .wsc ∧ s.sReg = 5)) ∧
    (t.eb ≠ s.eb → i = .wsc ∧ (s.sReg = 3 ∨ s.sReg = 6)) ∧
    (t.fb ≠ s.fb → i = .wsc ∧ (s.sReg = 4 ∨ s.sReg = 6)) ∧
    (t.sReg ≠ s.sReg → i = .ws) ∧
    (t.stNext ≠ s.stNext → i = .st1 ∨ i = .st2 ∨ i = .trsm ∨ i = .rad) ∧
    (t.br1 ≠ s.br1 → i = .tsgn ∨ i = .tov ∨ i = .tl15) ∧
    (t.br2 ≠ s.br2 → i = .tsgn2 ∨ i = .tmz ∨ i = .tov ∨ i = .tpzg) ∧
    (t.x ≠ s.x → i ∈ [.wy, .wy12, .wyd, .a2x, .monex, .ponex, .ptwox, .b15x, .zip]) ∧
    (t.y ≠ s.y → i ∈ [.wy, .wy12, .wyd, .zip]) ∧
    (t.ci ≠ s.ci → i ∈ [.ci, .wy, .wy12, .wyd, .zip]) ∧
    (t.wbus ≠ s.wbus → i ∈
      [.ra, .rb, .rq, .rz, .rc, .rg, .rl, .rsc, .rch, .ru, .rus, .r1c, .rb1, .rstrt, .rad, .zap, .zip]) ∧
    (t.nextInstruction ≠ s.nextInstruction → i = .nisq) ∧
    (t.inhibitInterrupts ≠ s.inhibitInterrupts → i = .nisq ∨ i = .rad) ∧
    (t.noEAC ≠ s.noEAC → i = .neacon ∨ i = .neacof) ∧
    (t.mcro ≠ s.mcro → i = .zip) ∧
    (t.extendNext ≠ s.extendNext → i = .rad) ∧
    (t.dvSequence ≠ s.dvSequence → i = .stage) ∧
    (t.dvStage ≠ s.dvStage → i = .dvst) ∧
    (t.pifl ≠ s.pifl → i = .pifl) ∧
    (t.chan ≠ s.chan → i = .wch ∧ channelOf s.sReg ≠ 1 ∧ channelOf s.sReg ≠ 2) ∧
    (t.sTemp = s.sTemp ∧ t.sq = s.sq ∧ t.st = s.st ∧ t.extend = s.extend ∧ t.t = s.t ∧ t.queue = s.queue ∧
      t.wba = s.wba ∧ t.eMem = s.eMem ∧ t.fMem = s.fMem)) ∧
  (∀ s : State,
    tickStart s = { s with
      mcro := false
      nextInstruction := (tickStart s).nextInstruction
      extendNext := (tickStart s).extendNext
      pifl := (tickStart s).pifl } ∧
    (((tickStart s).nextInstruction ≠ s.nextInstruction ∨ (tickStart s).extendNext ≠ s.extendNext) →
      s.t = 1 ∧ isHeld s.cfg.params s.st = false) ∧
    ((tickStart s).pifl ≠ s.pifl → s.t = 2 ∨ s.t = 5 ∨ s.t = 8 ∨ s.t = 11) ∧
    ((tickStart s).nextInstruction = true → s.nextInstruction = true) ∧
    ((tickStart s).extendNext = true → s.extendNext = true) ∧ ((tickStart s).pifl = true → s.pifl = true)) ∧
  (∀ s t : State, afterDispatch s = .next t →
    t = { s with
      g := t.g, stNext := t.stNext, st := t.st, sq := t.sq, extend := t.extend, dvSequence := t.dvSequence,
      queue := t.queue, wba := t.wba, eMem := t.eMem, diags := t.diags, wbus := 0, t := s.t % 12 + 1 } ∧
    (t.g ≠ s.g → s.t = 4) ∧ (t.eMem ≠ s.eMem → s.t = 4 ∨ s.t = 9) ∧ (t.wba ≠ s.wba → s.t = 4 ∨ s.t = 9) ∧
    ((t.st ≠ s.st ∨ t.stNext ≠ s.stNext ∨ t.dvSequence ≠ s.dvSequence ∨ t.queue ≠ s.queue) → s.t = 12) ∧
    ((t.sq ≠ s.sq ∨ t.extend ≠ s.extend) → s.t = 12 ∧ s.nextInstruction = true) ∧
    (s.t = 12 → t.stNext = 0 ∧ t.dvSequence = false) ∧ (s.t = 9 → t.wba = none) ∧
    (s.t = 4 → (t.eMem ≠ s.eMem ∨ t.wba ≠ s.wba) → ∃ i, resolve s.cfg.params s.sReg s.eb s.fb = (.erasable, i) ∧
      t.eMem = memWrite s.eMem i 0 ∧ t.wba = some i) ∧
    (s.t = 9 → t.eMem ≠ s.eMem → ∃ i, s.wba = some i ∧ t.eMem = memWrite s.eMem i s.g)) ∧
  (∀ s : State,
    let found := s.queue.filter fun e => decide (e.n = s.t)
    let rest : State := { s with queue := s.queue.filter fun e => decide (e.n ≠ s.t) }
    (found = [] ∧ dispatch s = .next s) ∨
    (∃ e ∈ found, dispatch s = runPulses e.pulses rest) ∨
    (2 ≤ found.length ∧ ∃ f : Fault, dispatch s = .fault f))

/-! ### The decode table -/

/-- R109: the mask and the value of a pattern, and which opcodes match. -/
def Obligations.PatternMaskAndValue : Prop :=
  maskValue ['0', '1', '1', 'x', 'x', 'x'] = some (0b111000#6, 0b011000#6) ∧
  ∀ (pattern : List Char) (m v : Opcode), maskValue pattern = some (m, v) →
    pattern.length = 6 ∧
    (∀ (i : Nat) (c : Char), 1 ≤ i → i ≤ 6 → pattern[6 - i]? = some c →
      (bit m i = decide (c = '0' ∨ c = '1')) ∧ (bit v i = decide (c = '1')) ∧ (c = '0' ∨ c = '1' ∨ c = 'x')) ∧
    ∀ o : Opcode, (o &&& m = v ↔ ∀ i, 1 ≤ i → i ≤ 6 → bit m i = true → bit o i = bit v i)

/-- R111, R112: the last declared definition that covers a key wins; a definition touches no key of another stage or extend value,
nor one its pattern does not match; every key has an entry, the default skip when no definition covers it. -/
def Obligations.TheLastDefinitionWins : Prop :=
  (∀ (defs : List Def) (k : Key), buildTable defs k = (defs.filter fun d => covers d k).getLast?) ∧
  (∀ (pre mid : List Def) (a b : Def) (k : Key), covers a k = true → covers b k = true →
    buildTable (pre ++ a :: mid ++ [b]) k = some b) ∧
  (∀ (defs : List Def) (d : Def) (k : Key),
    (d.stage ≠ k.stage ∨ d.extend ≠ k.extend ∨ k.opcode &&& d.mask ≠ d.value) →
    buildTable (defs ++ [d]) k = buildTable defs k) ∧
  ∀ (c : Config) (k : Key),
    ((∀ d ∈ c.isaDefs, covers d k = false) → tableEntries c k = c.defaultSkip) ∧
    ((∃ d ∈ c.isaDefs, covers d k = true) → ∃ d ∈ c.isaDefs, covers d k = true ∧ tableEntries c k = d.entries)

/-! ### Whole runs -/

/-- Every step keeps the invariant: counter in range, bus clear, bank registers within their widths, queue well formed and still to
come, memories and channels canonical and inside their arrays, the write-back latch in its window. -/
def Obligations.InvKept : Prop := ∀ s t : State, Inv s → step s = .next t → Inv t

/-- R115, R116, R123: from a state in form no step is refused and none raises `BranchCollision`. -/
def Obligations.InFormNeverRefused : Prop := ∀ s : State, Inv s → safeOutcome (step s) = true

/-- R300: with every OPEN parameter supplied, the only fault a step can raise from a state in form is the dispatch of two
alternatives with the branch register at 2 or 3. The map is decision D7, the fault D3. -/
def Obligations.OnlyTheBranchIndexFault : Prop :=
  ∀ (s : State) (f : Fault), Inv s → fullySpecified s.cfg → step s = .fault f →
    s.br1 = true ∧ ∃ (wreck : State) (br : Nat), f = .branchIndexOutOfRange s.t 2 br wreck ∧ 2 ≤ br ∧ br ≤ 3

/-- R282: one whole cycle of the default skip from an address outside the reserved and fourth-edit ones: the word at `Z` becomes
the next instruction, `Z` advances, a sentinel has its side effect, and memory keeps every word but for the sign copy of R81. The
entries are decision D27 (log 17), the map D7. -/
def Obligations.OneDefaultSkipCycle : Prop :=
  ∀ (s : State) (sp : Space) (i : Nat) (w : Word), Inv s → s.t = 1 → s.cfg.params = specParams →
    s.cfg.hostChannelWrites = false → s.queue = defaultSkipEntries → s.stNext = 0 → s.dvSequence = false →
    8 ≤ s.z.toNat % 4096 → s.z.toNat % 4096 ≠ 0o23 →
    resolve specParams (s.z.setWidth 12) s.eb s.fb = (sp, i) → w = doubleSignCompress (readSpace s sp i) false →
    let z1 : Word := BitVec.ofNat 16 (s.z.toNat % 4096 + 1)
    let sentinel := w = 0x0003#16 ∨ w = 0x0004#16 ∨ w = 0x0006#16
    let b1 := if sentinel then z1 else w
    let st1 : BitVec 2 := if sentinel then 2 else 0
    let ex := decide (w = 0x0006#16) || (decide (s.st ≠ 0) && s.extendNext)
    ∃ t : State, runTicks 12 s = .next t ∧
      t = { s with
        g := w
        b := b1
        sReg := b1.setWidth 12
        z := z1
        x := 0
        y := BitVec.ofNat 16 (s.z.toNat % 4096)
        ci := true
        sq := opcodeOf specParams b1
        st := st1
        extend := ex
        extendNext := ex
        nextInstruction := true
        inhibitInterrupts := decide (w = 0x0004#16)
        mcro := false
        pifl := false
        queue := tableEntries s.cfg { stage := .normal st1, extend := ex, opcode := opcodeOf specParams b1 }
        eMem := t.eMem
        diags := t.diags } ∧
      (∀ j, memRead t.eMem j = if sp = .erasable ∧ j = i then w else memRead s.eMem j) ∧
      (bit (readSpace s sp i) 15 = bit (readSpace s sp i) 16 → t.eMem = s.eMem)

/-- R32, R41, R307: nothing in the machine reads `S_temp`, `InhibitInterrupts` or the diagnostics: from two states that differ in
them only, a step goes to states that differ in them only, is refused alike, or raises the same fault with the same info, the
states it carries differing in them only. -/
def Obligations.InertStateIsNotRead : Prop :=
  ∀ (s : State) (tmp : Addr) (inh : Bool) (ds : List Diag),
    let s' : State := { s with sTemp := tmp, inhibitInterrupts := inh, diags := ds }
    (∀ t, step s = .next t → ∃ u, step s' = .next u ∧
      { u with sTemp := t.sTemp, inhibitInterrupts := t.inhibitInterrupts, diags := t.diags } = t) ∧
    (∀ r, step s = .refused r → step s' = .refused r) ∧
    (∀ f, step s = .fault f → ∃ (tmp' : Addr) (inh' : Bool) (ds' : List Diag),
      step s' = .fault (mapWreck (fun w => { w with sTemp := tmp', inhibitInterrupts := inh', diags := ds' }) f))

/-! ### The host -/

/-- R5, R6, D40 in the form the model gives it (log 30): before a tick, where `HOST_CHANNEL_WRITES` allows it, one batch of the
host's channel writes is stored in order, so that the last write to a channel counts, channels 1 and 2 being skipped; nothing else
changes, and the rest of the tick is the tick of the state so reached. Where it is not allowed, or no batch is left, nothing is
written. -/
def Obligations.HostWritesComeFirst : Prop :=
  ∀ s : State,
    (s.cfg.hostChannelWrites = false → applyHostWrites s = s) ∧
    (s.hostInputs = [] → applyHostWrites s = s) ∧
    (∀ (batch : List (Channel × Word)) (rest : List (List (Channel × Word))),
      s.cfg.hostChannelWrites = true → s.hostInputs = batch :: rest → memWf s.chan = true → ∃ m : Memory,
        applyHostWrites s = { s with hostInputs := rest, chan := m } ∧ memWf m = true ∧
        (∀ c : Nat, c = 1 ∨ c = 2 → memRead m c = memRead s.chan c) ∧
        (∀ c : Nat, c ≠ 1 → c ≠ 2 → memRead m c =
          (((batch.filter fun w => decide (w.1.toNat = c)).getLast?).map Prod.snd).getD (memRead s.chan c))) ∧
    step s = andThen (dispatch (tickStart (applyHostWrites s))) afterDispatch
end

