-- ==== Sys2Proof/Laws/Bits.lean ====
section
/-! SUPPORT. Bit laws: the words that the rules write out bit by bit, read one bit at a time by the spec's numbering. -/

namespace Sys2Proof.Machine

/-- A low bit of two vectors side by side. -/
theorem bit_append_lo {a b : Nat} (x : BitVec a) (y : BitVec b) {i : Nat} (h1 : 1 ≤ i) (h : i ≤ b) :
    bit (x ++ y) i = bit y i := by
  unfold bit
  rw [BitVec.getLsbD_append, if_pos (by omega)]

/-- A high bit of two vectors side by side. -/
theorem bit_append_hi {a b : Nat} (x : BitVec a) (y : BitVec b) {i : Nat} (h : b < i) :
    bit (x ++ y) i = bit x (i - b) := by
  unfold bit
  rw [BitVec.getLsbD_append, if_neg (by omega)]
  congr 1
  omega

/-- A bit of a slice is the bit of the word at its place. -/
theorem bit_slice {n : Nat} (v : BitVec n) (hi lo i j : Nat) (h1 : 1 ≤ i) (h2 : i ≤ hi - lo + 1) (h3 : 1 ≤ lo)
    (hj : j = i + lo - 1) : bit (slice v hi lo) i = bit v j := by
  subst hj
  unfold bit slice
  rw [BitVec.getLsbD_extractLsb']
  simp only [show i - 1 < hi - lo + 1 by omega, decide_true, Bool.true_and]
  congr 1
  omega

/-- A slice as a number. -/
theorem slice_toNat {n : Nat} (v : BitVec n) (hi lo : Nat) :
    (slice v hi lo).toNat = v.toNat / 2 ^ (lo - 1) % 2 ^ (hi - lo + 1) := by
  unfold slice
  rw [BitVec.extractLsb'_toNat, Nat.shiftRight_eq_div_pow]

theorem bit_zero {n : Nat} (i : Nat) : bit (0#n) i = false := by simp [bit]

theorem bit_or {n : Nat} (v w : BitVec n) (i : Nat) : bit (v ||| w) i = (bit v i || bit w i) := by simp [bit]

theorem bit_and {n : Nat} (v w : BitVec n) (i : Nat) : bit (v &&& w) i = (bit v i && bit w i) := by simp [bit]

theorem bit_ofBool (b : Bool) : bit (BitVec.ofBool b) 1 = b := by cases b <;> rfl

/-- Two vectors with the same bits are equal. -/
theorem eq_of_bit {n : Nat} {v w : BitVec n} (h : ∀ i, 1 ≤ i → i ≤ n → bit v i = bit w i) : v = w := by
  apply BitVec.eq_of_getLsbD_eq
  intro i hi
  have := h (i + 1) (by omega) (by omega)
  simpa [bit] using this

theorem bit_mirroredSign (l : Word) :
    (∀ i, 1 ≤ i → i ≤ 14 → bit (mirroredSign l) i = bit l i) ∧
    bit (mirroredSign l) 15 = bit l 16 ∧
    bit (mirroredSign l) 16 = bit l 16 := by
  unfold mirroredSign
  refine ⟨?_, ?_, ?_⟩
  · intro i h1 h2
    rw [bit_append_lo _ _ (by omega) (by omega), bit_slice _ _ _ _ i (by omega) (by omega) (by omega) (by omega)]
  · rw [bit_append_hi _ _ (by omega), bit_append_lo _ _ (by omega) (by omega), bit_slice _ _ _ _ 16 (by omega) (by omega) (by omega) (by omega)]
  · rw [bit_append_hi _ _ (by omega), bit_append_hi _ _ (by omega), bit_slice _ _ _ _ 16 (by omega) (by omega) (by omega) (by omega)]

/-- `copy_bits` in the mode `ClearChanged`, one bit at a time: the field inside the destination range, the destination elsewhere
(40_primitives R141). -/
theorem bit_copyChanged (source dest : Word) (slo shi dlo dhi i : Nat) (hok : copyBitsOk slo shi dlo dhi = true) (h1 : 1 ≤ i) :
    bit (copyBits source dest slo shi dlo dhi .clearChanged) i =
      if dlo ≤ i ∧ i ≤ dhi then bit source (i - dlo + slo) else bit dest i := by
  simp only [copyBitsOk, decide_eq_true_eq] at hok
  by_cases hi : i ≤ 16
  · simp only [copyBits, bit, slice, BitVec.getLsbD_or, BitVec.getLsbD_and, BitVec.getLsbD_not, BitVec.getLsbD_shiftLeft,
      BitVec.getLsbD_setWidth, BitVec.getLsbD_allOnes, BitVec.getLsbD_extractLsb']
    by_cases hlo : dlo ≤ i
    · by_cases hhi : i ≤ dhi
      · rw [if_pos ⟨hlo, hhi⟩, show i - dlo + slo - 1 = slo - 1 + (i - 1 - (dlo - 1)) by omega]
        simp [show i - 1 < 16 by omega, show ¬ i - 1 < dlo - 1 by omega, show i - 1 - (dlo - 1) < dhi - dlo + 1 by omega,
          show i - 1 - (dlo - 1) < shi - slo + 1 by omega, show i - 1 - (dlo - 1) < 16 by omega]
      · rw [if_neg (by omega)]
        simp [show ¬ i - 1 - (dlo - 1) < dhi - dlo + 1 by omega, show ¬ i - 1 - (dlo - 1) < shi - slo + 1 by omega,
          show i - 1 < 16 by omega]
    · rw [if_neg (by omega)]
      simp [show i - 1 < dlo - 1 by omega, show i - 1 < 16 by omega]
  · rw [if_neg (by omega)]
    simp [bit, show 16 ≤ i - 1 by omega]

@[simp] theorem copyRanges_nil (source dest : Word) : copyRanges [] source dest = dest := rfl

@[simp] theorem copyRanges_cons (r : BitRange) (rs : List BitRange) (source dest : Word) :
    copyRanges (r :: rs) source dest =
      copyRanges rs source (copyBits source dest r.srcLo r.srcHi r.dstLo r.dstHi .clearChanged) := rfl

theorem bit_lowBits (n : Nat) (v : Word) {i : Nat} (h1 : 1 ≤ i) : bit (lowBits n v) i = (decide (i ≤ n) && bit v i) := by
  unfold bit lowBits
  rw [BitVec.getLsbD_ofNat, Nat.testBit_mod_two_pow]
  by_cases h : i - 1 < 16
  · simp [h, BitVec.getLsbD, show (i - 1 < n) = (i ≤ n) by simp; omega]
  · simp [h, show v.getLsbD (i - 1) = false from BitVec.getLsbD_of_ge _ _ (by omega)]

/-- Cutting to a width twice is cutting once. -/
theorem lowBits_lowBits (n : Nat) (v : Word) : lowBits n (lowBits n v) = lowBits n v :=
  eq_of_bit fun i h1 _ => by rw [bit_lowBits n _ h1, bit_lowBits n _ h1]; cases decide (i ≤ n) <;> rfl

theorem lowBits_lt (n : Nat) (v : Word) : (lowBits n v).toNat < 2 ^ n := by
  unfold lowBits
  rw [BitVec.toNat_ofNat]
  exact lt_of_le_of_lt (Nat.mod_le _ _) (Nat.mod_lt _ (Nat.two_pow_pos n))

/-- A field that fits its width is not cut. -/
theorem lowBits_of_lt {n : Nat} {v : Word} (h : v.toNat < 2 ^ n) : lowBits n v = v := by
  unfold lowBits
  rw [Nat.mod_eq_of_lt h]
  simp

/-- `EB` as the map of the spec reads it: a number below 8. -/
theorem lowBits_spec_eb (eb : Word) : (lowBits specParams.ebWidth eb).toNat < 8 := lowBits_lt 3 eb

/-- `FB` as the map of the spec reads it: a number below 32. -/
theorem lowBits_spec_fb (fb : Word) : (lowBits specParams.fbWidth fb).toNat < 32 := lowBits_lt 5 fb

theorem bit_ebImage (eb : Word) {i : Nat} (h1 : 1 ≤ i) :
    bit (ebImage specParams eb) i = (decide (9 ≤ i ∧ i ≤ 11) && bit eb (i - 8)) := by
  show bit (copyRanges [⟨1, 3, 9, 11⟩] (lowBits 3 eb) 0x0000#16) i = _
  simp only [copyRanges_cons, copyRanges_nil]
  rw [bit_copyChanged _ _ _ _ _ _ _ (by decide) h1, bit_zero]
  split
  · rename_i h
    rw [bit_lowBits _ _ (by omega), show i - 9 + 1 = i - 8 by omega]
    simp [h, show i - 8 ≤ 3 by omega]
  · rename_i h; simp [h]

theorem bit_fbImage (fb : Word) {i : Nat} (h1 : 1 ≤ i) (h2 : i ≤ 16) :
    bit (fbImage specParams fb) i =
      if 15 ≤ i then bit fb 5 else decide (11 ≤ i) && bit fb (i - 10) := by
  show bit (copyRanges [⟨1, 4, 11, 14⟩, ⟨5, 5, 15, 15⟩, ⟨5, 5, 16, 16⟩] (lowBits 5 fb) 0x0000#16) i = _
  simp only [copyRanges_cons, copyRanges_nil]
  rw [bit_copyChanged _ _ _ _ _ _ _ (by decide) h1, bit_copyChanged _ _ _ _ _ _ _ (by decide) h1,
    bit_copyChanged _ _ _ _ _ _ _ (by decide) h1, bit_zero]
  by_cases h16 : i = 16
  · subst h16; simp [bit_lowBits]
  by_cases h15 : i = 15
  · subst h15; simp [bit_lowBits]
  rw [if_neg (by omega), if_neg (by omega)]
  by_cases h : 11 ≤ i
  · rw [if_pos ⟨h, by omega⟩, if_neg (by omega), bit_lowBits _ _ (by omega), show i - 11 + 1 = i - 10 by omega]
    simp [h, show i - 10 ≤ 5 by omega]
  · simp [h, show ¬ 15 ≤ i by omega]

theorem bit_bbImage (eb fb : Word) {i : Nat} (h1 : 1 ≤ i) (h2 : i ≤ 16) :
    bit (bbImage specParams eb fb) i =
      if 15 ≤ i then bit fb 5 else if 11 ≤ i then bit fb (i - 10) else decide (i ≤ 3) && bit eb i := by
  have he : bit (copyRanges specParams.bbLayout (lowBits specParams.ebWidth eb) 0x0000#16) i = (decide (i ≤ 3) && bit eb i) := by
    show bit (copyRanges [⟨1, 3, 1, 3⟩] (lowBits 3 eb) 0x0000#16) i = _
    simp only [copyRanges_cons, copyRanges_nil]
    rw [bit_copyChanged _ _ _ _ _ _ _ (by decide) h1, bit_zero]
    split
    · rename_i h
      rw [show i - 1 + 1 = i by omega, bit_lowBits _ _ h1]
    · rename_i h; simp [show ¬ i ≤ 3 by omega]
  unfold bbImage
  rw [bit_or, he, bit_fbImage fb h1 h2]
  by_cases h15 : 15 ≤ i
  · simp [h15, show ¬ i ≤ 3 by omega]
  · by_cases h11 : 11 ≤ i
    · simp [h15, h11, show ¬ i ≤ 3 by omega]
    · simp [h15, h11]

theorem bit_ebOfImage (w : Word) {i : Nat} (h1 : 1 ≤ i) :
    bit (ebOfImage specParams w) i = (decide (i ≤ 3) && bit w (i + 8)) := by
  show bit (lowBits 3 (copyRanges [⟨9, 11, 1, 3⟩] w 0x0000#16)) i = _
  simp only [copyRanges_cons, copyRanges_nil]
  rw [bit_lowBits _ _ h1, bit_copyChanged _ _ _ _ _ _ _ (by decide) h1]
  by_cases h : i ≤ 3
  · rw [if_pos ⟨h1, h⟩, show i - 1 + 9 = i + 8 by omega]
  · simp [h]

theorem bit_fbOfImage (w : Word) {i : Nat} (h1 : 1 ≤ i) :
    bit (fbOfImage specParams w) i = if i = 5 then bit w 16 else decide (i ≤ 4) && bit w (i + 10) := by
  show bit (lowBits 5 (copyRanges [⟨11, 14, 1, 4⟩, ⟨15, 15, 5, 5⟩, ⟨16, 16, 5, 5⟩] w 0x0000#16)) i = _
  simp only [copyRanges_cons, copyRanges_nil]
  rw [bit_lowBits _ _ h1, bit_copyChanged _ _ _ _ _ _ _ (by decide) h1, bit_copyChanged _ _ _ _ _ _ _ (by decide) h1,
    bit_copyChanged _ _ _ _ _ _ _ (by decide) h1, bit_zero]
  by_cases h5 : i = 5
  · subst h5; simp
  · rw [if_neg (by omega), if_neg (by omega), if_neg h5]
    by_cases h4 : i ≤ 4
    · rw [if_pos ⟨h1, h4⟩, show i - 1 + 11 = i + 10 by omega]
      simp [h4, show i ≤ 5 by omega]
    · simp [h4, show ¬ i ≤ 5 by omega]

theorem bit_ebOfBothImage (w : Word) {i : Nat} (h1 : 1 ≤ i) :
    bit (ebOfBothImage specParams w) i = (decide (i ≤ 3) && bit w i) := by
  show bit (lowBits 3 (copyRanges [⟨1, 3, 1, 3⟩] w 0x0000#16)) i = _
  simp only [copyRanges_cons, copyRanges_nil]
  rw [bit_lowBits _ _ h1, bit_copyChanged _ _ _ _ _ _ _ (by decide) h1]
  by_cases h : i ≤ 3
  · rw [if_pos ⟨h1, h⟩, show i - 1 + 1 = i by omega]
  · simp [h]

theorem bit_opcodeOf (b : Word) {i : Nat} (h1 : 1 ≤ i) (h2 : i ≤ 6) :
    bit (opcodeOf specParams b) i = if i = 6 then bit b 16 else bit b (i + 9) := by
  have hw : bit (opcodeOf specParams b) i = bit (copyRanges [⟨10, 14, 1, 5⟩, ⟨16, 16, 6, 6⟩] b 0x0000#16) i := by
    show bit ((copyRanges [⟨10, 14, 1, 5⟩, ⟨16, 16, 6, 6⟩] b 0x0000#16).setWidth 6) i = _
    unfold bit
    rw [BitVec.getLsbD_setWidth]
    simp [show i - 1 < 6 by omega]
  rw [hw]
  simp only [copyRanges_cons, copyRanges_nil]
  rw [bit_copyChanged _ _ _ _ _ _ _ (by decide) h1, bit_copyChanged _ _ _ _ _ _ _ (by decide) h1]
  by_cases h6 : i = 6
  · subst h6; simp
  · rw [if_neg (by omega), if_pos (by omega), if_neg h6, show i - 1 + 10 = i + 9 by omega]

theorem bit_g2lsWord (g l : Word) {i : Nat} (h1 : 1 ≤ i) :
    bit (g2lsWord specParams g l) i =
      if i ≤ 12 then bit g (i + 3) else if i = 15 then bit g 1 else if i = 16 then bit g 16 else bit l i := by
  show bit (copyRanges [⟨4, 15, 1, 12⟩, ⟨16, 16, 16, 16⟩, ⟨1, 1, 15, 15⟩] g l) i = _
  simp only [copyRanges_cons, copyRanges_nil]
  rw [bit_copyChanged _ _ _ _ _ _ _ (by decide) h1, bit_copyChanged _ _ _ _ _ _ _ (by decide) h1,
    bit_copyChanged _ _ _ _ _ _ _ (by decide) h1]
  by_cases h12 : i ≤ 12
  · rw [if_neg (by omega), if_neg (by omega), if_pos ⟨h1, h12⟩, if_pos h12, show i - 1 + 4 = i + 3 by omega]
  · by_cases h15 : i = 15
    · subst h15; simp
    · by_cases h16 : i = 16
      · subst h16; simp
      · rw [if_neg (by omega), if_neg (by omega), if_neg (by omega), if_neg h12, if_neg h15, if_neg h16]

theorem bit_l2gdWord (l : Word) (mcro : Bool) (g : Word) {i : Nat} (h1 : 1 ≤ i) (h2 : i ≤ 16) :
    bit (l2gdWord specParams l mcro g) i = if i = 1 then mcro else if i = 16 then bit l 16 else bit l (i - 1) := by
  show bit (copyBits ((BitVec.ofBool mcro).setWidth 16) (copyRanges [⟨1, 14, 2, 15⟩, ⟨16, 16, 16, 16⟩] l g) 1 1 1 1
    .clearChanged) i = _
  simp only [copyRanges_cons, copyRanges_nil]
  rw [bit_copyChanged _ _ _ _ _ _ _ (by decide) h1, bit_copyChanged _ _ _ _ _ _ _ (by decide) h1,
    bit_copyChanged _ _ _ _ _ _ _ (by decide) h1]
  by_cases h1' : i = 1
  · subst h1'; cases mcro <;> simp [bit]
  · by_cases h16 : i = 16
    · subst h16; simp
    · rw [if_neg (by omega), if_neg (by omega), if_pos (by omega), if_neg h1', if_neg h16, show i - 2 + 1 = i - 1 by omega]

theorem bit_cycleRight (w : Word) :
    (∀ i, 1 ≤ i → i ≤ 13 → bit (cycleRight w) i = bit w (i + 1)) ∧
    bit (cycleRight w) 14 = bit w 16 ∧
    bit (cycleRight w) 15 = bit w 1 ∧
    bit (cycleRight w) 16 = bit w 1 := by
  unfold cycleRight
  refine ⟨?_, ?_, ?_, ?_⟩
  · intro i h1 h2
    rw [bit_append_lo _ _ (by omega) (by omega), bit_slice _ _ _ _ (i + 1) (by omega) (by omega) (by omega) (by omega)]
  · rw [bit_append_hi _ _ (by omega), bit_append_lo _ _ (by omega) (by omega), bit_slice _ _ _ _ 16 (by omega) (by omega) (by omega) (by omega)]
  · rw [bit_append_hi _ _ (by omega), bit_append_hi _ _ (by omega), bit_append_lo _ _ (by omega) (by omega), bit_slice _ _ _ _ 1 (by omega) (by omega) (by omega) (by omega)]
  · rw [bit_append_hi _ _ (by omega), bit_append_hi _ _ (by omega), bit_append_hi _ _ (by omega), bit_slice _ _ _ _ 1 (by omega) (by omega) (by omega) (by omega)]

theorem bit_shiftRight (w : Word) :
    (∀ i, 1 ≤ i → i ≤ 13 → bit (shiftRight w) i = bit w (i + 1)) ∧
    bit (shiftRight w) 14 = bit w 16 ∧
    bit (shiftRight w) 15 = bit w 16 ∧
    bit (shiftRight w) 16 = bit w 16 := by
  unfold shiftRight
  refine ⟨?_, ?_, ?_, ?_⟩
  · intro i h1 h2
    rw [bit_append_lo _ _ (by omega) (by omega), bit_slice _ _ _ _ (i + 1) (by omega) (by omega) (by omega) (by omega)]
  · rw [bit_append_hi _ _ (by omega), bit_append_lo _ _ (by omega) (by omega), bit_slice _ _ _ _ 16 (by omega) (by omega) (by omega) (by omega)]
  · rw [bit_append_hi _ _ (by omega), bit_append_hi _ _ (by omega), bit_append_lo _ _ (by omega) (by omega), bit_slice _ _ _ _ 16 (by omega) (by omega) (by omega) (by omega)]
  · rw [bit_append_hi _ _ (by omega), bit_append_hi _ _ (by omega), bit_append_hi _ _ (by omega), bit_slice _ _ _ _ 16 (by omega) (by omega) (by omega) (by omega)]

theorem bit_cycleLeft (w : Word) :
    bit (cycleLeft w) 1 = bit w 16 ∧
    (∀ i, 2 ≤ i → i ≤ 14 → bit (cycleLeft w) i = bit w (i - 1)) ∧
    bit (cycleLeft w) 15 = bit w 14 ∧
    bit (cycleLeft w) 16 = bit w 14 := by
  unfold cycleLeft
  refine ⟨?_, ?_, ?_, ?_⟩
  · rw [bit_append_lo _ _ (by omega) (by omega), bit_slice _ _ _ _ 16 (by omega) (by omega) (by omega) (by omega)]
  · intro i h1 h2
    rw [bit_append_hi _ _ (by omega), bit_append_lo _ _ (by omega) (by omega), bit_slice _ _ _ _ (i - 1) (by omega) (by omega) (by omega) (by omega)]
  · rw [bit_append_hi _ _ (by omega), bit_append_hi _ _ (by omega), bit_append_lo _ _ (by omega) (by omega), bit_slice _ _ _ _ 14 (by omega) (by omega) (by omega) (by omega)]
  · rw [bit_append_hi _ _ (by omega), bit_append_hi _ _ (by omega), bit_append_hi _ _ (by omega), bit_slice _ _ _ _ 14 (by omega) (by omega) (by omega) (by omega)]

theorem bit_applyEdit23_src (w : Word) :
    bit (applyEdit23 .src w) 1 = false ∧
    (∀ i, 2 ≤ i → i ≤ 14 → bit (applyEdit23 .src w) i = bit w (i - 1)) ∧
    bit (applyEdit23 .src w) 15 = bit w 14 ∧
    bit (applyEdit23 .src w) 16 = bit w 14 := by
  unfold applyEdit23
  dsimp only
  refine ⟨?_, ?_, ?_, ?_⟩
  · rw [bit_append_lo _ _ (by omega) (by omega), bit_zero]
  · intro i h1 h2
    rw [bit_append_hi _ _ (by omega), bit_append_lo _ _ (by omega) (by omega), bit_slice _ _ _ _ (i - 1) (by omega) (by omega) (by omega) (by omega)]
  · rw [bit_append_hi _ _ (by omega), bit_append_hi _ _ (by omega), bit_append_lo _ _ (by omega) (by omega), bit_slice _ _ _ _ 14 (by omega) (by omega) (by omega) (by omega)]
  · rw [bit_append_hi _ _ (by omega), bit_append_hi _ _ (by omega), bit_append_hi _ _ (by omega), bit_slice _ _ _ _ 14 (by omega) (by omega) (by omega) (by omega)]

theorem bit_applyEdit23_gk (w : Word) :
    (∀ i, 1 ≤ i → i ≤ 7 → bit (applyEdit23 .gk w) i = bit w (i + 7)) ∧
    (∀ i, 8 ≤ i → i ≤ 16 → bit (applyEdit23 .gk w) i = false) := by
  unfold applyEdit23
  dsimp only
  refine ⟨?_, ?_⟩
  · intro i h1 h2
    rw [bit_append_lo _ _ (by omega) (by omega), bit_slice _ _ _ _ (i + 7) (by omega) (by omega) (by omega) (by omega)]
  · intro i h1 h2
    rw [bit_append_hi _ _ (by omega), bit_zero]

theorem bit_walsL (l w : Word) :
    (∀ i, 1 ≤ i → i ≤ 12 → bit (walsL l w) i = bit l i) ∧
    (∀ i, 13 ≤ i → i ≤ 14 → bit (walsL l w) i = bit w (i - 12)) ∧
    (∀ i, 15 ≤ i → i ≤ 16 → bit (walsL l w) i = bit l i) := by
  unfold walsL
  refine ⟨?_, ?_, ?_⟩
  · intro i h1 h2
    rw [bit_append_lo _ _ (by omega) (by omega), bit_slice _ _ _ _ i (by omega) (by omega) (by omega) (by omega)]
  · intro i h1 h2
    rw [bit_append_hi _ _ (by omega), bit_append_lo _ _ (by omega) (by omega), bit_slice _ _ _ _ (i - 12) (by omega) (by omega) (by omega) (by omega)]
  · intro i h1 h2
    rw [bit_append_hi _ _ (by omega), bit_append_hi _ _ (by omega), bit_slice _ _ _ _ i (by omega) (by omega) (by omega) (by omega)]

theorem bit_walsA (p : Params) (g w : Word) :
    (∀ i, 1 ≤ i → i ≤ 14 → bit (walsA p g w) i = bit w (i + 2)) ∧
    bit (walsA p g w) 15 = (if bit g 1 = p.walsBusWhen then bit w 16 else bit g 16) ∧
    bit (walsA p g w) 16 = (if bit g 1 = p.walsBusWhen then bit w 16 else bit g 16) := by
  unfold walsA
  dsimp only
  refine ⟨?_, ?_, ?_⟩
  · intro i h1 h2
    rw [bit_append_lo _ _ (by omega) (by omega), bit_slice _ _ _ _ (i + 2) (by omega) (by omega) (by omega) (by omega)]
  · rw [bit_append_hi _ _ (by omega), bit_append_lo _ _ (by omega) (by omega)]
    split <;> rw [bit_slice _ _ _ _ 16 (by omega) (by omega) (by omega) (by omega)]
  · rw [bit_append_hi _ _ (by omega), bit_append_hi _ _ (by omega)]
    split <;> rw [bit_slice _ _ _ _ 16 (by omega) (by omega) (by omega) (by omega)]

theorem bit_doubledWord (w : Word) (blocked : Bool) :
    bit (doubledWord w blocked) 1 = (if blocked then false else bit w 16) ∧
    (∀ i, 2 ≤ i → i ≤ 15 → bit (doubledWord w blocked) i = bit w (i - 1)) ∧
    bit (doubledWord w blocked) 16 = bit w 16 := by
  unfold doubledWord
  refine ⟨?_, ?_, ?_⟩
  · rw [bit_append_lo _ _ (by omega) (by omega)]
    split
    · rw [bit_zero]
    · rw [bit_slice _ _ _ _ 16 (by omega) (by omega) (by omega) (by omega)]
  · intro i h1 h2
    rw [bit_append_hi _ _ (by omega), bit_append_lo _ _ (by omega) (by omega),
      bit_slice _ _ _ _ (i - 1) (by omega) (by omega) (by omega) (by omega)]
  · rw [bit_append_hi _ _ (by omega), bit_append_hi _ _ (by omega),
      bit_slice _ _ _ _ 16 (by omega) (by omega) (by omega) (by omega)]

end Sys2Proof.Machine
end

