-- ==== Sys2Proof/Laws/Memory.lean ====
section
/-! SUPPORT. The laws of a word memory: a read after a write, and that every operation keeps the canonical form and the bound. -/

namespace Sys2Proof.Machine

@[simp] theorem memRead_nil (i : Nat) : memRead [] i = unlistedWord := rfl

theorem memRead_cons (j : Nat) (v : Word) (m : Memory) (i : Nat) :
    memRead ((j, v) :: m) i = if i = j then v else memRead m i := rfl

/-- Above a bound that the index does not exceed, nothing is listed. -/
theorem memRead_of_memWfAbove {m : Memory} {lo i : Nat} (h : memWfAbove lo m = true) (hi : i ≤ lo) :
    memRead m i = unlistedWord := by
  induction m generalizing lo with
  | nil => rfl
  | cons c rest ih =>
    obtain ⟨j, v⟩ := c
    simp only [memWfAbove, Bool.and_eq_true, decide_eq_true_eq] at h
    rw [memRead_cons, if_neg (by omega)]
    exact ih h.2 (by omega)

theorem memWfAbove_mono {m : Memory} {lo lo' : Nat} (h : memWfAbove lo m = true) (hl : lo' ≤ lo) :
    memWfAbove lo' m = true := by
  cases m with
  | nil => rfl
  | cons c rest =>
    obtain ⟨j, v⟩ := c
    simp only [memWfAbove, Bool.and_eq_true, decide_eq_true_eq] at h ⊢
    exact ⟨⟨by omega, h.1.2⟩, h.2⟩

theorem memWf_of_memWfAbove {m : Memory} {lo : Nat} (h : memWfAbove lo m = true) : memWf m = true := by
  cases m with
  | nil => rfl
  | cons c rest =>
    obtain ⟨j, v⟩ := c
    simp only [memWfAbove, memWf, Bool.and_eq_true, decide_eq_true_eq] at h ⊢
    exact ⟨h.1.2, h.2⟩

theorem memRead_memCons (j : Nat) (v : Word) {m : Memory} (h : memWfAbove j m = true) (i : Nat) :
    memRead (memCons j v m) i = if i = j then v else memRead m i := by
  by_cases hv : v = unlistedWord
  · subst hv
    by_cases hi : i = j
    · subst hi; simp [memCons, memRead_of_memWfAbove h le_rfl]
    · simp [memCons, hi]
  · simp [memCons, hv, memRead_cons]

theorem memWfAbove_memCons {lo j : Nat} {v : Word} {m : Memory} (hj : lo < j) (h : memWfAbove j m = true) :
    memWfAbove lo (memCons j v m) = true := by
  by_cases hv : v = unlistedWord
  · simp only [memCons, hv, if_true]
    exact memWfAbove_mono h (by omega)
  · simp [memCons, hv, memWfAbove, hj, h]

theorem memWfAbove_memWrite {m : Memory} {lo i : Nat} (v : Word) (h : memWfAbove lo m = true) (hi : lo < i) :
    memWfAbove lo (memWrite m i v) = true := by
  induction m generalizing lo with
  | nil => exact memWfAbove_memCons hi rfl
  | cons c rest ih =>
    obtain ⟨j, w⟩ := c
    simp only [memWfAbove, Bool.and_eq_true, decide_eq_true_eq] at h
    rw [memWrite]
    split_ifs with h1 h2
    · exact memWfAbove_memCons hi (by simp [memWfAbove, h1, h.1.2, h.2])
    · subst h2; exact memWfAbove_memCons hi h.2
    · simp [memWfAbove, h.1.1, h.1.2, ih h.2 (by omega)]

/-- A write keeps the canonical form. -/
theorem memWf_memWrite {m : Memory} (i : Nat) (v : Word) (h : memWf m = true) : memWf (memWrite m i v) = true := by
  cases m with
  | nil =>
    by_cases hv : v = unlistedWord <;> simp [memWrite, memCons, memWf, memWfAbove, hv]
  | cons c rest =>
    obtain ⟨j, w⟩ := c
    simp only [memWf, Bool.and_eq_true, decide_eq_true_eq] at h
    rw [memWrite]
    split_ifs with h1 h2
    · by_cases hv : v = unlistedWord <;> simp [memCons, memWf, memWfAbove, hv, h.1, h.2, h1]
    · subst h2
      by_cases hv : v = unlistedWord
      · simp only [memCons, hv, if_true]; exact memWf_of_memWfAbove h.2
      · simp [memCons, memWf, hv, h.2]
    · simp [memWf, h.1, memWfAbove_memWrite v h.2 (by omega : j < i)]

theorem memRead_memWrite_above {m : Memory} {lo : Nat} (i k : Nat) (v : Word) (h : memWfAbove lo m = true) :
    memRead (memWrite m i v) k = if k = i then v else memRead m k := by
  induction m generalizing lo with
  | nil => rw [memWrite, memRead_memCons i v rfl]
  | cons c rest ih =>
    obtain ⟨j, w⟩ := c
    simp only [memWfAbove, Bool.and_eq_true, decide_eq_true_eq] at h
    rw [memWrite]
    by_cases h1 : i < j
    · rw [if_pos h1, memRead_memCons _ _ (by simp [memWfAbove, h1, h.1.2, h.2])]
    · by_cases h2 : i = j
      · subst h2
        rw [if_neg h1, if_pos rfl, memRead_memCons _ _ h.2]
        by_cases hk : k = i <;> simp [memRead_cons, hk]
      · rw [if_neg h1, if_neg h2, memRead_cons, memRead_cons, ih h.2]
        by_cases hk : k = i
        · subst hk; simp [h2]
        · simp [hk]

/-- A read after a write to a canonical memory: the value at the written index, what was there anywhere else. -/
theorem memRead_memWrite {m : Memory} (h : memWf m = true) (i k : Nat) (v : Word) :
    memRead (memWrite m i v) k = if k = i then v else memRead m k := by
  cases m with
  | nil => rw [memWrite, memRead_memCons i v rfl]
  | cons c rest =>
    obtain ⟨j, w⟩ := c
    simp only [memWf, Bool.and_eq_true, decide_eq_true_eq] at h
    rw [memWrite]
    by_cases h1 : i < j
    · rw [if_pos h1, memRead_memCons _ _ (by simp [memWfAbove, h1, h.1, h.2])]
    · by_cases h2 : i = j
      · subst h2
        rw [if_neg h1, if_pos rfl, memRead_memCons _ _ h.2]
        by_cases hk : k = i <;> simp [memRead_cons, hk]
      · rw [if_neg h1, if_neg h2, memRead_cons, memRead_cons, memRead_memWrite_above _ _ _ h.2]
        by_cases hk : k = i
        · subst hk; simp [h2]
        · simp [hk]

theorem memBounded_memCons {n i : Nat} {v : Word} {m : Memory} (hi : i < n) (h : memBounded n m = true) :
    memBounded n (memCons i v m) = true := by
  by_cases hv : v = unlistedWord
  · simpa [memCons, hv] using h
  · simp only [memCons, hv, if_false]
    simp only [memBounded, List.all_cons, Bool.and_eq_true, decide_eq_true_eq] at h ⊢
    exact ⟨hi, h⟩

/-- A write below the bound keeps the bound. -/
theorem memBounded_memWrite {n : Nat} {m : Memory} (i : Nat) (v : Word) (hi : i < n) (h : memBounded n m = true) :
    memBounded n (memWrite m i v) = true := by
  induction m with
  | nil => exact memBounded_memCons hi rfl
  | cons c rest ih =>
    obtain ⟨j, w⟩ := c
    have hr : j < n ∧ memBounded n rest = true := by
      simpa [memBounded, Bool.and_eq_true] using h
    rw [memWrite]
    split_ifs
    · exact memBounded_memCons hi h
    · exact memBounded_memCons hi hr.2
    · have := ih hr.2
      simp only [memBounded, List.all_cons, Bool.and_eq_true, decide_eq_true_eq] at this ⊢
      exact ⟨hr.1, this⟩

/-- A list of writes keeps the canonical form. -/
theorem memWf_memWriteAll {m : Memory} (cells : List (Nat × Word)) (h : memWf m = true) :
    memWf (memWriteAll m cells) = true := by
  induction cells generalizing m with
  | nil => exact h
  | cons c rest ih => exact ih (memWf_memWrite c.1 c.2 h)

theorem memWfAbove_memOfWords (ws : List Word) {lo i : Nat} (h : lo < i) :
    memWfAbove lo (memOfWords i ws) = true := by
  induction ws generalizing lo i with
  | nil => rfl
  | cons w rest ih => exact memWfAbove_memCons h (ih (Nat.lt_succ_self i))

/-- A loaded image is canonical. -/
theorem memWf_memOfWords (i : Nat) (ws : List Word) : memWf (memOfWords i ws) = true := by
  cases ws with
  | nil => rfl
  | cons w rest =>
    have h := memWfAbove_memOfWords rest (Nat.lt_succ_self i)
    by_cases hw : w = unlistedWord
    · simpa [memOfWords, memCons, hw] using memWf_of_memWfAbove h
    · simp [memOfWords, memCons, hw, memWf, h]

end Sys2Proof.Machine
end

