-- ==== Sys2Proof/Laws/State.lean ====
section
/-! SUPPORT. One lemma per field per named update of the state, each true by rfl. -/

namespace Sys2Proof.Machine

@[simp] theorem orBus_a (v : Word) (s : State) : (orBus v s).a = s.a := rfl
@[simp] theorem orBus_b (v : Word) (s : State) : (orBus v s).b = s.b := rfl
@[simp] theorem orBus_g (v : Word) (s : State) : (orBus v s).g = s.g := rfl
@[simp] theorem orBus_l (v : Word) (s : State) : (orBus v s).l = s.l := rfl
@[simp] theorem orBus_q (v : Word) (s : State) : (orBus v s).q = s.q := rfl
@[simp] theorem orBus_z (v : Word) (s : State) : (orBus v s).z = s.z := rfl
@[simp] theorem orBus_eb (v : Word) (s : State) : (orBus v s).eb = s.eb := rfl
@[simp] theorem orBus_fb (v : Word) (s : State) : (orBus v s).fb = s.fb := rfl
@[simp] theorem orBus_sReg (v : Word) (s : State) : (orBus v s).sReg = s.sReg := rfl
@[simp] theorem orBus_sTemp (v : Word) (s : State) : (orBus v s).sTemp = s.sTemp := rfl
@[simp] theorem orBus_sq (v : Word) (s : State) : (orBus v s).sq = s.sq := rfl
@[simp] theorem orBus_st (v : Word) (s : State) : (orBus v s).st = s.st := rfl
@[simp] theorem orBus_stNext (v : Word) (s : State) : (orBus v s).stNext = s.stNext := rfl
@[simp] theorem orBus_br1 (v : Word) (s : State) : (orBus v s).br1 = s.br1 := rfl
@[simp] theorem orBus_br2 (v : Word) (s : State) : (orBus v s).br2 = s.br2 := rfl
@[simp] theorem orBus_x (v : Word) (s : State) : (orBus v s).x = s.x := rfl
@[simp] theorem orBus_y (v : Word) (s : State) : (orBus v s).y = s.y := rfl
@[simp] theorem orBus_ci (v : Word) (s : State) : (orBus v s).ci = s.ci := rfl
@[simp] theorem orBus_wbus (v : Word) (s : State) : (orBus v s).wbus = s.wbus ||| v := rfl
@[simp] theorem orBus_nextInstruction (v : Word) (s : State) : (orBus v s).nextInstruction = s.nextInstruction := rfl
@[simp] theorem orBus_inhibitInterrupts (v : Word) (s : State) : (orBus v s).inhibitInterrupts = s.inhibitInterrupts := rfl
@[simp] theorem orBus_noEAC (v : Word) (s : State) : (orBus v s).noEAC = s.noEAC := rfl
@[simp] theorem orBus_mcro (v : Word) (s : State) : (orBus v s).mcro = s.mcro := rfl
@[simp] theorem orBus_extend (v : Word) (s : State) : (orBus v s).extend = s.extend := rfl
@[simp] theorem orBus_extendNext (v : Word) (s : State) : (orBus v s).extendNext = s.extendNext := rfl
@[simp] theorem orBus_dvSequence (v : Word) (s : State) : (orBus v s).dvSequence = s.dvSequence := rfl
@[simp] theorem orBus_dvStage (v : Word) (s : State) : (orBus v s).dvStage = s.dvStage := rfl
@[simp] theorem orBus_pifl (v : Word) (s : State) : (orBus v s).pifl = s.pifl := rfl
@[simp] theorem orBus_t (v : Word) (s : State) : (orBus v s).t = s.t := rfl
@[simp] theorem orBus_queue (v : Word) (s : State) : (orBus v s).queue = s.queue := rfl
@[simp] theorem orBus_wba (v : Word) (s : State) : (orBus v s).wba = s.wba := rfl
@[simp] theorem orBus_chan (v : Word) (s : State) : (orBus v s).chan = s.chan := rfl
@[simp] theorem orBus_eMem (v : Word) (s : State) : (orBus v s).eMem = s.eMem := rfl
@[simp] theorem orBus_fMem (v : Word) (s : State) : (orBus v s).fMem = s.fMem := rfl
@[simp] theorem orBus_cfg (v : Word) (s : State) : (orBus v s).cfg = s.cfg := rfl
@[simp] theorem orBus_hostInputs (v : Word) (s : State) : (orBus v s).hostInputs = s.hostInputs := rfl
@[simp] theorem orBus_diags (v : Word) (s : State) : (orBus v s).diags = s.diags := rfl

@[simp] theorem setBus_a (v : Word) (s : State) : (setBus v s).a = s.a := rfl
@[simp] theorem setBus_b (v : Word) (s : State) : (setBus v s).b = s.b := rfl
@[simp] theorem setBus_g (v : Word) (s : State) : (setBus v s).g = s.g := rfl
@[simp] theorem setBus_l (v : Word) (s : State) : (setBus v s).l = s.l := rfl
@[simp] theorem setBus_q (v : Word) (s : State) : (setBus v s).q = s.q := rfl
@[simp] theorem setBus_z (v : Word) (s : State) : (setBus v s).z = s.z := rfl
@[simp] theorem setBus_eb (v : Word) (s : State) : (setBus v s).eb = s.eb := rfl
@[simp] theorem setBus_fb (v : Word) (s : State) : (setBus v s).fb = s.fb := rfl
@[simp] theorem setBus_sReg (v : Word) (s : State) : (setBus v s).sReg = s.sReg := rfl
@[simp] theorem setBus_sTemp (v : Word) (s : State) : (setBus v s).sTemp = s.sTemp := rfl
@[simp] theorem setBus_sq (v : Word) (s : State) : (setBus v s).sq = s.sq := rfl
@[simp] theorem setBus_st (v : Word) (s : State) : (setBus v s).st = s.st := rfl
@[simp] theorem setBus_stNext (v : Word) (s : State) : (setBus v s).stNext = s.stNext := rfl
@[simp] theorem setBus_br1 (v : Word) (s : State) : (setBus v s).br1 = s.br1 := rfl
@[simp] theorem setBus_br2 (v : Word) (s : State) : (setBus v s).br2 = s.br2 := rfl
@[simp] theorem setBus_x (v : Word) (s : State) : (setBus v s).x = s.x := rfl
@[simp] theorem setBus_y (v : Word) (s : State) : (setBus v s).y = s.y := rfl
@[simp] theorem setBus_ci (v : Word) (s : State) : (setBus v s).ci = s.ci := rfl
@[simp] theorem setBus_wbus (v : Word) (s : State) : (setBus v s).wbus = v := rfl
@[simp] theorem setBus_nextInstruction (v : Word) (s : State) : (setBus v s).nextInstruction = s.nextInstruction := rfl
@[simp] theorem setBus_inhibitInterrupts (v : Word) (s : State) : (setBus v s).inhibitInterrupts = s.inhibitInterrupts := rfl
@[simp] theorem setBus_noEAC (v : Word) (s : State) : (setBus v s).noEAC = s.noEAC := rfl
@[simp] theorem setBus_mcro (v : Word) (s : State) : (setBus v s).mcro = s.mcro := rfl
@[simp] theorem setBus_extend (v : Word) (s : State) : (setBus v s).extend = s.extend := rfl
@[simp] theorem setBus_extendNext (v : Word) (s : State) : (setBus v s).extendNext = s.extendNext := rfl
@[simp] theorem setBus_dvSequence (v : Word) (s : State) : (setBus v s).dvSequence = s.dvSequence := rfl
@[simp] theorem setBus_dvStage (v : Word) (s : State) : (setBus v s).dvStage = s.dvStage := rfl
@[simp] theorem setBus_pifl (v : Word) (s : State) : (setBus v s).pifl = s.pifl := rfl
@[simp] theorem setBus_t (v : Word) (s : State) : (setBus v s).t = s.t := rfl
@[simp] theorem setBus_queue (v : Word) (s : State) : (setBus v s).queue = s.queue := rfl
@[simp] theorem setBus_wba (v : Word) (s : State) : (setBus v s).wba = s.wba := rfl
@[simp] theorem setBus_chan (v : Word) (s : State) : (setBus v s).chan = s.chan := rfl
@[simp] theorem setBus_eMem (v : Word) (s : State) : (setBus v s).eMem = s.eMem := rfl
@[simp] theorem setBus_fMem (v : Word) (s : State) : (setBus v s).fMem = s.fMem := rfl
@[simp] theorem setBus_cfg (v : Word) (s : State) : (setBus v s).cfg = s.cfg := rfl
@[simp] theorem setBus_hostInputs (v : Word) (s : State) : (setBus v s).hostInputs = s.hostInputs := rfl
@[simp] theorem setBus_diags (v : Word) (s : State) : (setBus v s).diags = s.diags := rfl

@[simp] theorem loadAdder_a (v : Word) (s : State) : (loadAdder v s).a = s.a := rfl
@[simp] theorem loadAdder_b (v : Word) (s : State) : (loadAdder v s).b = s.b := rfl
@[simp] theorem loadAdder_g (v : Word) (s : State) : (loadAdder v s).g = s.g := rfl
@[simp] theorem loadAdder_l (v : Word) (s : State) : (loadAdder v s).l = s.l := rfl
@[simp] theorem loadAdder_q (v : Word) (s : State) : (loadAdder v s).q = s.q := rfl
@[simp] theorem loadAdder_z (v : Word) (s : State) : (loadAdder v s).z = s.z := rfl
@[simp] theorem loadAdder_eb (v : Word) (s : State) : (loadAdder v s).eb = s.eb := rfl
@[simp] theorem loadAdder_fb (v : Word) (s : State) : (loadAdder v s).fb = s.fb := rfl
@[simp] theorem loadAdder_sReg (v : Word) (s : State) : (loadAdder v s).sReg = s.sReg := rfl
@[simp] theorem loadAdder_sTemp (v : Word) (s : State) : (loadAdder v s).sTemp = s.sTemp := rfl
@[simp] theorem loadAdder_sq (v : Word) (s : State) : (loadAdder v s).sq = s.sq := rfl
@[simp] theorem loadAdder_st (v : Word) (s : State) : (loadAdder v s).st = s.st := rfl
@[simp] theorem loadAdder_stNext (v : Word) (s : State) : (loadAdder v s).stNext = s.stNext := rfl
@[simp] theorem loadAdder_br1 (v : Word) (s : State) : (loadAdder v s).br1 = s.br1 := rfl
@[simp] theorem loadAdder_br2 (v : Word) (s : State) : (loadAdder v s).br2 = s.br2 := rfl
@[simp] theorem loadAdder_x (v : Word) (s : State) : (loadAdder v s).x = 0x0000#16 := rfl
@[simp] theorem loadAdder_y (v : Word) (s : State) : (loadAdder v s).y = v := rfl
@[simp] theorem loadAdder_ci (v : Word) (s : State) : (loadAdder v s).ci = false := rfl
@[simp] theorem loadAdder_wbus (v : Word) (s : State) : (loadAdder v s).wbus = s.wbus := rfl
@[simp] theorem loadAdder_nextInstruction (v : Word) (s : State) : (loadAdder v s).nextInstruction = s.nextInstruction := rfl
@[simp] theorem loadAdder_inhibitInterrupts (v : Word) (s : State) : (loadAdder v s).inhibitInterrupts = s.inhibitInterrupts := rfl
@[simp] theorem loadAdder_noEAC (v : Word) (s : State) : (loadAdder v s).noEAC = s.noEAC := rfl
@[simp] theorem loadAdder_mcro (v : Word) (s : State) : (loadAdder v s).mcro = s.mcro := rfl
@[simp] theorem loadAdder_extend (v : Word) (s : State) : (loadAdder v s).extend = s.extend := rfl
@[simp] theorem loadAdder_extendNext (v : Word) (s : State) : (loadAdder v s).extendNext = s.extendNext := rfl
@[simp] theorem loadAdder_dvSequence (v : Word) (s : State) : (loadAdder v s).dvSequence = s.dvSequence := rfl
@[simp] theorem loadAdder_dvStage (v : Word) (s : State) : (loadAdder v s).dvStage = s.dvStage := rfl
@[simp] theorem loadAdder_pifl (v : Word) (s : State) : (loadAdder v s).pifl = s.pifl := rfl
@[simp] theorem loadAdder_t (v : Word) (s : State) : (loadAdder v s).t = s.t := rfl
@[simp] theorem loadAdder_queue (v : Word) (s : State) : (loadAdder v s).queue = s.queue := rfl
@[simp] theorem loadAdder_wba (v : Word) (s : State) : (loadAdder v s).wba = s.wba := rfl
@[simp] theorem loadAdder_chan (v : Word) (s : State) : (loadAdder v s).chan = s.chan := rfl
@[simp] theorem loadAdder_eMem (v : Word) (s : State) : (loadAdder v s).eMem = s.eMem := rfl
@[simp] theorem loadAdder_fMem (v : Word) (s : State) : (loadAdder v s).fMem = s.fMem := rfl
@[simp] theorem loadAdder_cfg (v : Word) (s : State) : (loadAdder v s).cfg = s.cfg := rfl
@[simp] theorem loadAdder_hostInputs (v : Word) (s : State) : (loadAdder v s).hostInputs = s.hostInputs := rfl
@[simp] theorem loadAdder_diags (v : Word) (s : State) : (loadAdder v s).diags = s.diags := rfl

@[simp] theorem forceX_a (v : Word) (s : State) : (forceX v s).a = s.a := rfl
@[simp] theorem forceX_b (v : Word) (s : State) : (forceX v s).b = s.b := rfl
@[simp] theorem forceX_g (v : Word) (s : State) : (forceX v s).g = s.g := rfl
@[simp] theorem forceX_l (v : Word) (s : State) : (forceX v s).l = s.l := rfl
@[simp] theorem forceX_q (v : Word) (s : State) : (forceX v s).q = s.q := rfl
@[simp] theorem forceX_z (v : Word) (s : State) : (forceX v s).z = s.z := rfl
@[simp] theorem forceX_eb (v : Word) (s : State) : (forceX v s).eb = s.eb := rfl
@[simp] theorem forceX_fb (v : Word) (s : State) : (forceX v s).fb = s.fb := rfl
@[simp] theorem forceX_sReg (v : Word) (s : State) : (forceX v s).sReg = s.sReg := rfl
@[simp] theorem forceX_sTemp (v : Word) (s : State) : (forceX v s).sTemp = s.sTemp := rfl
@[simp] theorem forceX_sq (v : Word) (s : State) : (forceX v s).sq = s.sq := rfl
@[simp] theorem forceX_st (v : Word) (s : State) : (forceX v s).st = s.st := rfl
@[simp] theorem forceX_stNext (v : Word) (s : State) : (forceX v s).stNext = s.stNext := rfl
@[simp] theorem forceX_br1 (v : Word) (s : State) : (forceX v s).br1 = s.br1 := rfl
@[simp] theorem forceX_br2 (v : Word) (s : State) : (forceX v s).br2 = s.br2 := rfl
@[simp] theorem forceX_x (v : Word) (s : State) : (forceX v s).x = s.x ||| v := rfl
@[simp] theorem forceX_y (v : Word) (s : State) : (forceX v s).y = s.y := rfl
@[simp] theorem forceX_ci (v : Word) (s : State) : (forceX v s).ci = s.ci := rfl
@[simp] theorem forceX_wbus (v : Word) (s : State) : (forceX v s).wbus = s.wbus := rfl
@[simp] theorem forceX_nextInstruction (v : Word) (s : State) : (forceX v s).nextInstruction = s.nextInstruction := rfl
@[simp] theorem forceX_inhibitInterrupts (v : Word) (s : State) : (forceX v s).inhibitInterrupts = s.inhibitInterrupts := rfl
@[simp] theorem forceX_noEAC (v : Word) (s : State) : (forceX v s).noEAC = s.noEAC := rfl
@[simp] theorem forceX_mcro (v : Word) (s : State) : (forceX v s).mcro = s.mcro := rfl
@[simp] theorem forceX_extend (v : Word) (s : State) : (forceX v s).extend = s.extend := rfl
@[simp] theorem forceX_extendNext (v : Word) (s : State) : (forceX v s).extendNext = s.extendNext := rfl
@[simp] theorem forceX_dvSequence (v : Word) (s : State) : (forceX v s).dvSequence = s.dvSequence := rfl
@[simp] theorem forceX_dvStage (v : Word) (s : State) : (forceX v s).dvStage = s.dvStage := rfl
@[simp] theorem forceX_pifl (v : Word) (s : State) : (forceX v s).pifl = s.pifl := rfl
@[simp] theorem forceX_t (v : Word) (s : State) : (forceX v s).t = s.t := rfl
@[simp] theorem forceX_queue (v : Word) (s : State) : (forceX v s).queue = s.queue := rfl
@[simp] theorem forceX_wba (v : Word) (s : State) : (forceX v s).wba = s.wba := rfl
@[simp] theorem forceX_chan (v : Word) (s : State) : (forceX v s).chan = s.chan := rfl
@[simp] theorem forceX_eMem (v : Word) (s : State) : (forceX v s).eMem = s.eMem := rfl
@[simp] theorem forceX_fMem (v : Word) (s : State) : (forceX v s).fMem = s.fMem := rfl
@[simp] theorem forceX_cfg (v : Word) (s : State) : (forceX v s).cfg = s.cfg := rfl
@[simp] theorem forceX_hostInputs (v : Word) (s : State) : (forceX v s).hostInputs = s.hostInputs := rfl
@[simp] theorem forceX_diags (v : Word) (s : State) : (forceX v s).diags = s.diags := rfl

@[simp] theorem requestStage_a (v : BitVec 2) (s : State) : (requestStage v s).a = s.a := rfl
@[simp] theorem requestStage_b (v : BitVec 2) (s : State) : (requestStage v s).b = s.b := rfl
@[simp] theorem requestStage_g (v : BitVec 2) (s : State) : (requestStage v s).g = s.g := rfl
@[simp] theorem requestStage_l (v : BitVec 2) (s : State) : (requestStage v s).l = s.l := rfl
@[simp] theorem requestStage_q (v : BitVec 2) (s : State) : (requestStage v s).q = s.q := rfl
@[simp] theorem requestStage_z (v : BitVec 2) (s : State) : (requestStage v s).z = s.z := rfl
@[simp] theorem requestStage_eb (v : BitVec 2) (s : State) : (requestStage v s).eb = s.eb := rfl
@[simp] theorem requestStage_fb (v : BitVec 2) (s : State) : (requestStage v s).fb = s.fb := rfl
@[simp] theorem requestStage_sReg (v : BitVec 2) (s : State) : (requestStage v s).sReg = s.sReg := rfl
@[simp] theorem requestStage_sTemp (v : BitVec 2) (s : State) : (requestStage v s).sTemp = s.sTemp := rfl
@[simp] theorem requestStage_sq (v : BitVec 2) (s : State) : (requestStage v s).sq = s.sq := rfl
@[simp] theorem requestStage_st (v : BitVec 2) (s : State) : (requestStage v s).st = s.st := rfl
@[simp] theorem requestStage_stNext (v : BitVec 2) (s : State) : (requestStage v s).stNext = s.stNext ||| v := rfl
@[simp] theorem requestStage_br1 (v : BitVec 2) (s : State) : (requestStage v s).br1 = s.br1 := rfl
@[simp] theorem requestStage_br2 (v : BitVec 2) (s : State) : (requestStage v s).br2 = s.br2 := rfl
@[simp] theorem requestStage_x (v : BitVec 2) (s : State) : (requestStage v s).x = s.x := rfl
@[simp] theorem requestStage_y (v : BitVec 2) (s : State) : (requestStage v s).y = s.y := rfl
@[simp] theorem requestStage_ci (v : BitVec 2) (s : State) : (requestStage v s).ci = s.ci := rfl
@[simp] theorem requestStage_wbus (v : BitVec 2) (s : State) : (requestStage v s).wbus = s.wbus := rfl
@[simp] theorem requestStage_nextInstruction (v : BitVec 2) (s : State) : (requestStage v s).nextInstruction = s.nextInstruction := rfl
@[simp] theorem requestStage_inhibitInterrupts (v : BitVec 2) (s : State) : (requestStage v s).inhibitInterrupts = s.inhibitInterrupts := rfl
@[simp] theorem requestStage_noEAC (v : BitVec 2) (s : State) : (requestStage v s).noEAC = s.noEAC := rfl
@[simp] theorem requestStage_mcro (v : BitVec 2) (s : State) : (requestStage v s).mcro = s.mcro := rfl
@[simp] theorem requestStage_extend (v : BitVec 2) (s : State) : (requestStage v s).extend = s.extend := rfl
@[simp] theorem requestStage_extendNext (v : BitVec 2) (s : State) : (requestStage v s).extendNext = s.extendNext := rfl
@[simp] theorem requestStage_dvSequence (v : BitVec 2) (s : State) : (requestStage v s).dvSequence = s.dvSequence := rfl
@[simp] theorem requestStage_dvStage (v : BitVec 2) (s : State) : (requestStage v s).dvStage = s.dvStage := rfl
@[simp] theorem requestStage_pifl (v : BitVec 2) (s : State) : (requestStage v s).pifl = s.pifl := rfl
@[simp] theorem requestStage_t (v : BitVec 2) (s : State) : (requestStage v s).t = s.t := rfl
@[simp] theorem requestStage_queue (v : BitVec 2) (s : State) : (requestStage v s).queue = s.queue := rfl
@[simp] theorem requestStage_wba (v : BitVec 2) (s : State) : (requestStage v s).wba = s.wba := rfl
@[simp] theorem requestStage_chan (v : BitVec 2) (s : State) : (requestStage v s).chan = s.chan := rfl
@[simp] theorem requestStage_eMem (v : BitVec 2) (s : State) : (requestStage v s).eMem = s.eMem := rfl
@[simp] theorem requestStage_fMem (v : BitVec 2) (s : State) : (requestStage v s).fMem = s.fMem := rfl
@[simp] theorem requestStage_cfg (v : BitVec 2) (s : State) : (requestStage v s).cfg = s.cfg := rfl
@[simp] theorem requestStage_hostInputs (v : BitVec 2) (s : State) : (requestStage v s).hostInputs = s.hostInputs := rfl
@[simp] theorem requestStage_diags (v : BitVec 2) (s : State) : (requestStage v s).diags = s.diags := rfl

@[simp] theorem setBranch_a (v : Bool × Bool) (s : State) : (setBranch v s).a = s.a := rfl
@[simp] theorem setBranch_b (v : Bool × Bool) (s : State) : (setBranch v s).b = s.b := rfl
@[simp] theorem setBranch_g (v : Bool × Bool) (s : State) : (setBranch v s).g = s.g := rfl
@[simp] theorem setBranch_l (v : Bool × Bool) (s : State) : (setBranch v s).l = s.l := rfl
@[simp] theorem setBranch_q (v : Bool × Bool) (s : State) : (setBranch v s).q = s.q := rfl
@[simp] theorem setBranch_z (v : Bool × Bool) (s : State) : (setBranch v s).z = s.z := rfl
@[simp] theorem setBranch_eb (v : Bool × Bool) (s : State) : (setBranch v s).eb = s.eb := rfl
@[simp] theorem setBranch_fb (v : Bool × Bool) (s : State) : (setBranch v s).fb = s.fb := rfl
@[simp] theorem setBranch_sReg (v : Bool × Bool) (s : State) : (setBranch v s).sReg = s.sReg := rfl
@[simp] theorem setBranch_sTemp (v : Bool × Bool) (s : State) : (setBranch v s).sTemp = s.sTemp := rfl
@[simp] theorem setBranch_sq (v : Bool × Bool) (s : State) : (setBranch v s).sq = s.sq := rfl
@[simp] theorem setBranch_st (v : Bool × Bool) (s : State) : (setBranch v s).st = s.st := rfl
@[simp] theorem setBranch_stNext (v : Bool × Bool) (s : State) : (setBranch v s).stNext = s.stNext := rfl
@[simp] theorem setBranch_br1 (v : Bool × Bool) (s : State) : (setBranch v s).br1 = v.1 := rfl
@[simp] theorem setBranch_br2 (v : Bool × Bool) (s : State) : (setBranch v s).br2 = v.2 := rfl
@[simp] theorem setBranch_x (v : Bool × Bool) (s : State) : (setBranch v s).x = s.x := rfl
@[simp] theorem setBranch_y (v : Bool × Bool) (s : State) : (setBranch v s).y = s.y := rfl
@[simp] theorem setBranch_ci (v : Bool × Bool) (s : State) : (setBranch v s).ci = s.ci := rfl
@[simp] theorem setBranch_wbus (v : Bool × Bool) (s : State) : (setBranch v s).wbus = s.wbus := rfl
@[simp] theorem setBranch_nextInstruction (v : Bool × Bool) (s : State) : (setBranch v s).nextInstruction = s.nextInstruction := rfl
@[simp] theorem setBranch_inhibitInterrupts (v : Bool × Bool) (s : State) : (setBranch v s).inhibitInterrupts = s.inhibitInterrupts := rfl
@[simp] theorem setBranch_noEAC (v : Bool × Bool) (s : State) : (setBranch v s).noEAC = s.noEAC := rfl
@[simp] theorem setBranch_mcro (v : Bool × Bool) (s : State) : (setBranch v s).mcro = s.mcro := rfl
@[simp] theorem setBranch_extend (v : Bool × Bool) (s : State) : (setBranch v s).extend = s.extend := rfl
@[simp] theorem setBranch_extendNext (v : Bool × Bool) (s : State) : (setBranch v s).extendNext = s.extendNext := rfl
@[simp] theorem setBranch_dvSequence (v : Bool × Bool) (s : State) : (setBranch v s).dvSequence = s.dvSequence := rfl
@[simp] theorem setBranch_dvStage (v : Bool × Bool) (s : State) : (setBranch v s).dvStage = s.dvStage := rfl
@[simp] theorem setBranch_pifl (v : Bool × Bool) (s : State) : (setBranch v s).pifl = s.pifl := rfl
@[simp] theorem setBranch_t (v : Bool × Bool) (s : State) : (setBranch v s).t = s.t := rfl
@[simp] theorem setBranch_queue (v : Bool × Bool) (s : State) : (setBranch v s).queue = s.queue := rfl
@[simp] theorem setBranch_wba (v : Bool × Bool) (s : State) : (setBranch v s).wba = s.wba := rfl
@[simp] theorem setBranch_chan (v : Bool × Bool) (s : State) : (setBranch v s).chan = s.chan := rfl
@[simp] theorem setBranch_eMem (v : Bool × Bool) (s : State) : (setBranch v s).eMem = s.eMem := rfl
@[simp] theorem setBranch_fMem (v : Bool × Bool) (s : State) : (setBranch v s).fMem = s.fMem := rfl
@[simp] theorem setBranch_cfg (v : Bool × Bool) (s : State) : (setBranch v s).cfg = s.cfg := rfl
@[simp] theorem setBranch_hostInputs (v : Bool × Bool) (s : State) : (setBranch v s).hostInputs = s.hostInputs := rfl
@[simp] theorem setBranch_diags (v : Bool × Bool) (s : State) : (setBranch v s).diags = s.diags := rfl

@[simp] theorem enqueue_a (es : List Entry) (s : State) : (enqueue es s).a = s.a := rfl
@[simp] theorem enqueue_b (es : List Entry) (s : State) : (enqueue es s).b = s.b := rfl
@[simp] theorem enqueue_g (es : List Entry) (s : State) : (enqueue es s).g = s.g := rfl
@[simp] theorem enqueue_l (es : List Entry) (s : State) : (enqueue es s).l = s.l := rfl
@[simp] theorem enqueue_q (es : List Entry) (s : State) : (enqueue es s).q = s.q := rfl
@[simp] theorem enqueue_z (es : List Entry) (s : State) : (enqueue es s).z = s.z := rfl
@[simp] theorem enqueue_eb (es : List Entry) (s : State) : (enqueue es s).eb = s.eb := rfl
@[simp] theorem enqueue_fb (es : List Entry) (s : State) : (enqueue es s).fb = s.fb := rfl
@[simp] theorem enqueue_sReg (es : List Entry) (s : State) : (enqueue es s).sReg = s.sReg := rfl
@[simp] theorem enqueue_sTemp (es : List Entry) (s : State) : (enqueue es s).sTemp = s.sTemp := rfl
@[simp] theorem enqueue_sq (es : List Entry) (s : State) : (enqueue es s).sq = s.sq := rfl
@[simp] theorem enqueue_st (es : List Entry) (s : State) : (enqueue es s).st = s.st := rfl
@[simp] theorem enqueue_stNext (es : List Entry) (s : State) : (enqueue es s).stNext = s.stNext := rfl
@[simp] theorem enqueue_br1 (es : List Entry) (s : State) : (enqueue es s).br1 = s.br1 := rfl
@[simp] theorem enqueue_br2 (es : List Entry) (s : State) : (enqueue es s).br2 = s.br2 := rfl
@[simp] theorem enqueue_x (es : List Entry) (s : State) : (enqueue es s).x = s.x := rfl
@[simp] theorem enqueue_y (es : List Entry) (s : State) : (enqueue es s).y = s.y := rfl
@[simp] theorem enqueue_ci (es : List Entry) (s : State) : (enqueue es s).ci = s.ci := rfl
@[simp] theorem enqueue_wbus (es : List Entry) (s : State) : (enqueue es s).wbus = s.wbus := rfl
@[simp] theorem enqueue_nextInstruction (es : List Entry) (s : State) : (enqueue es s).nextInstruction = s.nextInstruction := rfl
@[simp] theorem enqueue_inhibitInterrupts (es : List Entry) (s : State) : (enqueue es s).inhibitInterrupts = s.inhibitInterrupts := rfl
@[simp] theorem enqueue_noEAC (es : List Entry) (s : State) : (enqueue es s).noEAC = s.noEAC := rfl
@[simp] theorem enqueue_mcro (es : List Entry) (s : State) : (enqueue es s).mcro = s.mcro := rfl
@[simp] theorem enqueue_extend (es : List Entry) (s : State) : (enqueue es s).extend = s.extend := rfl
@[simp] theorem enqueue_extendNext (es : List Entry) (s : State) : (enqueue es s).extendNext = s.extendNext := rfl
@[simp] theorem enqueue_dvSequence (es : List Entry) (s : State) : (enqueue es s).dvSequence = s.dvSequence := rfl
@[simp] theorem enqueue_dvStage (es : List Entry) (s : State) : (enqueue es s).dvStage = s.dvStage := rfl
@[simp] theorem enqueue_pifl (es : List Entry) (s : State) : (enqueue es s).pifl = s.pifl := rfl
@[simp] theorem enqueue_t (es : List Entry) (s : State) : (enqueue es s).t = s.t := rfl
@[simp] theorem enqueue_queue (es : List Entry) (s : State) : (enqueue es s).queue = s.queue ++ es := rfl
@[simp] theorem enqueue_wba (es : List Entry) (s : State) : (enqueue es s).wba = s.wba := rfl
@[simp] theorem enqueue_chan (es : List Entry) (s : State) : (enqueue es s).chan = s.chan := rfl
@[simp] theorem enqueue_eMem (es : List Entry) (s : State) : (enqueue es s).eMem = s.eMem := rfl
@[simp] theorem enqueue_fMem (es : List Entry) (s : State) : (enqueue es s).fMem = s.fMem := rfl
@[simp] theorem enqueue_cfg (es : List Entry) (s : State) : (enqueue es s).cfg = s.cfg := rfl
@[simp] theorem enqueue_hostInputs (es : List Entry) (s : State) : (enqueue es s).hostInputs = s.hostInputs := rfl
@[simp] theorem enqueue_diags (es : List Entry) (s : State) : (enqueue es s).diags = s.diags := rfl

@[simp] theorem emitDiag_a (d : Diag) (s : State) : (emitDiag d s).a = s.a := rfl
@[simp] theorem emitDiag_b (d : Diag) (s : State) : (emitDiag d s).b = s.b := rfl
@[simp] theorem emitDiag_g (d : Diag) (s : State) : (emitDiag d s).g = s.g := rfl
@[simp] theorem emitDiag_l (d : Diag) (s : State) : (emitDiag d s).l = s.l := rfl
@[simp] theorem emitDiag_q (d : Diag) (s : State) : (emitDiag d s).q = s.q := rfl
@[simp] theorem emitDiag_z (d : Diag) (s : State) : (emitDiag d s).z = s.z := rfl
@[simp] theorem emitDiag_eb (d : Diag) (s : State) : (emitDiag d s).eb = s.eb := rfl
@[simp] theorem emitDiag_fb (d : Diag) (s : State) : (emitDiag d s).fb = s.fb := rfl
@[simp] theorem emitDiag_sReg (d : Diag) (s : State) : (emitDiag d s).sReg = s.sReg := rfl
@[simp] theorem emitDiag_sTemp (d : Diag) (s : State) : (emitDiag d s).sTemp = s.sTemp := rfl
@[simp] theorem emitDiag_sq (d : Diag) (s : State) : (emitDiag d s).sq = s.sq := rfl
@[simp] theorem emitDiag_st (d : Diag) (s : State) : (emitDiag d s).st = s.st := rfl
@[simp] theorem emitDiag_stNext (d : Diag) (s : State) : (emitDiag d s).stNext = s.stNext := rfl
@[simp] theorem emitDiag_br1 (d : Diag) (s : State) : (emitDiag d s).br1 = s.br1 := rfl
@[simp] theorem emitDiag_br2 (d : Diag) (s : State) : (emitDiag d s).br2 = s.br2 := rfl
@[simp] theorem emitDiag_x (d : Diag) (s : State) : (emitDiag d s).x = s.x := rfl
@[simp] theorem emitDiag_y (d : Diag) (s : State) : (emitDiag d s).y = s.y := rfl
@[simp] theorem emitDiag_ci (d : Diag) (s : State) : (emitDiag d s).ci = s.ci := rfl
@[simp] theorem emitDiag_wbus (d : Diag) (s : State) : (emitDiag d s).wbus = s.wbus := rfl
@[simp] theorem emitDiag_nextInstruction (d : Diag) (s : State) : (emitDiag d s).nextInstruction = s.nextInstruction := rfl
@[simp] theorem emitDiag_inhibitInterrupts (d : Diag) (s : State) : (emitDiag d s).inhibitInterrupts = s.inhibitInterrupts := rfl
@[simp] theorem emitDiag_noEAC (d : Diag) (s : State) : (emitDiag d s).noEAC = s.noEAC := rfl
@[simp] theorem emitDiag_mcro (d : Diag) (s : State) : (emitDiag d s).mcro = s.mcro := rfl
@[simp] theorem emitDiag_extend (d : Diag) (s : State) : (emitDiag d s).extend = s.extend := rfl
@[simp] theorem emitDiag_extendNext (d : Diag) (s : State) : (emitDiag d s).extendNext = s.extendNext := rfl
@[simp] theorem emitDiag_dvSequence (d : Diag) (s : State) : (emitDiag d s).dvSequence = s.dvSequence := rfl
@[simp] theorem emitDiag_dvStage (d : Diag) (s : State) : (emitDiag d s).dvStage = s.dvStage := rfl
@[simp] theorem emitDiag_pifl (d : Diag) (s : State) : (emitDiag d s).pifl = s.pifl := rfl
@[simp] theorem emitDiag_t (d : Diag) (s : State) : (emitDiag d s).t = s.t := rfl
@[simp] theorem emitDiag_queue (d : Diag) (s : State) : (emitDiag d s).queue = s.queue := rfl
@[simp] theorem emitDiag_wba (d : Diag) (s : State) : (emitDiag d s).wba = s.wba := rfl
@[simp] theorem emitDiag_chan (d : Diag) (s : State) : (emitDiag d s).chan = s.chan := rfl
@[simp] theorem emitDiag_eMem (d : Diag) (s : State) : (emitDiag d s).eMem = s.eMem := rfl
@[simp] theorem emitDiag_fMem (d : Diag) (s : State) : (emitDiag d s).fMem = s.fMem := rfl
@[simp] theorem emitDiag_cfg (d : Diag) (s : State) : (emitDiag d s).cfg = s.cfg := rfl
@[simp] theorem emitDiag_hostInputs (d : Diag) (s : State) : (emitDiag d s).hostInputs = s.hostInputs := rfl
@[simp] theorem emitDiag_diags (d : Diag) (s : State) : (emitDiag d s).diags = s.diags ++ [d] := rfl

@[simp] theorem dropCollected_a (s : State) : (dropCollected s).a = s.a := rfl
@[simp] theorem dropCollected_b (s : State) : (dropCollected s).b = s.b := rfl
@[simp] theorem dropCollected_g (s : State) : (dropCollected s).g = s.g := rfl
@[simp] theorem dropCollected_l (s : State) : (dropCollected s).l = s.l := rfl
@[simp] theorem dropCollected_q (s : State) : (dropCollected s).q = s.q := rfl
@[simp] theorem dropCollected_z (s : State) : (dropCollected s).z = s.z := rfl
@[simp] theorem dropCollected_eb (s : State) : (dropCollected s).eb = s.eb := rfl
@[simp] theorem dropCollected_fb (s : State) : (dropCollected s).fb = s.fb := rfl
@[simp] theorem dropCollected_sReg (s : State) : (dropCollected s).sReg = s.sReg := rfl
@[simp] theorem dropCollected_sTemp (s : State) : (dropCollected s).sTemp = s.sTemp := rfl
@[simp] theorem dropCollected_sq (s : State) : (dropCollected s).sq = s.sq := rfl
@[simp] theorem dropCollected_st (s : State) : (dropCollected s).st = s.st := rfl
@[simp] theorem dropCollected_stNext (s : State) : (dropCollected s).stNext = s.stNext := rfl
@[simp] theorem dropCollected_br1 (s : State) : (dropCollected s).br1 = s.br1 := rfl
@[simp] theorem dropCollected_br2 (s : State) : (dropCollected s).br2 = s.br2 := rfl
@[simp] theorem dropCollected_x (s : State) : (dropCollected s).x = s.x := rfl
@[simp] theorem dropCollected_y (s : State) : (dropCollected s).y = s.y := rfl
@[simp] theorem dropCollected_ci (s : State) : (dropCollected s).ci = s.ci := rfl
@[simp] theorem dropCollected_wbus (s : State) : (dropCollected s).wbus = s.wbus := rfl
@[simp] theorem dropCollected_nextInstruction (s : State) : (dropCollected s).nextInstruction = s.nextInstruction := rfl
@[simp] theorem dropCollected_inhibitInterrupts (s : State) : (dropCollected s).inhibitInterrupts = s.inhibitInterrupts := rfl
@[simp] theorem dropCollected_noEAC (s : State) : (dropCollected s).noEAC = s.noEAC := rfl
@[simp] theorem dropCollected_mcro (s : State) : (dropCollected s).mcro = s.mcro := rfl
@[simp] theorem dropCollected_extend (s : State) : (dropCollected s).extend = s.extend := rfl
@[simp] theorem dropCollected_extendNext (s : State) : (dropCollected s).extendNext = s.extendNext := rfl
@[simp] theorem dropCollected_dvSequence (s : State) : (dropCollected s).dvSequence = s.dvSequence := rfl
@[simp] theorem dropCollected_dvStage (s : State) : (dropCollected s).dvStage = s.dvStage := rfl
@[simp] theorem dropCollected_pifl (s : State) : (dropCollected s).pifl = s.pifl := rfl
@[simp] theorem dropCollected_t (s : State) : (dropCollected s).t = s.t := rfl
@[simp] theorem dropCollected_queue (s : State) : (dropCollected s).queue = s.queue.filter fun e => decide (e.n ≠ s.t) := rfl
@[simp] theorem dropCollected_wba (s : State) : (dropCollected s).wba = s.wba := rfl
@[simp] theorem dropCollected_chan (s : State) : (dropCollected s).chan = s.chan := rfl
@[simp] theorem dropCollected_eMem (s : State) : (dropCollected s).eMem = s.eMem := rfl
@[simp] theorem dropCollected_fMem (s : State) : (dropCollected s).fMem = s.fMem := rfl
@[simp] theorem dropCollected_cfg (s : State) : (dropCollected s).cfg = s.cfg := rfl
@[simp] theorem dropCollected_hostInputs (s : State) : (dropCollected s).hostInputs = s.hostInputs := rfl
@[simp] theorem dropCollected_diags (s : State) : (dropCollected s).diags = s.diags := rfl

@[simp] theorem clearMcro_a (s : State) : (clearMcro s).a = s.a := rfl
@[simp] theorem clearMcro_b (s : State) : (clearMcro s).b = s.b := rfl
@[simp] theorem clearMcro_g (s : State) : (clearMcro s).g = s.g := rfl
@[simp] theorem clearMcro_l (s : State) : (clearMcro s).l = s.l := rfl
@[simp] theorem clearMcro_q (s : State) : (clearMcro s).q = s.q := rfl
@[simp] theorem clearMcro_z (s : State) : (clearMcro s).z = s.z := rfl
@[simp] theorem clearMcro_eb (s : State) : (clearMcro s).eb = s.eb := rfl
@[simp] theorem clearMcro_fb (s : State) : (clearMcro s).fb = s.fb := rfl
@[simp] theorem clearMcro_sReg (s : State) : (clearMcro s).sReg = s.sReg := rfl
@[simp] theorem clearMcro_sTemp (s : State) : (clearMcro s).sTemp = s.sTemp := rfl
@[simp] theorem clearMcro_sq (s : State) : (clearMcro s).sq = s.sq := rfl
@[simp] theorem clearMcro_st (s : State) : (clearMcro s).st = s.st := rfl
@[simp] theorem clearMcro_stNext (s : State) : (clearMcro s).stNext = s.stNext := rfl
@[simp] theorem clearMcro_br1 (s : State) : (clearMcro s).br1 = s.br1 := rfl
@[simp] theorem clearMcro_br2 (s : State) : (clearMcro s).br2 = s.br2 := rfl
@[simp] theorem clearMcro_x (s : State) : (clearMcro s).x = s.x := rfl
@[simp] theorem clearMcro_y (s : State) : (clearMcro s).y = s.y := rfl
@[simp] theorem clearMcro_ci (s : State) : (clearMcro s).ci = s.ci := rfl
@[simp] theorem clearMcro_wbus (s : State) : (clearMcro s).wbus = s.wbus := rfl
@[simp] theorem clearMcro_nextInstruction (s : State) : (clearMcro s).nextInstruction = s.nextInstruction := rfl
@[simp] theorem clearMcro_inhibitInterrupts (s : State) : (clearMcro s).inhibitInterrupts = s.inhibitInterrupts := rfl
@[simp] theorem clearMcro_noEAC (s : State) : (clearMcro s).noEAC = s.noEAC := rfl
@[simp] theorem clearMcro_mcro (s : State) : (clearMcro s).mcro = false := rfl
@[simp] theorem clearMcro_extend (s : State) : (clearMcro s).extend = s.extend := rfl
@[simp] theorem clearMcro_extendNext (s : State) : (clearMcro s).extendNext = s.extendNext := rfl
@[simp] theorem clearMcro_dvSequence (s : State) : (clearMcro s).dvSequence = s.dvSequence := rfl
@[simp] theorem clearMcro_dvStage (s : State) : (clearMcro s).dvStage = s.dvStage := rfl
@[simp] theorem clearMcro_pifl (s : State) : (clearMcro s).pifl = s.pifl := rfl
@[simp] theorem clearMcro_t (s : State) : (clearMcro s).t = s.t := rfl
@[simp] theorem clearMcro_queue (s : State) : (clearMcro s).queue = s.queue := rfl
@[simp] theorem clearMcro_wba (s : State) : (clearMcro s).wba = s.wba := rfl
@[simp] theorem clearMcro_chan (s : State) : (clearMcro s).chan = s.chan := rfl
@[simp] theorem clearMcro_eMem (s : State) : (clearMcro s).eMem = s.eMem := rfl
@[simp] theorem clearMcro_fMem (s : State) : (clearMcro s).fMem = s.fMem := rfl
@[simp] theorem clearMcro_cfg (s : State) : (clearMcro s).cfg = s.cfg := rfl
@[simp] theorem clearMcro_hostInputs (s : State) : (clearMcro s).hostInputs = s.hostInputs := rfl
@[simp] theorem clearMcro_diags (s : State) : (clearMcro s).diags = s.diags := rfl

@[simp] theorem tickEnd_a (s : State) : (tickEnd s).a = s.a := rfl
@[simp] theorem tickEnd_b (s : State) : (tickEnd s).b = s.b := rfl
@[simp] theorem tickEnd_g (s : State) : (tickEnd s).g = s.g := rfl
@[simp] theorem tickEnd_l (s : State) : (tickEnd s).l = s.l := rfl
@[simp] theorem tickEnd_q (s : State) : (tickEnd s).q = s.q := rfl
@[simp] theorem tickEnd_z (s : State) : (tickEnd s).z = s.z := rfl
@[simp] theorem tickEnd_eb (s : State) : (tickEnd s).eb = s.eb := rfl
@[simp] theorem tickEnd_fb (s : State) : (tickEnd s).fb = s.fb := rfl
@[simp] theorem tickEnd_sReg (s : State) : (tickEnd s).sReg = s.sReg := rfl
@[simp] theorem tickEnd_sTemp (s : State) : (tickEnd s).sTemp = s.sTemp := rfl
@[simp] theorem tickEnd_sq (s : State) : (tickEnd s).sq = s.sq := rfl
@[simp] theorem tickEnd_st (s : State) : (tickEnd s).st = s.st := rfl
@[simp] theorem tickEnd_stNext (s : State) : (tickEnd s).stNext = s.stNext := rfl
@[simp] theorem tickEnd_br1 (s : State) : (tickEnd s).br1 = s.br1 := rfl
@[simp] theorem tickEnd_br2 (s : State) : (tickEnd s).br2 = s.br2 := rfl
@[simp] theorem tickEnd_x (s : State) : (tickEnd s).x = s.x := rfl
@[simp] theorem tickEnd_y (s : State) : (tickEnd s).y = s.y := rfl
@[simp] theorem tickEnd_ci (s : State) : (tickEnd s).ci = s.ci := rfl
@[simp] theorem tickEnd_wbus (s : State) : (tickEnd s).wbus = 0x0000#16 := rfl
@[simp] theorem tickEnd_nextInstruction (s : State) : (tickEnd s).nextInstruction = s.nextInstruction := rfl
@[simp] theorem tickEnd_inhibitInterrupts (s : State) : (tickEnd s).inhibitInterrupts = s.inhibitInterrupts := rfl
@[simp] theorem tickEnd_noEAC (s : State) : (tickEnd s).noEAC = s.noEAC := rfl
@[simp] theorem tickEnd_mcro (s : State) : (tickEnd s).mcro = s.mcro := rfl
@[simp] theorem tickEnd_extend (s : State) : (tickEnd s).extend = s.extend := rfl
@[simp] theorem tickEnd_extendNext (s : State) : (tickEnd s).extendNext = s.extendNext := rfl
@[simp] theorem tickEnd_dvSequence (s : State) : (tickEnd s).dvSequence = s.dvSequence := rfl
@[simp] theorem tickEnd_dvStage (s : State) : (tickEnd s).dvStage = s.dvStage := rfl
@[simp] theorem tickEnd_pifl (s : State) : (tickEnd s).pifl = s.pifl := rfl
@[simp] theorem tickEnd_t (s : State) : (tickEnd s).t = s.t % 12 + 1 := rfl
@[simp] theorem tickEnd_queue (s : State) : (tickEnd s).queue = s.queue := rfl
@[simp] theorem tickEnd_wba (s : State) : (tickEnd s).wba = s.wba := rfl
@[simp] theorem tickEnd_chan (s : State) : (tickEnd s).chan = s.chan := rfl
@[simp] theorem tickEnd_eMem (s : State) : (tickEnd s).eMem = s.eMem := rfl
@[simp] theorem tickEnd_fMem (s : State) : (tickEnd s).fMem = s.fMem := rfl
@[simp] theorem tickEnd_cfg (s : State) : (tickEnd s).cfg = s.cfg := rfl
@[simp] theorem tickEnd_hostInputs (s : State) : (tickEnd s).hostInputs = s.hostInputs := rfl
@[simp] theorem tickEnd_diags (s : State) : (tickEnd s).diags = s.diags := rfl

end Sys2Proof.Machine
end

