-- ==== Sys2Proof/Laws/Ops.lean ====
section
/-! SUPPORT. For each shared operation, what it can do: the facts later proofs cite instead of unfolding it. -/

namespace Sys2Proof.Machine

@[simp] theorem andThen_next (s : State) (f : State → Host.Outcome State Fault Refusal) :
    andThen (.next s) f = f s := rfl

@[simp] theorem andThen_fault (r : Fault) (f : State → Host.Outcome State Fault Refusal) :
    andThen (.fault r) f = .fault r := rfl

@[simp] theorem andThen_refused (r : Refusal) (f : State → Host.Outcome State Fault Refusal) :
    andThen (.refused r) f = .refused r := rfl

/-- A sequence answers a next state exactly when both parts do. -/
theorem andThen_eq_next {o : Host.Outcome State Fault Refusal} {f : State → Host.Outcome State Fault Refusal} {t : State} :
    andThen o f = .next t ↔ ∃ s, o = .next s ∧ f s = .next t := by
  cases o <;> simp

/-- A sequence faults exactly when its first part does, or its second on the first part's state. -/
theorem andThen_eq_fault {o : Host.Outcome State Fault Refusal} {f : State → Host.Outcome State Fault Refusal} {r : Fault} :
    andThen o f = .fault r ↔ o = .fault r ∨ ∃ s, o = .next s ∧ f s = .fault r := by
  cases o <;> simp

/-- A sequence is refused exactly when its first part is, or its second on the first part's state. -/
theorem andThen_eq_refused {o : Host.Outcome State Fault Refusal} {f : State → Host.Outcome State Fault Refusal}
    {r : Refusal} : andThen o f = .refused r ↔ o = .refused r ∨ ∃ s, o = .next s ∧ f s = .refused r := by
  cases o <;> simp

@[simp] theorem raise_eq (f : State → Fault) (s : State) : raise f s = .fault (f s) := rfl

/-- The T4 read makes no transaction, or reads and zeroes an erasable cell and latches its index, or reads a fixed cell. -/
theorem memoryRead_cases {s t : State} (h : memoryRead s = .next t) :
    (s.sReg.toNat < s.cfg.params.reservedLowLimit ∧ t = s) ∨
    (∃ i, resolve s.cfg.params s.sReg s.eb s.fb = (.erasable, i) ∧ i < s.cfg.params.erasableWords ∧
      t = { s with
        g := doubleSignCompress (memRead s.eMem i) false
        eMem := memWrite s.eMem i 0x0000#16
        wba := some i }) ∨
    (∃ i, resolve s.cfg.params s.sReg s.eb s.fb = (.fixed, i) ∧ i < s.cfg.params.fixedWords ∧
      t = { s with g := doubleSignCompress (memRead s.fMem i) false }) := by
  unfold memoryRead at h
  split at h
  · rename_i hl; cases h; exact .inl ⟨hl, rfl⟩
  · rcases hr : resolve s.cfg.params s.sReg s.eb s.fb with ⟨sp, i⟩
    simp only [hr] at h
    split at h
    · cases h
    · rename_i hi
      cases sp <;> cases h
      · exact .inr (.inl ⟨i, rfl, by simpa [spaceWords] using hi, rfl⟩)
      · exact .inr (.inr ⟨i, rfl, by simpa [spaceWords] using hi, rfl⟩)

/-- The T4 read can only raise `AddressRange`, and then nothing has changed. -/
theorem memoryRead_fault {s : State} {r : Fault} (h : memoryRead s = .fault r) :
    ∃ sp i, resolve s.cfg.params s.sReg s.eb s.fb = (sp, i) ∧ spaceWords s.cfg.params sp ≤ i ∧
      r = .addressRange s.sReg sp i s := by
  unfold memoryRead at h
  split at h
  · cases h
  · rcases hr : resolve s.cfg.params s.sReg s.eb s.fb with ⟨sp, i⟩
    simp only [hr] at h
    split at h
    · rename_i hi; cases h; exact ⟨sp, i, rfl, hi, rfl⟩
    · cases sp <;> cases h

/-- The write-back does nothing when no index is latched, else stores `G` there and empties the latch. -/
theorem writeBack_cases (s : State) :
    (s.wba = none ∧ writeBack s = s) ∨
    (∃ i, s.wba = some i ∧ writeBack s = { s with eMem := memWrite s.eMem i s.g, wba := none }) := by
  unfold writeBack
  cases h : s.wba with
  | none => exact .inl ⟨rfl, rfl⟩
  | some i => exact .inr ⟨i, rfl, rfl⟩

/-- A central write changes at most `A`, `L`, `Q`, `EB`, `FB`, `Z`. -/
theorem centralWrite_eq (w : Word) (s : State) :
    centralWrite w s = { s with
      a := (centralWrite w s).a
      l := (centralWrite w s).l
      q := (centralWrite w s).q
      eb := (centralWrite w s).eb
      fb := (centralWrite w s).fb
      z := (centralWrite w s).z } := by
  unfold centralWrite
  split <;> rfl

/-- A channel write changes at most `L`, `Q`, the channel store. -/
theorem channelWrite_eq (w : Word) (s : State) :
    channelWrite w s = { s with
      l := (channelWrite w s).l
      q := (channelWrite w s).q
      chan := (channelWrite w s).chan } := by
  unfold channelWrite
  dsimp only
  split_ifs <;> rfl

/-- A `ZIP` action always completes, and changes at most the bus, `X`, `Y`, `CI` and `MCRO`. -/
theorem zipDoAction_next (act : ZipAction) (s : State) :
    ∃ t, zipDoAction act s = .next t ∧
      t = { s with wbus := t.wbus, x := t.x, y := t.y, ci := t.ci, mcro := t.mcro } := by
  obtain ⟨r, ld, c, m⟩ := act
  cases r <;> cases ld <;> cases c <;> cases m <;> exact ⟨_, rfl, rfl⟩

/-- `runPulses` on a list is its first pulse, then the rest. -/
theorem runPulses_cons (id : PulseId) (rest : List PulseId) (s : State) :
    runPulses (id :: rest) s = andThen (runPulse id s) (runPulses rest) := rfl

@[simp] theorem runPulses_nil (s : State) : runPulses [] s = .next s := rfl

/-- An assigned id runs the pulse it decodes to. -/
theorem runPulse_of_decode {id : PulseId} {i : Instr} (h : decodePulse id = .ok i) (s : State) :
    runPulse id s = exec i s := by
  simp only [runPulse, h]

/-- The dispatch answers a next state only by running no list, or one of the collected lists, on the queue without them. -/
theorem dispatch_cases {s t : State} (h : dispatch s = .next t) :
    (collected s = [] ∧ t = dropCollected s) ∨
    (∃ e ∈ collected s, runPulses e.pulses (dropCollected s) = .next t) := by
  unfold dispatch at h
  simp only at h
  split at h
  · rename_i hc; cases h; exact .inl ⟨hc, rfl⟩
  · rename_i e hc; exact .inr ⟨e, by simp [hc], h⟩
  · split at h
    · cases h
    · split at h
      · rename_i e he; exact .inr ⟨e, List.mem_of_getElem? he, h⟩
      · cases h

/-- Every collected entry is an entry of the queue at the current time pulse. -/
theorem mem_collected {s : State} {e : Entry} (h : e ∈ collected s) : e ∈ s.queue ∧ e.n = s.t := by
  simpa [collected] using h

/-- What a tick that answers a next state has done, step by step. -/
theorem tick_cases {s t : State} (h : tick s = .next t) :
    ∃ s1 s2 s3, dispatch (tickStart (applyHostWrites s)) = .next s1 ∧ readStep s1 = .next s2 ∧
      cycleStep (writeBackStep s2) = .next s3 ∧ t = tickEnd s3 := by
  unfold tick at h
  obtain ⟨s1, h1, h⟩ := andThen_eq_next.mp h
  unfold afterDispatch at h
  obtain ⟨s2, h2, h⟩ := andThen_eq_next.mp h
  obtain ⟨s3, h3, h⟩ := andThen_eq_next.mp h
  cases h
  exact ⟨s1, s2, s3, h1, h2, h3, rfl⟩

/-- The steps before the dispatch change only `MCRO`, `NextInstruction`, `Extend_Next` and the latch `PIFL`. -/
theorem tickStart_eq (s : State) :
    tickStart s = { s with
      mcro := false
      nextInstruction := (tickStart s).nextInstruction
      extendNext := (tickStart s).extendNext
      pifl := (tickStart s).pifl } := by
  unfold tickStart clearPiflLatch clearFetchLatches clearMcro
  dsimp only
  split_ifs <;> rfl

/-- The host's channel writes change only the channel store and the batches still to come. -/
theorem applyHostWrites_eq (s : State) :
    applyHostWrites s = { s with
      chan := (applyHostWrites s).chan
      hostInputs := (applyHostWrites s).hostInputs } := by
  unfold applyHostWrites
  split_ifs
  · split
    · rfl
    · rfl
  · rfl

/-- The stage commit, field by field. -/
theorem commitStage_eq (s : State) :
    commitStage s = { s with
      st := s.stNext
      stNext := 0#2
      sq := if s.nextInstruction then opcodeOf s.cfg.params s.b else s.sq
      extend := if s.nextInstruction then s.extendNext else s.extend } := by
  unfold commitStage
  split <;> simp [*]

/-- The lookup always completes: it appends the entries of the decode key, and may emit a diagnostic. -/
theorem invokeNext_next (s : State) :
    ∃ ds, invokeNext s = .next { s with
      queue := s.queue ++ tableEntries s.cfg (decodeKeyOf s)
      diags := s.diags ++ ds } := by
  unfold invokeNext tableEntries
  cases buildTable s.cfg.isaDefs (decodeKeyOf s) with
  | some d => exact ⟨[], by simp [enqueue]⟩
  | none =>
    simp only [exec, execDefaultSkip]
    split
    · exact ⟨[], by simp [enqueue]⟩
    · exact ⟨_, rfl⟩

/-- The cycle boundary does nothing before T12. -/
theorem cycleStep_of_ne {s : State} (h : s.t ≠ 12) : cycleStep s = .next s := by
  simp [cycleStep, h]

/-- The cycle boundary always completes: at T12 the stage is committed, the entries of the key are appended and the divide latch
is cleared. -/
theorem cycleStep_of_eq {s : State} (h : s.t = 12) :
    ∃ ds, cycleStep s = .next { commitStage s with
      queue := s.queue ++ tableEntries s.cfg (decodeKeyOf (commitStage s))
      diags := s.diags ++ ds
      dvSequence := false } := by
  obtain ⟨ds, hds⟩ := invokeNext_next (commitStage s)
  refine ⟨ds, ?_⟩
  simp only [cycleStep, h, if_true, hds, andThen_next]
  rw [commitStage_eq]

end Sys2Proof.Machine
end

