-- ==== Sys2Proof/Laws/Exec.lean ====
section
/-! SUPPORT. What running an instruction, a pulse list or a dispatch leaves alone: the registers of the scheduler, the memories, the
configuration. Later proofs cite these instead of opening the meanings. -/

namespace Sys2Proof.Machine

/-- The fields that no row of the opcode table writes agree in two states. -/
structure SameKept (s t : State) : Prop where
  sTemp : t.sTemp = s.sTemp
  sq : t.sq = s.sq
  st : t.st = s.st
  extend : t.extend = s.extend
  time : t.t = s.t
  wba : t.wba = s.wba
  eMem : t.eMem = s.eMem
  fMem : t.fMem = s.fMem
  cfg : t.cfg = s.cfg
  hostInputs : t.hostInputs = s.hostInputs

theorem SameKept.refl (s : State) : SameKept s s := ⟨rfl, rfl, rfl, rfl, rfl, rfl, rfl, rfl, rfl, rfl⟩

theorem SameKept.trans {s t u : State} (h : SameKept s t) (k : SameKept t u) : SameKept s u :=
  ⟨k.sTemp.trans h.sTemp, k.sq.trans h.sq, k.st.trans h.st, k.extend.trans h.extend, k.time.trans h.time,
    k.wba.trans h.wba, k.eMem.trans h.eMem, k.fMem.trans h.fMem, k.cfg.trans h.cfg, k.hostInputs.trans h.hostInputs⟩

theorem sameKept_centralWrite (w : Word) (s : State) : SameKept s (centralWrite w s) := by
  rw [centralWrite_eq]
  exact ⟨rfl, rfl, rfl, rfl, rfl, rfl, rfl, rfl, rfl, rfl⟩

theorem sameKept_channelWrite (w : Word) (s : State) : SameKept s (channelWrite w s) := by
  rw [channelWrite_eq]
  exact ⟨rfl, rfl, rfl, rfl, rfl, rfl, rfl, rfl, rfl, rfl⟩

/-- `ZIP` writes the bus, `X`, `Y`, `CI`, `MCRO` and `G` only. -/
theorem execZip_eq {s t : State} (h : execZip s = .next t) :
    t = { s with wbus := t.wbus, x := t.x, y := t.y, ci := t.ci, mcro := t.mcro, g := t.g } := by
  unfold execZip at h
  dsimp only at h
  split at h
  · cases h
  · obtain ⟨u, hu, h⟩ := andThen_eq_next.mp h
    obtain ⟨v, hv, he⟩ := zipDoAction_next _ s
    rw [hu] at hv
    cases hv
    cases h
    rw [he]

/-- `RAD` writes the bus, `STNext`, `InhibitInterrupts` and `Extend_Next` only. -/
theorem execRad_eq {s t : State} (h : execRad s = .next t) :
    t = { s with
      wbus := t.wbus, stNext := t.stNext, inhibitInterrupts := t.inhibitInterrupts, extendNext := t.extendNext } := by
  unfold execRad at h
  split at h <;> cases h <;> rfl

/-- No row writes a field of `SameKept`. -/
theorem sameKept_exec {i : Instr} {s t : State} (h : exec i s = .next t) : SameKept s t := by
  cases i
  case wsc => cases h; exact sameKept_centralWrite _ s
  case wch => cases h; exact sameKept_channelWrite _ s
  case wg =>
    simp only [exec, execWg] at h
    split at h <;> cases h
    exact ⟨rfl, rfl, rfl, rfl, rfl, rfl, rfl, rfl, rfl, rfl⟩
  case zip => rw [execZip_eq h]; exact ⟨rfl, rfl, rfl, rfl, rfl, rfl, rfl, rfl, rfl, rfl⟩
  case rad => rw [execRad_eq h]; exact ⟨rfl, rfl, rfl, rfl, rfl, rfl, rfl, rfl, rfl, rfl⟩
  case trsm =>
    simp only [exec, execTrsm] at h
    split at h <;> cases h <;> exact ⟨rfl, rfl, rfl, rfl, rfl, rfl, rfl, rfl, rfl, rfl⟩
  case defaultSkip k e o =>
    simp only [exec, execDefaultSkip] at h
    split at h <;> cases h <;> exact ⟨rfl, rfl, rfl, rfl, rfl, rfl, rfl, rfl, rfl, rfl⟩
  all_goals cases h; exact ⟨rfl, rfl, rfl, rfl, rfl, rfl, rfl, rfl, rfl, rfl⟩

/-- No pulse writes the queue or emits a diagnostic. -/
theorem queue_exec {i : Instr} {s t : State} (hp : (pulseId i).isSome = true) (h : exec i s = .next t) :
    t.queue = s.queue ∧ t.diags = s.diags := by
  cases i
  case wsc => cases h; rw [centralWrite_eq]; exact ⟨rfl, rfl⟩
  case wch => cases h; rw [channelWrite_eq]; exact ⟨rfl, rfl⟩
  case wg =>
    simp only [exec, execWg] at h
    split at h <;> cases h
    exact ⟨rfl, rfl⟩
  case zip => rw [execZip_eq h]; exact ⟨rfl, rfl⟩
  case rad => rw [execRad_eq h]; exact ⟨rfl, rfl⟩
  case trsm =>
    simp only [exec, execTrsm] at h
    split at h <;> cases h <;> exact ⟨rfl, rfl⟩
  case defaultSkip k e o => cases hp
  case radRelint => cases hp
  case radInhint => cases hp
  case radExtend => cases hp
  all_goals cases h; exact ⟨rfl, rfl⟩

/-- The channel store changes by a stored channel taking the bus, or not at all. -/
theorem chan_exec {i : Instr} {s t : State} (h : exec i s = .next t) :
    t.chan = s.chan ∨ ∃ c : Channel, c ≠ 1#6 ∧ c ≠ 2#6 ∧ t.chan = memWrite s.chan c.toNat s.wbus := by
  cases i
  case wch =>
    cases h
    unfold channelWrite
    dsimp only
    split_ifs with h1 h2
    · exact .inl rfl
    · exact .inl rfl
    · exact .inr ⟨_, h1, h2, rfl⟩
  case wsc => cases h; rw [centralWrite_eq]; exact .inl rfl
  case wg =>
    simp only [exec, execWg] at h
    split at h <;> cases h
    exact .inl rfl
  case zip => rw [execZip_eq h]; exact .inl rfl
  case rad => rw [execRad_eq h]; exact .inl rfl
  case trsm =>
    simp only [exec, execTrsm] at h
    split at h <;> cases h <;> exact .inl rfl
  case defaultSkip k e o =>
    simp only [exec, execDefaultSkip] at h
    split at h <;> cases h <;> exact .inl rfl
  all_goals cases h; exact .inl rfl

/-- An id that decodes has a pulse, whose id it is. -/
theorem pulseId_of_decodePulse {id : PulseId} {i : Instr} (h : decodePulse id = .ok i) : pulseId i = some id := by
  have key : ∀ id : PulseId, (match decodePulse id with
      | .ok i => decide (pulseId i = some id)
      | .error _ => true) = true := by decide
  have := key id
  rw [h] at this
  exact of_decide_eq_true this

/-- What a pulse that completes is: a decoded instruction that completes. -/
theorem runPulse_next {id : PulseId} {s t : State} (h : runPulse id s = .next t) :
    ∃ i, decodePulse id = .ok i ∧ exec i s = .next t := by
  unfold runPulse at h
  split at h
  · exact ⟨_, by assumption, h⟩
  · cases h

/-- A property that every pulse carries over, a list carries over. -/
theorem runPulses_induct {P : State → State → Prop} (refl : ∀ s, P s s) (trans : ∀ s t u, P s t → P t u → P s u)
    (one : ∀ i s t, (pulseId i).isSome = true → exec i s = .next t → P s t) :
    ∀ (ids : List PulseId) (s t : State), runPulses ids s = .next t → P s t := by
  intro ids
  induction ids with
  | nil => intro s t h; cases h; exact refl s
  | cons id rest ih =>
    intro s t h
    rw [runPulses_cons] at h
    obtain ⟨u, h1, h2⟩ := andThen_eq_next.mp h
    obtain ⟨i, hi, he⟩ := runPulse_next h1
    exact trans s u t (one i s u (by rw [pulseId_of_decodePulse hi]; rfl) he) (ih u t h2)

/-- A central write leaves the bank registers within their widths. -/
theorem banks_centralWrite {w : Word} {s : State} (h : banksInForm s) : banksInForm (centralWrite w s) := by
  unfold centralWrite
  split
  case h_4 => exact ⟨lowBits_lt _ _, h.2⟩
  case h_5 => exact ⟨h.1, lowBits_lt _ _⟩
  case h_7 => exact ⟨lowBits_lt _ _, lowBits_lt _ _⟩
  all_goals exact h

/-- No row leaves a bit in a bank register above its width. -/
theorem banks_exec {i : Instr} {s t : State} (he : exec i s = .next t) (h : banksInForm s) : banksInForm t := by
  cases i
  case wsc => cases he; exact banks_centralWrite h
  case wch =>
    cases he
    show banksInForm (channelWrite s.wbus s)
    rw [channelWrite_eq]
    exact h
  case wg =>
    simp only [exec, execWg] at he
    split at he <;> cases he
    exact h
  case zip => rw [execZip_eq he]; exact h
  case rad => rw [execRad_eq he]; exact h
  case trsm =>
    simp only [exec, execTrsm] at he
    split at he <;> cases he <;> exact h
  case defaultSkip k e o =>
    simp only [exec, execDefaultSkip] at he
    split at he <;> cases he <;> exact h
  all_goals (cases he; exact h)

/-- The dispatch leaves the bank registers within their widths. -/
theorem banks_dispatch {s t : State} (hd : dispatch s = .next t) (h : banksInForm s) : banksInForm t := by
  rcases dispatch_cases hd with ⟨_, rfl⟩ | ⟨e, _, he⟩
  · exact h
  · exact runPulses_induct (P := fun s t => banksInForm s → banksInForm t) (fun _ h => h) (fun _ _ _ h k x => k (h x))
      (fun _ _ _ _ he h => banks_exec he h) _ _ _ he h

/-- A pulse list keeps the kept fields, the queue and the diagnostics. -/
theorem runPulses_kept {ids : List PulseId} {s t : State} (h : runPulses ids s = .next t) :
    SameKept s t ∧ t.queue = s.queue ∧ t.diags = s.diags :=
  runPulses_induct (P := fun s t => SameKept s t ∧ t.queue = s.queue ∧ t.diags = s.diags)
    (fun s => ⟨.refl s, rfl, rfl⟩)
    (fun _ _ _ h k => ⟨h.1.trans k.1, k.2.1.trans h.2.1, k.2.2.trans h.2.2⟩)
    (fun _ _ _ hp he => ⟨sameKept_exec he, queue_exec hp he⟩) ids s t h

/-- The dispatch keeps the kept fields and the diagnostics, and only removes from the queue. -/
theorem dispatch_kept {s t : State} (h : dispatch s = .next t) :
    SameKept s t ∧ t.queue = s.queue.filter (fun e => decide (e.n ≠ s.t)) ∧ t.diags = s.diags := by
  have hd : SameKept s (dropCollected s) := ⟨rfl, rfl, rfl, rfl, rfl, rfl, rfl, rfl, rfl, rfl⟩
  rcases dispatch_cases h with ⟨_, rfl⟩ | ⟨e, _, he⟩
  · exact ⟨hd, rfl, rfl⟩
  · obtain ⟨h1, h2, h3⟩ := runPulses_kept he
    exact ⟨hd.trans h1, h2, h3⟩

/-- The steps before the dispatch keep the kept fields but for the host's batches, the queue and the diagnostics. -/
theorem tickStart_kept (s : State) :
    let u := tickStart (applyHostWrites s)
    u.sTemp = s.sTemp ∧ u.sq = s.sq ∧ u.st = s.st ∧ u.extend = s.extend ∧ u.t = s.t ∧ u.wba = s.wba ∧
      u.eMem = s.eMem ∧ u.fMem = s.fMem ∧ u.cfg = s.cfg ∧ u.queue = s.queue ∧ u.diags = s.diags := by
  rw [tickStart_eq, applyHostWrites_eq]
  exact ⟨rfl, rfl, rfl, rfl, rfl, rfl, rfl, rfl, rfl, rfl, rfl⟩

end Sys2Proof.Machine
end

