-- ==== Sys2Proof/Laws/PerInstr.lean ====
section
/-! SUPPORT. The family RoundTrip: an instruction's own encoding decodes to it, with the spec's sentinel values. -/

namespace Sys2Proof.Laws.RoundTrip

/-- Decoding what the encoder writes gives the instruction back. -/
def Statement (i : Instr) : Prop :=
  decode Machine.specParams (encode Machine.specParams i) = .ok i

/-- The packed index of a stage key is read back. -/
theorem stageOfIndex_stageIndex (k : StageKey) : stageOfIndex (stageIndex k) = .ok k := by
  cases k with
  | normal s => revert s; decide
  | divide d => revert d; decide

theorem packKey_stage (k : Key) : (packKey k).extractLsb' 7 4 = stageIndex k.stage := by
  ext i hi
  simp only [packKey, BitVec.getElem_extractLsb']
  rw [BitVec.getLsbD_append, BitVec.getLsbD_append]
  have h1 : ¬ (7 + i < 6) := by omega
  have h2 : ¬ (7 + i - 6 < 1) := by omega
  simp [h1, h2, show 7 + i - 6 - 1 = i by omega, BitVec.getLsbD_eq_getElem hi]

theorem packKey_extend (k : Key) : (packKey k).getLsbD 6 = k.extend := by
  simp only [packKey]
  rw [BitVec.getLsbD_append, BitVec.getLsbD_append]
  simp

theorem packKey_opcode (k : Key) : (packKey k).extractLsb' 0 6 = k.opcode := by
  ext i hi
  simp only [packKey, BitVec.getElem_extractLsb']
  rw [BitVec.getLsbD_append]
  simp only [Nat.zero_add, hi, BitVec.getLsbD_eq_getElem hi, if_true]

/-- The packed key is read back as the default skip at that key. -/
theorem decodeKey_packKey (k : Key) : decodeKey (packKey k) = .ok (.defaultSkip k.stage k.extend k.opcode) := by
  simp only [decodeKey, packKey_stage, packKey_extend, packKey_opcode, stageOfIndex_stageIndex]

theorem ra : Statement .ra := rfl
theorem rb : Statement .rb := rfl
theorem rq : Statement .rq := rfl
theorem rz : Statement .rz := rfl
theorem rc : Statement .rc := rfl
theorem rg : Statement .rg := rfl
theorem rl : Statement .rl := rfl
theorem rsc : Statement .rsc := rfl
theorem wsc : Statement .wsc := rfl
theorem rch : Statement .rch := rfl
theorem wch : Statement .wch := rfl
theorem ru : Statement .ru := rfl
theorem rus : Statement .rus := rfl
theorem r1c : Statement .r1c := rfl
theorem rb1 : Statement .rb1 := rfl
theorem rstrt : Statement .rstrt := rfl
theorem wa : Statement .wa := rfl
theorem wb : Statement .wb := rfl
theorem wl : Statement .wl := rfl
theorem wq : Statement .wq := rfl
theorem wz : Statement .wz := rfl
theorem ws : Statement .ws := rfl
theorem wg : Statement .wg := rfl
theorem wals : Statement .wals := rfl
theorem wy : Statement .wy := rfl
theorem wy12 : Statement .wy12 := rfl
theorem wyd : Statement .wyd := rfl
theorem a2x : Statement .a2x := rfl
theorem monex : Statement .monex := rfl
theorem ponex : Statement .ponex := rfl
theorem ptwox : Statement .ptwox := rfl
theorem b15x : Statement .b15x := rfl
theorem ci : Statement .ci := rfl
theorem tsgn : Statement .tsgn := rfl
theorem tsgn2 : Statement .tsgn2 := rfl
theorem tmz : Statement .tmz := rfl
theorem tov : Statement .tov := rfl
theorem tpzg : Statement .tpzg := rfl
theorem trsm : Statement .trsm := rfl
theorem tl15 : Statement .tl15 := rfl
theorem st1 : Statement .st1 := rfl
theorem st2 : Statement .st2 := rfl
theorem nisq : Statement .nisq := rfl
theorem rad : Statement .rad := rfl
theorem zip : Statement .zip := rfl
theorem zap : Statement .zap := rfl
theorem g2ls : Statement .g2ls := rfl
theorem l2gd : Statement .l2gd := rfl
theorem neacon : Statement .neacon := rfl
theorem neacof : Statement .neacof := rfl
theorem pifl : Statement .pifl := rfl
theorem dvst : Statement .dvst := rfl
theorem stage : Statement .stage := rfl
theorem radRelint : Statement .radRelint := rfl
theorem radInhint : Statement .radInhint := rfl
theorem radExtend : Statement .radExtend := rfl
theorem defaultSkip (k : StageKey) (e : Bool) (o : Opcode) : Statement (.defaultSkip k e o) :=
  decodeKey_packKey { stage := k, extend := e, opcode := o }

end Sys2Proof.Laws.RoundTrip
end

