-- ==== Sys2Proof/Laws/Tick.lean ====
section
/-! SUPPORT. The step taken apart: what each part of a tick that goes on can have done. -/

namespace Sys2Proof.Machine

/-- A step that goes on, part by part: `u` is the state after the dispatch, in which the scheduler's own fields are as before the
step but for the entries the dispatch removed. -/
theorem step_cases {s t : State} (h : step s = .next t) :
    ∃ u u2 u3, dispatch (tickStart (applyHostWrites s)) = .next u ∧ readStep u = .next u2 ∧
      cycleStep (writeBackStep u2) = .next u3 ∧ t = tickEnd u3 ∧
      u.t = s.t ∧ u.queue = s.queue.filter (fun e => decide (e.n ≠ s.t)) ∧ u.cfg = s.cfg ∧ u.eMem = s.eMem ∧
      u.fMem = s.fMem ∧ u.wba = s.wba ∧ u.st = s.st ∧ u.sq = s.sq ∧ u.extend = s.extend ∧ u.sTemp = s.sTemp ∧
      u.diags = s.diags := by
  obtain ⟨u, u2, u3, h1, h2, h3, h4⟩ := tick_cases h
  obtain ⟨K, Q, D⟩ := dispatch_kept h1
  obtain ⟨a1, a2, a3, a4, a5, a6, a7, a8, a9, a10, a11⟩ := tickStart_kept s
  refine ⟨u, u2, u3, h1, h2, h3, h4, K.time.trans a5, ?_, K.cfg.trans a9, K.eMem.trans a7, K.fMem.trans a8,
    K.wba.trans a6, K.st.trans a3, K.sq.trans a2, K.extend.trans a4, K.sTemp.trans a1, D.trans a11⟩
  rw [Q, a5, a10]

/-- What the read step can have done. -/
theorem readStep_frame {u v : State} (h : readStep u = .next v) :
    (u.t ≠ 4 → v = u) ∧ v = { u with g := v.g, eMem := v.eMem, wba := v.wba } ∧
    (v.eMem = u.eMem ∧ v.wba = u.wba ∨
      ∃ i, u.t = 4 ∧ i < u.cfg.params.erasableWords ∧ v.eMem = memWrite u.eMem i 0x0000#16 ∧ v.wba = some i ∧
        v.g = doubleSignCompress (memRead u.eMem i) false) := by
  unfold readStep at h
  split at h
  · rename_i h4
    refine ⟨fun h => absurd h4 h, ?_⟩
    rcases memoryRead_cases h with ⟨_, rfl⟩ | ⟨i, _, hi, rfl⟩ | ⟨i, _, hi, rfl⟩
    · exact ⟨rfl, .inl ⟨rfl, rfl⟩⟩
    · exact ⟨rfl, .inr ⟨i, h4, hi, rfl, rfl, rfl⟩⟩
    · exact ⟨rfl, .inl ⟨rfl, rfl⟩⟩
  · cases h; exact ⟨fun _ => rfl, rfl, .inl ⟨rfl, rfl⟩⟩

/-- What the write-back step can have done. -/
theorem writeBackStep_frame (u : State) :
    (u.t ≠ 9 → writeBackStep u = u) ∧
    writeBackStep u = { u with eMem := (writeBackStep u).eMem, wba := (writeBackStep u).wba } ∧
    (u.t = 9 → (writeBackStep u).wba = none) := by
  unfold writeBackStep
  split
  · rename_i h9
    refine ⟨fun h => absurd h9 h, ?_⟩
    rcases writeBack_cases u with ⟨h, h'⟩ | ⟨i, h, h'⟩
    · rw [h']; exact ⟨rfl, fun _ => h⟩
    · rw [h']; exact ⟨rfl, fun _ => rfl⟩
  · rename_i h9; exact ⟨fun _ => rfl, rfl, fun h => absurd h h9⟩

/-- What the cycle boundary can have done. -/
theorem cycleStep_frame {u v : State} (h : cycleStep u = .next v) :
    (u.t ≠ 12 → v = u) ∧
    v = { u with
      st := v.st, stNext := v.stNext, sq := v.sq, extend := v.extend, queue := v.queue, diags := v.diags,
      dvSequence := v.dvSequence } ∧
    (u.t = 12 → v.queue = u.queue ++ tableEntries u.cfg
      { stage := if u.dvSequence then .divide u.dvStage else .normal v.st, extend := v.extend, opcode := v.sq }) := by
  by_cases h12 : u.t = 12
  · obtain ⟨ds, hd⟩ := cycleStep_of_eq h12
    rw [hd] at h
    cases h
    refine ⟨fun h => absurd h12 h, ?_, ?_⟩
    · rw [commitStage_eq]
    · intro _; rw [commitStage_eq]; rfl
  · rw [cycleStep_of_ne h12] at h; cases h
    exact ⟨fun _ => rfl, rfl, fun h => absurd h h12⟩

end Sys2Proof.Machine
end

