-- ==== Sys2Proof/Tests/Slice0.lean ====
section
/-! SUPPORT. Tests: words written out from the encoding tables, the checks on what the host supplies, single pulses on the spec's
examples (the rules' own, repeated in 95_test_vectors), single ticks, and for every statement with hypotheses a state that meets them. -/

namespace Sys2Proof.Tests

open Sys2Proof.Machine

/-! ### Decoding (30_encoding R122, R104, R105) -/

theorem test_decode_bus_read :
    decodeTableWord 8 0b00000000 = some .ra ∧
    decodeTableWord 8 0b00000001 = some .rb ∧
    decodeTableWord 8 0b00000010 = some .rq ∧
    decodeTableWord 8 0b00000011 = some .rz ∧
    decodeTableWord 8 0b00000100 = some .rc ∧
    decodeTableWord 8 0b00000101 = some .rg ∧
    decodeTableWord 8 0b00000110 = some .rl ∧
    decodeTableWord 8 0b00000111 = some .rsc ∧
    decodeTableWord 8 0b00001001 = some .rch ∧
    decodeTableWord 8 0b00001011 = some .ru ∧
    decodeTableWord 8 0b00001100 = some .rus ∧
    decodeTableWord 8 0b00001101 = some .r1c ∧
    decodeTableWord 8 0b00001110 = some .rb1 ∧
    decodeTableWord 8 0b00001111 = some .rstrt := by decide

theorem test_decode_bus_write :
    decodeTableWord 8 0b00010000 = some .wa ∧
    decodeTableWord 8 0b00010001 = some .wb ∧
    decodeTableWord 8 0b00010010 = some .wl ∧
    decodeTableWord 8 0b00010011 = some .wq ∧
    decodeTableWord 8 0b00010100 = some .wz ∧
    decodeTableWord 8 0b00010101 = some .ws ∧
    decodeTableWord 8 0b00010110 = some .wg ∧
    decodeTableWord 8 0b00001000 = some .wsc ∧
    decodeTableWord 8 0b00001010 = some .wch ∧
    decodeTableWord 8 0b00010111 = some .wals := by decide

theorem test_decode_adder_setup :
    decodeTableWord 8 0b00011000 = some .wy ∧
    decodeTableWord 8 0b00011001 = some .wy12 ∧
    decodeTableWord 8 0b00011010 = some .wyd ∧
    decodeTableWord 8 0b00011011 = some .a2x ∧
    decodeTableWord 8 0b00011100 = some .monex ∧
    decodeTableWord 8 0b00011101 = some .ponex ∧
    decodeTableWord 8 0b00011110 = some .ptwox ∧
    decodeTableWord 8 0b00011111 = some .b15x ∧
    decodeTableWord 8 0b00100000 = some .ci := by decide

theorem test_decode_branch_test :
    decodeTableWord 8 0b00100001 = some .tsgn ∧
    decodeTableWord 8 0b00100010 = some .tsgn2 ∧
    decodeTableWord 8 0b00100011 = some .tmz ∧
    decodeTableWord 8 0b00100100 = some .tov ∧
    decodeTableWord 8 0b00100101 = some .tpzg ∧
    decodeTableWord 8 0b00100110 = some .trsm ∧
    decodeTableWord 8 0b00100111 = some .tl15 := by decide

theorem test_decode_stage_flow :
    decodeTableWord 8 0b00101000 = some .st1 ∧
    decodeTableWord 8 0b00101001 = some .st2 ∧
    decodeTableWord 8 0b00101010 = some .nisq ∧
    decodeTableWord 8 0b00101011 = some .rad := by decide

theorem test_decode_compound :
    decodeTableWord 8 0b00101100 = some .zip ∧
    decodeTableWord 8 0b00101101 = some .zap ∧
    decodeTableWord 8 0b00101110 = some .g2ls ∧
    decodeTableWord 8 0b00101111 = some .l2gd := by decide

theorem test_decode_supplementary :
    decodeTableWord 8 0b00110000 = some .neacon ∧
    decodeTableWord 8 0b00110001 = some .neacof ∧
    decodeTableWord 8 0b00110010 = some .pifl ∧
    decodeTableWord 8 0b00110011 = some .dvst ∧
    decodeTableWord 8 0b00110100 = some .stage := by decide

theorem test_decode_sentinels :
    decodeTableWord 16 0b0000000000000011 = some .radRelint ∧
    decodeTableWord 16 0b0000000000000100 = some .radInhint ∧
    decodeTableWord 16 0b0000000000000110 = some .radExtend := by decide

/-- The packed key is `kkkkeoooooo`: `N(2)`, extend 1, opcode 6; then `D(0)` and `D(7)`. -/
theorem test_decode_default_skip :
    decodeTableWord 16 0b0000000101000110 = some (.defaultSkip (.normal 2#2) true 0b000110#6) ∧
    decodeTableWord 16 0b0000001000100001 = some (.defaultSkip (.divide 0#3) false 0b100001#6) ∧
    decodeTableWord 16 0b0000010111111111 = some (.defaultSkip (.divide 7#3) true 0b111111#6) := by decide

/-- Ids 53 and 63 are reserved; stage index 12 is none of the twelve keys. -/
theorem test_decode_rejects :
    decodePulse 53#6 = .error (.reservedPulse 53#6) ∧ decodePulse 63#6 = .error (.reservedPulse 63#6) ∧
    decodeWord specParams 0xC006#16 = .error (.ordinaryWord 0xC006#16) ∧
    decodeKey 0b11000000000#11 = .error (.badStageKey 12#4) := by decide

/-- The opcode bits of 0x3808 are octal 16; those of 0xC000 have the top bit and bit 5 (R101, R102). -/
theorem test_opcode_bits :
    opcodeOf specParams 0x3808#16 = 0b011100#6 ∧ opcodeOf specParams 0x8000#16 = 0b100000#6 ∧ opcodeOf specParams 0x4000#16 = 0#6 ∧
    addressOf 0x3808#16 = 0x808#12 := by decide

/-! ### What the builder refuses (R115, R116) -/

/-- A definition in form, with two alternatives at T3. -/
def goodDef : RawDef where
  stage := 0
  extend := 0
  pattern := ['0', '1', '1', 'x', 'x', 'x']
  name := "GOOD"
  entries := [{ n := 2, pulses := [7#6, 22#6] }, { n := 3, pulses := [] }, { n := 3, pulses := [52#6] }]

theorem test_wf_good : rawDefWf goodDef = true ∧ (buildDef goodDef).toBool = true := by decide

theorem test_wf_pulse_number :
    rawDefWf { goodDef with entries := [{ n := 0, pulses := [] }] } = false ∧
    rawDefWf { goodDef with entries := [{ n := 13, pulses := [] }] } = false ∧
    buildDef { goodDef with entries := [{ n := 13, pulses := [] }] } =
      .error (.badPulseNumber (.definition { goodDef with entries := [{ n := 13, pulses := [] }] }) 13) := by decide

theorem test_wf_alternatives :
    rawDefWf { goodDef with entries := List.replicate 3 { n := 4, pulses := [] } } = false ∧
    (buildDef { goodDef with entries := List.replicate 3 { n := 4, pulses := [] } }).toBool = false ∧
    entriesRefusal (.bootstrap (List.replicate 3 { n := 4, pulses := [] })) =
      some (.badAlternativeCount (.bootstrap (List.replicate 3 { n := 4, pulses := [] })) 4) ∧
    rawDefWf { goodDef with entries := List.replicate 5 { n := 4, pulses := [] } } = false ∧
    entriesRefusal (.defaultSkip (List.replicate 5 { n := 4, pulses := [] })) =
      some (.branchCollision (.defaultSkip (List.replicate 5 { n := 4, pulses := [] })) 4 5) := by decide

theorem test_wf_reserved_pulse :
    rawDefWf { goodDef with entries := [{ n := 1, pulses := [53#6] }] } = false ∧
    buildDef { goodDef with entries := [{ n := 1, pulses := [53#6] }] } =
      .error (.reservedPulse (.definition { goodDef with entries := [{ n := 1, pulses := [53#6] }] }) 53#6) := by decide

theorem test_wf_pattern :
    rawDefWf { goodDef with pattern := ['0', '1', '1', 'x', 'x'] } = false ∧
    rawDefWf { goodDef with pattern := ['0', '1', '1', 'x', 'x', '2'] } = false ∧
    buildDef { goodDef with pattern := ['0', '1', '1', 'x', 'x'] } =
      .error (.badDefinition { goodDef with pattern := ['0', '1', '1', 'x', 'x'] }) := by decide

theorem test_wf_stage_and_extend :
    rawDefWf { goodDef with stage := 12 } = false ∧ rawDefWf { goodDef with extend := 2 } = false ∧
    buildDef { goodDef with stage := 12 } = .error (.badDefinition { goodDef with stage := 12 }) ∧
    buildDef { goodDef with extend := 2 } = .error (.badDefinition { goodDef with extend := 2 }) := by decide

/-- The image and the block initialisation: one byte too many, a cell beyond the array, an image too long; and a layout with a
range of two bits on one side and one on the other. -/
theorem test_create_refusals :
    create { specSupply with image := [0x12#8] } = .error .imageOddLength ∧
    create { specSupply with erasableInit := [(2048, 1#16)] } = .error (.erasableInitRange 2048) ∧
    create { specSupply with params := { specParams with fixedWords := 1 }, image := [1#8, 2#8, 3#8, 4#8] } =
      .error (.imageTooLong 2) ∧
    create { specSupply with params := { specParams with bbLayout := [⟨1, 2, 1, 1⟩] } } =
      .error (.copyBitsRange ⟨1, 2, 1, 1⟩) := by decide

/-- What was written is what is built: a divide stage, an extend value and a pattern. -/
theorem test_build :
    buildDefs [{ goodDef with stage := 11, extend := 1 }] = .ok [{
      stage := .divide 7#3, extend := true, mask := 0b111000#6, value := 0b011000#6, name := "GOOD",
      entries := goodDef.entries }] := by decide

theorem test_create_default : create specSupply = .ok State.reset := by decide

/-! ### Single pulses -/

/-- One field of the state a pulse list leaves, run on a state. -/
def after {α : Type} (is : List Instr) (s : State) (f : State → α) : Option α :=
  match runPulses (pulseIds is) s with
  | .next t => some (f t)
  | .fault _ => none
  | .refused _ => none

/-- The next state of an outcome. -/
def nextOf (o : Host.Outcome State Fault Refusal) : Option State :=
  match o with
  | .next t => some t
  | .fault _ => none
  | .refused _ => none

/-- The fault of an outcome. -/
def faultOf (o : Host.Outcome State Fault Refusal) : Option Fault :=
  match o with
  | .next _ => none
  | .fault f => some f
  | .refused _ => none

/-- The reset state with `EDIT_23` supplied as the source reads it literally. -/
def supplied : State := { State.reset with cfg := { specConfig with edit23 := some .src } }

theorem test_ra :
    after [.ra] { State.reset with a := 0x1234#16 } State.wbus = some 0x1234#16 ∧
    after [.ra, .rb] { State.reset with a := 0x00F0#16, b := 0x0F01#16 } State.wbus = some 0x0FF1#16 := by decide

theorem test_rb :
    after [.rb] { State.reset with b := 0x3808#16 } State.wbus = some 0x3808#16 := by decide

theorem test_rq :
    after [.rq, .rz] { State.reset with q := 0x8000#16, z := 0x0801#16 } State.wbus = some 0x8801#16 := by decide

theorem test_rz :
    after [.rz] { State.reset with z := 0x0801#16 } State.wbus = some 0x0801#16 := by decide

theorem test_rc :
    after [.rc] { State.reset with b := 0x000D#16 } State.wbus = some 0xFFF2#16 ∧
    after [.rb, .rc] { State.reset with b := 0x1234#16 } State.wbus = some 0xFFFF#16 := by decide

theorem test_rg :
    after [.rg] { State.reset with g := 0x3808#16 } State.wbus = some 0x3808#16 := by decide

theorem test_rl :
    after [.rl] { State.reset with l := 0x8001#16 } State.wbus = some 0xC001#16 ∧
    after [.rl] { State.reset with l := 0x7FFF#16 } State.wbus = some 0x3FFF#16 := by decide

theorem test_rsc :
    after [.rsc] { State.reset with sReg := 3, eb := 5 } State.wbus = some 0x0500#16 ∧
    after [.rsc] { State.reset with sReg := 4, fb := 21 } State.wbus = some 0xD400#16 ∧
    after [.rsc] { State.reset with sReg := 6, eb := 5, fb := 21 } State.wbus = some 0xD405#16 ∧
    after [.rsc] { State.reset with sReg := 7, a := 0xFFFF#16, l := 0xFFFF#16 } State.wbus = some 0x0000#16 := by decide

theorem test_rch :
    after [.rch] { State.reset with sReg := 0o1001, l := 0x4001#16 } State.wbus = some 0x4001#16 ∧
    after [.rch] { State.reset with sReg := 7, chan := [(7, 0x1234#16)] } State.wbus = some 0x1234#16 := by decide

theorem test_ru :
    after [.ru] { State.reset with x := 0x0005#16, y := 0x0007#16 } State.wbus = some 0x000C#16 ∧
    after [.ru] { State.reset with y := 0x0800#16, ci := true } State.wbus = some 0x0801#16 := by decide

theorem test_rus :
    after [.rus] { State.reset with x := 0x4000#16 } State.wbus = some 0xC000#16 ∧
    after [.rus] { State.reset with x := 0xBFFF#16 } State.wbus = some 0x3FFF#16 := by decide

theorem test_r1c :
    after [.ra, .r1c] { State.reset with a := 0x1234#16 } State.wbus = some 0xFFFE#16 ∧
    after [.r1c, .ra] { State.reset with a := 0x0001#16 } State.wbus = some 0xFFFF#16 := by decide

theorem test_rb1 :
    after [.ra, .rb1] { State.reset with a := 0x1234#16 } State.wbus = some 0x0001#16 := by decide

theorem test_rstrt :
    after [.rstrt, .ws, .wb] State.reset (fun t => (t.sReg, t.b)) = some (0x800#12, 0x0800#16) := by decide

theorem test_wa :
    after [.rb, .wa] { State.reset with b := 0x0005#16 } State.a = some 0x0005#16 := by decide

theorem test_wb :
    after [.rg, .wb] { State.reset with g := 0x3808#16 } State.b = some 0x3808#16 ∧
    after [.wb, .ra] { State.reset with a := 0x1111#16, b := 0x2222#16 } State.b = some 0x0000#16 := by decide

theorem test_wl :
    after [.ra, .wl] { State.reset with a := 0x8001#16 } State.l = some 0x8001#16 := by decide

theorem test_wq :
    after [.rz, .wq] { State.reset with z := 0x0801#16 } State.q = some 0x0801#16 := by decide

theorem test_wz :
    after [.ru, .wz] { State.reset with y := 0x0800#16, ci := true } State.z = some 0x0801#16 := by decide

theorem test_ws :
    after [.ra, .ws] { State.reset with a := 0xF123#16 } State.sReg = some 0x123#12 := by decide

theorem test_wg_edits :
    after [.ra, .wg] { State.reset with a := 0x8001#16, sReg := 0o20 } State.g = some 0xE000#16 ∧
    after [.ra, .wg] { State.reset with a := 0x8001#16, sReg := 0o21 } State.g = some 0xE000#16 ∧
    after [.ra, .wg] { State.reset with a := 0x8001#16, sReg := 0o22 } State.g = some 0x0003#16 ∧
    after [.ra, .wg] { State.reset with a := 0x8000#16, sReg := 0o24 } State.g = some 0x8000#16 := by decide

theorem test_wg_fourth :
    faultOf (exec .wg { State.reset with sReg := 0o23, wbus := 5 }) =
      some (.edit23Unspecified 5 { State.reset with sReg := 0o23, wbus := 5 }) ∧
    after [.ra, .wg] { supplied with a := 0x6001#16, sReg := 0o23 } State.g = some 0xC002#16 := by decide

theorem test_wsc :
    after [.ra, .wsc] { State.reset with a := 0x1402#16, sReg := 6 } (fun t => (t.eb, t.fb)) = some (2#16, 5#16) ∧
    after [.ra, .wsc] { State.reset with a := 0x4000#16, sReg := 4, fb := 31 } State.fb = some 0#16 := by decide

theorem test_wch :
    after [.ra, .wch] { State.reset with a := 0x00FF#16, sReg := 0o1007 } State.chan = some [(7, 0x00FF#16)] ∧
    after [.ra, .wch] { State.reset with a := 0x00FF#16, sReg := 1 } (fun t => (t.l, t.chan)) = some (0x00FF#16, []) := by decide

theorem test_wals :
    after [.rb, .wals] { State.reset with b := 0x7FFE#16, g := 0x8000#16, l := 0xFFFF#16 } (fun t => (t.a, t.l)) = some (0xDFFF#16, 0xEFFF#16) ∧
    after [.rb, .wals] { State.reset with b := 0xFFFF#16, g := 0x0001#16 } (fun t => (t.a, t.l)) = some (0xFFFF#16, 0x3000#16) := by decide

theorem test_wy :
    after [.rb, .wy] { State.reset with b := 0xF00F#16, x := 0x1111#16, ci := true } (fun t => (t.x, t.y, t.ci)) =
      some (0x0000#16, 0xF00F#16, false) := by decide

theorem test_wy12 :
    after [.ci, .rb, .wy12] { State.reset with b := 0xF00F#16 } (fun t => (t.y, t.ci)) = some (0x000F#16, false) := by decide

theorem test_wyd :
    after [.rb, .wyd] { State.reset with b := 0x8001#16 } State.y = some 0x8003#16 ∧
    after [.rb, .wyd] { State.reset with b := 0x8001#16, noEAC := true } State.y = some 0x8002#16 ∧
    after [.rb, .wyd] { State.reset with b := 0x8001#16, dvStage := 1 } State.y = some 0x8002#16 ∧
    after [.rb, .wyd] { State.reset with b := 0x8001#16, pifl := true, l := 0x4000#16 } State.y = some 0x8002#16 ∧
    after [.rb, .wyd] { State.reset with b := 0x8001#16, l := 0x4000#16 } State.y = some 0x8003#16 := by decide

theorem test_a2x :
    after [.ponex, .a2x] { State.reset with a := 0x0004#16 } State.x = some 0x0004#16 := by decide

theorem test_force_x :
    after [.monex] { State.reset with x := 0x0001#16 } State.x = some 0xFFFF#16 ∧
    after [.ponex] { State.reset with x := 0x8000#16 } State.x = some 0x8001#16 ∧
    after [.ptwox] { State.reset with x := 0x0001#16 } State.x = some 0x0003#16 ∧
    after [.b15x] { State.reset with x := 0x0001#16 } State.x = some 0x4001#16 := by decide

theorem test_ci :
    after [.rz, .wy12, .ci] { State.reset with z := 0x0800#16 } adderOut = some 0x0801#16 := by decide

theorem test_tsgn :
    after [.ra, .tsgn] { State.reset with a := 0x8000#16 } State.br1 = some true ∧
    after [.ra, .tsgn] { State.reset with a := 0x4000#16, br1 := true } State.br1 = some false := by decide

theorem test_tsgn2 :
    after [.ra, .tsgn2] { State.reset with a := 0x8000#16 } (fun t => (t.br1, t.br2)) = some (false, true) := by decide

theorem test_tmz :
    after [.ra, .tmz] { State.reset with a := 0xFFFF#16 } State.br2 = some true ∧
    after [.ra, .tmz] { State.reset with a := 0xBFFF#16, br2 := true } State.br2 = some false := by decide

theorem test_tov :
    after [.ra, .tov] { State.reset with a := 0x7FFF#16 } (fun t => (t.br1, t.br2)) = some (false, true) ∧
    after [.ra, .tov] { State.reset with a := 0xBFFF#16 } (fun t => (t.br1, t.br2)) = some (true, false) ∧
    after [.ra, .tov] { State.reset with a := 0xC000#16 } (fun t => (t.br1, t.br2)) = some (false, false) := by decide

theorem test_tpzg :
    after [.ra, .tmz, .tpzg] { State.reset with a := 0xFFFF#16, g := 0xFFFF#16 } State.br2 = some false ∧
    after [.tpzg] State.reset State.br2 = some true := by decide

theorem test_trsm :
    after [.trsm] { State.reset with sReg := 0o17, stNext := 1 } State.stNext = some 3#2 ∧
    after [.trsm] { State.reset with sReg := 0o16, stNext := 1 } State.stNext = some 1#2 := by decide

theorem test_tl15 :
    after [.tl15] { State.reset with l := 0x4000#16 } State.br1 = some true ∧
    after [.tl15] { State.reset with l := 0xBFFF#16, br1 := true } State.br1 = some false := by decide

theorem test_st1_st2 :
    after [.st1] State.reset State.stNext = some 1#2 ∧
    after [.st1, .st2] State.reset State.stNext = some 3#2 := by decide

theorem test_nisq :
    after [.nisq] { State.reset with inhibitInterrupts := true } (fun t => (t.nextInstruction, t.inhibitInterrupts)) = some (true, false) := by decide

theorem test_rad :
    after [.rad, .wb, .ws] { State.reset with z := 0x0801#16, g := 0x0006#16 } (fun t => (t.b, t.sReg, t.stNext, t.extendNext)) =
      some (0x0801#16, 0x801#12, 2#2, true) ∧
    after [.rad] { State.reset with z := 0x0801#16, g := 0xC006#16 } (fun t => (t.wbus, t.stNext)) = some (0xC006#16, 0#2) := by decide

/-- The three sentinel rows, each run as `RAD` runs it (45_stage_flow R233). -/
theorem test_sentinels :
    nextOf (exec .radRelint { State.reset with g := 3, z := 0x0801#16, inhibitInterrupts := true }) =
      some { State.reset with g := 3, z := 0x0801#16, wbus := 0x0801#16, stNext := 2 } ∧
    nextOf (exec .radInhint State.reset) = some { State.reset with inhibitInterrupts := true, stNext := 2 } ∧
    nextOf (exec .radExtend State.reset) = some { State.reset with extendNext := true, stNext := 2 } := by decide

theorem test_zip :
    after [.zip] { State.reset with l := 0x4002#16, a := 0x0100#16, b := 0x0003#16 } (fun t => (t.x, t.y, t.ci, t.mcro, t.g)) =
      some (0x0100#16, 0xFFFC#16, true, true, 0x0005#16) ∧
    after [.zip] { State.reset with l := 0x0002#16, a := 0x0100#16, b := 0x0003#16 } (fun t => (t.y, t.g, t.mcro)) = some (0x0006#16, 0x0004#16, false) := by decide

theorem test_zip_invalid :
    faultOf (exec .zip { State.reset with cfg := { specConfig with zipTable := [] }, l := 3 }) =
      some (.zipInvalid 3 3 { State.reset with cfg := { specConfig with zipTable := [] }, l := 3 }) := by decide

theorem test_zap :
    after [.zap] { State.reset with x := 0xFFF0#16, g := 0x8009#16, l := 0x3000#16 } (fun t => (t.wbus, t.a, t.l)) =
      some (0xFFF0#16, 0xFFFC#16, 0xC001#16) := by decide

theorem test_g2ls :
    after [.g2ls] { State.reset with g := 0x8009#16 } State.l = some 0xC001#16 ∧
    after [.g2ls] { State.reset with l := 0xFFFF#16 } State.l = some 0x3000#16 := by decide

theorem test_l2gd :
    after [.l2gd] { State.reset with l := 0x8001#16 } State.g = some 0x8002#16 ∧
    after [.l2gd] { State.reset with l := 0x4000#16, mcro := true } State.g = some 0x0001#16 := by decide

theorem test_supplementary :
    after [.neacon] { State.reset with x := 0xFFFF#16, y := 1 } adderOut = some 0x0000#16 ∧
    after [.neacon, .neacof] State.reset State.noEAC = some false ∧
    after [.pifl, .rb, .wyd] { State.reset with l := 0x4000#16, b := 0x8001#16 } State.y = some 0x8002#16 ∧
    after [.dvst] { State.reset with dvStage := 5 } State.dvStage = some 2#3 ∧
    after [.stage] State.reset State.dvSequence = some true := by decide

theorem test_default_skip :
    nextOf (exec (.defaultSkip (.normal 2#2) false 0#6) State.reset) = some { State.reset with queue := defaultSkipEntries } ∧
    nextOf (exec (.defaultSkip (.normal 0#2) false 5#6) { State.reset with b := 0x1400#16, z := 0x0801#16 }) =
      some { State.reset with
        b := 0x1400#16, z := 0x0801#16, queue := defaultSkipEntries
        diags := [{ b := 0x1400#16, sq := 5#6, stage := .normal 0#2, extend := false, z := 0x0801#16 }] } := by decide

/-! ### Primitives, flags and single ticks -/

theorem test_copy_bits :
    copyBits 0xABCD#16 0xFFFF#16 1 4 5 8 .clearAll = 0x00D0#16 ∧
    copyBits 0xABCD#16 0xFFFF#16 1 4 5 8 .clearChanged = 0xFFDF#16 ∧
    copyBits 0xABCD#16 0x0F00#16 1 4 5 8 .clearNone = 0x0FD0#16 := by decide

theorem test_double_sign :
    doubleSignExpand 0xBFFF#16 = 0x3FFF#16 ∧ doubleSignCompress 0xBFFF#16 false = 0xFFFF#16 ∧
    doubleSignCompress 0xBFFF#16 true = 0x7FFF#16 ∧ doubleSignCompress 0x4005#16 false = 0x0005#16 := by decide

/-- One field of the state one tick leaves. -/
def tickThen {α : Type} (s : State) (f : State → α) : Option α :=
  match step s with
  | .next t => some (f t)
  | .fault _ => none
  | .refused _ => none

/-- The T4 read of an erasable cell (20_memory R80, R81): compressed into `G`, zeroed, remembered. -/
theorem test_t4_read :
    tickThen { State.reset with t := 4, sReg := 0o100, eMem := [(64, 0xBFFF#16)] } (fun t => (t.g, t.eMem, t.wba)) =
      some (0xFFFF#16, [], some 64) := by decide

/-- The T9 write-back goes to the remembered cell whatever `S` holds (R82). -/
theorem test_t9_write_back :
    tickThen { State.reset with t := 9, sReg := 0o100, g := 0x4005#16, wba := some 3 } (fun t => (t.eMem, t.wba, t.t)) =
      some ([(3, 0x4005#16)], none, 10) := by decide

/-- Two alternatives with the branch register at 1, then at 2 (48_scheduler R266). -/
theorem test_dispatch :
    tickThen { State.reset with t := 3, br2 := true, queue := [{ n := 3, pulses := pulseIds [.st1] }, { n := 3, pulses := pulseIds [.st2] }] }
      (fun t => (t.stNext, t.queue)) = some (2#2, []) ∧
    faultOf (step { State.reset with t := 3, br1 := true, queue := [{ n := 3, pulses := [] }, { n := 3, pulses := [] }] }) =
      some (.branchIndexOutOfRange 3 2 2 { State.reset with t := 3, br1 := true }) := by decide

/-- The first instruction after reset is the one placed for the fetch: `RZ`, the inhibit sentinel, a default skip. -/
theorem test_with_fetch_word :
    tickThen (State.reset.withFetchWord 8 0b00101010) State.nextInstruction = some true ∧
    tickThen (State.reset.withFetchWord 16 4) State.inhibitInterrupts = some true ∧
    tickThen (State.reset.withFetchWord 16 0b0000000100000000) (fun t => (t.queue, t.diags)) = some (defaultSkipEntries, []) := by decide

/-- The word read from a memory cell just written (the small laws of Memory.lean, on one case). -/
theorem test_memory :
    memRead (memWrite [(1, 5#16), (9, 7#16)] 4 6#16) 4 = 6#16 ∧ memWrite [(1, 5#16), (9, 7#16)] 9 0#16 = [(1, 5#16)] ∧
    memWf (memWrite [(1, 5#16), (9, 7#16)] 4 6#16) = true := by decide

/-! ### Witnesses: for each statement with hypotheses, concrete states and operands that meet them -/

/-- An outcome goes on. -/
def goesOn (o : Host.Outcome State Fault Refusal) : Bool := (nextOf o).isSome

/-- A state in form at a time pulse, with an address in `S`. -/
def at_ (t : Nat) (s : Addr) : State := { State.reset with t := t, sReg := s }

theorem test_witness_CreationInForm :
    (create { specSupply with image := [0x12#8, 0x34#8], bootstrap := bootstrapGOJ1, erasableInit := [(2047, 1#16)] }).toBool
      = true := by decide

theorem test_witness_BuilderAcceptsExactlyTheWellFormed :
    (buildDefs [goodDef, { goodDef with stage := 4 }]).toBool = true ∧
    buildDefs [goodDef, { goodDef with stage := 12 }] = .error (.badDefinition { goodDef with stage := 12 }) := by decide

theorem test_witness_DecodeEncodeAgree :
    specParams.radRelint ≠ specParams.radInhint ∧ specParams.radRelint ≠ specParams.radExtend ∧
    specParams.radInhint ≠ specParams.radExtend ∧ decode specParams (.pulse 52#6) = .ok .stage := by decide

theorem test_witness_DecoderRejects : 53 ≤ (53#6 : PulseId).toNat ∧ (52#6 : PulseId).toNat < 53 := by decide

theorem test_witness_RscReadsTheCentralRegister :
    State.reset.cfg.params = specParams ∧
    goesOn (exec .rsc (at_ 1 0#12)) = true ∧ goesOn (exec .rsc (at_ 1 1#12)) = true ∧
    goesOn (exec .rsc (at_ 1 2#12)) = true ∧ goesOn (exec .rsc (at_ 1 3#12)) = true ∧
    goesOn (exec .rsc (at_ 1 4#12)) = true ∧ goesOn (exec .rsc (at_ 1 5#12)) = true ∧
    goesOn (exec .rsc (at_ 1 6#12)) = true ∧ goesOn (exec .rsc (at_ 1 7#12)) = true ∧
    goesOn (exec .rsc (at_ 1 4095#12)) = true := by decide

theorem test_witness_WgCopiesOrEdits :
    (at_ 1 0o23).cfg.params = specParams ∧ (at_ 1 0o23).cfg.edit23 = none ∧
    goesOn (exec .wg (at_ 1 0o20#12)) = true ∧ goesOn (exec .wg (at_ 1 0o21#12)) = true ∧
    goesOn (exec .wg (at_ 1 0o22#12)) = true ∧ goesOn (exec .wg (at_ 1 0o17#12)) = true ∧
    goesOn (exec .wg (at_ 1 0o24#12)) = true ∧ goesOn (exec .wg (at_ 1 0#12)) = true ∧
    goesOn (exec .wg (at_ 1 0o7777#12)) = true ∧
    (∀ e ∈ [Edit23.src, .gk],
      goesOn (exec .wg { at_ 1 0o23 with cfg := { specConfig with edit23 := some e } }) = true) := by decide

theorem test_witness_WgCopiesOrEdits_host :
    ({ specConfig with edit23 := some (.host 0) } : Config).edit23 = some (.host 0) ∧
    ({ specConfig with edit23 := some (.host 0) } : Config).params = specParams := by decide

theorem test_witness_WscWritesTheCentralRegister :
    State.reset.cfg.params = specParams ∧
    goesOn (exec .wsc (at_ 1 0#12)) = true ∧ goesOn (exec .wsc (at_ 1 1#12)) = true ∧
    goesOn (exec .wsc (at_ 1 2#12)) = true ∧ goesOn (exec .wsc (at_ 1 3#12)) = true ∧
    goesOn (exec .wsc (at_ 1 4#12)) = true ∧ goesOn (exec .wsc (at_ 1 5#12)) = true ∧
    goesOn (exec .wsc (at_ 1 6#12)) = true ∧ goesOn (exec .wsc (at_ 1 7#12)) = true ∧
    goesOn (exec .wsc (at_ 1 4095#12)) = true := by decide

theorem test_witness_WchWritesTheChannel :
    (at_ 1 0o1001).sReg.toNat % 64 = 1 ∧ (at_ 1 0o7702).sReg.toNat % 64 = 2 ∧ (at_ 1 0).sReg.toNat % 64 = 0 ∧
    (at_ 1 3).sReg.toNat % 64 = 3 ∧ (at_ 1 0o77).sReg.toNat % 64 = 63 ∧ memWf (at_ 1 3).chan = true := by decide

theorem test_witness_WalsSplitsTheBus :
    State.reset.cfg.params = specParams ∧ bit State.reset.g 1 = false ∧ bit ({ State.reset with g := 1 } : State).g 1 = true := by
  decide

/-- `WYD` blocked by each condition alone, and by none although `PIFL` or `L[15]` is set alone. -/
theorem test_witness_WydDoublesTheBus :
    wydBlocked { State.reset with noEAC := true } = true ∧ wydBlocked { State.reset with dvStage := 1 } = true ∧
    wydBlocked { State.reset with dvStage := 7 } = true ∧
    wydBlocked { State.reset with pifl := true, l := 0x4000#16 } = true ∧
    wydBlocked { State.reset with pifl := true } = false ∧ wydBlocked { State.reset with l := 0x4000#16 } = false := by decide

theorem test_witness_BranchTests :
    specConfig.params.tpzgSetOnly = false ∧ ({ specParams with tpzgSetOnly := true } : Params).tpzgSetOnly = true ∧
    (bit 0x7FFF#16 16 = false ∧ bit 0x7FFF#16 15 = true) ∧ (bit 0xBFFF#16 16 = true ∧ bit 0xBFFF#16 15 = false) ∧
    bit 0xC000#16 16 = bit 0xC000#16 15 ∧ bit 0x3FFF#16 16 = bit 0x3FFF#16 15 := by decide

theorem test_witness_SignAndMinusZeroTogether :
    State.reset.cfg.params.brPacking = .numeric ∧ (0x8000 ≤ (0x8000#16).toNat) ∧ ¬ 0x8000 ≤ (0x7FFF#16).toNat := by decide

theorem test_witness_StageRequestsAndNisq :
    (at_ 1 0o17).sReg.toNat = 15 ∧ (at_ 1 0o16).sReg.toNat ≠ 15 ∧ (at_ 1 0o20).sReg.toNat ≠ 15 ∧
    (at_ 1 0o1017).sReg.toNat ≠ 15 := by decide

theorem test_witness_RadActsOnSentinels :
    State.reset.cfg.params = specParams ∧ goesOn (exec .rad { State.reset with g := 0x0003#16 }) = true ∧
    goesOn (exec .rad { State.reset with g := 0x0004#16 }) = true ∧
    goesOn (exec .rad { State.reset with g := 0x0005#16 }) = true ∧
    goesOn (exec .rad { State.reset with g := 0x0006#16 }) = true := by decide

theorem test_witness_TransfersBetweenGAndL :
    State.reset.cfg.params = specParams ∧ goesOn (exec .g2ls State.reset) = true ∧ goesOn (exec .l2gd State.reset) = true := by decide

theorem test_witness_ZapIsItsThreeParts :
    State.reset.cfg.params = specParams ∧ bit (0x0008#16) 1 = false ∧ bit (0x8009#16) 1 = true := by decide

theorem test_witness_ZipPerformsItsAction :
    zipRow zipTableGK 7#3 = some { read := .none, load := .wy, ci := false, mcro := true } ∧
    State.reset.cfg.params = specParams ∧ zipRow [] (zipSelectOf .src 7#16) = none ∧ zipSelectOf .src 7#16 = 7#3 := by decide

/-- The hypotheses of the multiply step, and a word of `L` for each of the eight rows. -/
theorem test_witness_ZipMultiplyStep :
    State.reset.cfg.params = specParams ∧ State.reset.cfg.zipSelect = .gk ∧ State.reset.cfg.zipTable = zipTableGK ∧
    State.reset.wbus = 0 ∧ State.reset.mcro = false ∧ State.reset.noEAC = false ∧ State.reset.dvStage = 0 ∧
    State.reset.pifl = false ∧
    ([0x0000#16, 0x0001#16, 0x0002#16, 0x0003#16, 0x4000#16, 0x4001#16, 0x4002#16, 0x4003#16].map fun l =>
      (bit l 15).toNat * 4 + (bit l 2).toNat * 2 + (bit l 1).toNat) = [0, 1, 2, 3, 4, 5, 6, 7] := by decide

theorem test_witness_DefaultSkipIsQueued :
    (StageKey.normal 1#2 ≠ .normal 2#2) ∧ (StageKey.divide 2#3 ≠ .normal 2#2) ∧
    goesOn (exec (.defaultSkip (.divide 2#3) true 0#6) State.reset) = true := by decide

theorem test_witness_OnlyWgAndZipFault :
    (faultOf (exec .wg (at_ 1 0o23))).isSome = true ∧
    (faultOf (exec .zip { State.reset with cfg := { specConfig with zipTable := [none] } })).isSome = true := by decide

theorem test_witness_CopyBitsBitByBit :
    copyBitsOk 1 16 1 16 = true ∧ copyBitsOk 16 16 1 1 = true ∧ copyBitsOk 1 1 16 16 = true ∧ copyBitsOk 4 15 1 12 = true ∧
    copyBitsOk 1 2 1 1 = false := by decide

/-- The banked windows at both ends of the bank and at the banks that alias the unswitched windows. -/
theorem test_witness_TranslationInRange :
    resolve specParams 0o1400 0#16 0#16 = (.erasable, 0) ∧ resolve specParams 0o1777 2#16 0#16 = (.erasable, 0o1377) ∧
    resolve specParams 0o1377 7#16 0#16 = (.erasable, 0o1377) ∧ resolve specParams 0o1777 7#16 0#16 = (.erasable, 2047) ∧
    resolve specParams 0o2000 0#16 0#16 = (.fixed, 0) ∧ resolve specParams 0o2000 0#16 2#16 = (.fixed, 0o4000) ∧
    resolve specParams 0o3777 0#16 3#16 = (.fixed, 0o7777) ∧ resolve specParams 0o3777 0#16 31#16 = (.fixed, 32767) := by decide

/-- The dispatch of a tick goes on. -/
def dispatches (s : State) : Bool := goesOn (dispatch (tickStart (applyHostWrites s)))

theorem test_witness_TheT4Read :
    (at_ 4 0).t = 4 ∧ (∀ e ∈ (at_ 4 0).queue, e.n ≠ 4) ∧ (at_ 4 0).cfg.hostChannelWrites = false ∧
    (at_ 4 0).cfg.params = specParams ∧ dispatches (at_ 4 0) = true ∧
    goesOn (step (at_ 4 0#12)) = true ∧ goesOn (step (at_ 4 7#12)) = true ∧
    goesOn (step (at_ 4 0o10#12)) = true ∧ goesOn (step (at_ 4 0o1377#12)) = true ∧
    goesOn (step (at_ 4 0o1400#12)) = true ∧ goesOn (step (at_ 4 0o1777#12)) = true ∧
    goesOn (step (at_ 4 0o2000#12)) = true ∧ goesOn (step (at_ 4 0o3777#12)) = true ∧
    goesOn (step (at_ 4 0o4000#12)) = true ∧ goesOn (step (at_ 4 0o7777#12)) = true := by decide

/-- `WS` in the list of T4 counts for the read of that T4: the address is what `RB WS` put in `S` (R80). -/
theorem test_t4_list_then_read :
    dispatches (placePulses { at_ 4 0 with b := 64, eMem := [(64, 9#16)] } (pulseIds [.rb, .ws])) = true ∧
    tickThen (placePulses { at_ 4 0 with b := 64, eMem := [(64, 9#16)] } (pulseIds [.rb, .ws])) (fun t => (t.g, t.wba)) =
      some (9#16, some 64) := by decide

/-- `WG` in the list of T9 reaches memory (R82), and `ST1` in the list of T12 is committed there (R230, R270). -/
theorem test_t9_and_t12_lists :
    tickThen (placePulses { at_ 9 0 with b := 7, wba := some 3 } (pulseIds [.rb, .wg])) State.eMem = some [(3, 7#16)] ∧
    tickThen (placePulses (at_ 12 0) (pulseIds [.st1])) State.st = some 1#2 := by decide

/-- An erasable array of eight words: address 10 octal is the first one outside it. -/
def smallArrays : State :=
  { at_ 4 0o10 with cfg := { specConfig with params := { specParams with erasableWords := 8, fixedWords := 2048 } } }

theorem test_witness_TheT4ReadOutOfRange :
    smallArrays.cfg.params.reservedLowLimit ≤ smallArrays.sReg.toNat ∧
    resolve smallArrays.cfg.params smallArrays.sReg smallArrays.eb smallArrays.fb = (.erasable, 8) ∧
    spaceWords smallArrays.cfg.params .erasable ≤ 8 ∧ smallArrays.cfg.hostChannelWrites = false ∧
    (∀ e ∈ smallArrays.queue, e.n ≠ 4) ∧ nextOf (dispatch (tickStart (applyHostWrites smallArrays))) = some smallArrays ∧
    faultOf (step smallArrays) = some (.addressRange 0o10 .erasable 8 smallArrays) := by decide

theorem test_witness_TheT9WriteBack :
    (∀ e ∈ (at_ 9 0).queue, e.n ≠ 9) ∧ (at_ 9 0).cfg.hostChannelWrites = false ∧ memWf (at_ 9 0).eMem = true ∧
    dispatches (at_ 9 0) = true ∧ dispatches { at_ 9 0 with wba := some 2047 } = true ∧
    (at_ 9 0).wba = none ∧ ({ at_ 9 0 with wba := some 2047 } : State).wba = some 2047 := by decide

/-- A cell whose two top bits differ, read at T4 with a list at T6 that leaves `G` alone. -/
def readCycle : State :=
  { at_ 4 0o100 with eMem := [(64, 0xBFFF#16)], queue := [{ n := 6, pulses := pulseIds [.rg, .wb] }] }

theorem test_witness_ReadAndWriteBackIdempotence :
    Inv readCycle ∧ tickThen readCycle State.wba = some (some 64) ∧
    (match step readCycle with
      | .next s1 => (match runTicks 5 s1 with
        | .next t => decide (t.g = s1.g ∧ t.b = 0xFFFF#16)
        | .fault _ => false
        | .refused _ => false)
      | .fault _ => false
      | .refused _ => false) = true := by decide

theorem test_witness_TheWriteBackWindow :
    Inv (at_ 4 0o100) ∧ tickThen (at_ 4 0o100) State.wba = some (some 64) ∧
    Inv { at_ 9 0o100 with wba := some 64 } ∧ tickThen { at_ 9 0o100 with wba := some 64 } State.wba = some none ∧
    Inv { at_ 5 0o100 with wba := some 64 } ∧ tickThen { at_ 8 0o100 with wba := some 64 } State.wba = some (some 64) :=
  ⟨by decide, by decide, by decide, by decide, by decide, by decide⟩

theorem test_witness_AStepRunsTheDecodedInstruction :
    (State.reset.withFetchWord 8 0b00000011).queue.filter (fun e => decide (e.n = (State.reset.withFetchWord 8 0b00000011).t)) =
      [{ n := (State.reset.withFetchWord 8 0b00000011).t, pulses := [3#6] }] ∧
    decodePulse 3#6 = .ok .rz ∧ decodeWord specParams 6#16 = .ok .radExtend ∧
    (at_ 12 0).cfg.hostChannelWrites = false ∧ (∀ e ∈ (at_ 12 0).queue, e.n ≠ 12) ∧
    decodeKeyOf (commitStage (at_ 12 0)) = { stage := .normal 0#2, extend := false, opcode := 0#6 } ∧
    (∀ d ∈ (at_ 12 0).cfg.isaDefs, covers d { stage := .normal 0#2, extend := false, opcode := 0#6 } = false) := by decide

/-- A host that writes channels 5, 2 and 5 again before one tick. -/
def hostWrites : State :=
  { State.reset with
    cfg := { specConfig with hostChannelWrites := true }
    hostInputs := [[(5#6, 1#16), (2#6, 8#16), (5#6, 3#16), (63#6, 4#16)], [(0#6, 1#16)]] }

theorem test_witness_HostWritesComeFirst :
    hostWrites.cfg.hostChannelWrites = true ∧ memWf hostWrites.chan = true ∧ State.reset.hostInputs = [] ∧
    State.reset.cfg.hostChannelWrites = false ∧
    tickThen hostWrites (fun t => (t.chan, t.q, t.hostInputs)) = some ([(5, 3#16), (63, 4#16)], 0#16, [[(0#6, 1#16)]]) := by decide

theorem test_witness_FetchLatchesClearedAtT1 :
    State.reset.cfg.params = specParams ∧ (State.reset.t = 1 ∧ State.reset.st = 0) ∧
    ¬ (({ State.reset with st := 1 } : State).t = 1 ∧ ({ State.reset with st := 1 } : State).st = 0) := by decide

/-- A queue of `m` entries at the present time pulse, the branch register as given. -/
def alternatives (m : Nat) (b1 b2 : Bool) : State :=
  { State.reset with t := 3, br1 := b1, br2 := b2, queue := List.replicate m { n := 3, pulses := pulseIds [.st1] } }

theorem test_witness_DispatchSelectsByTheBranchRegister :
    State.reset.cfg.params.brPacking = .numeric ∧
    goesOn (dispatch (alternatives 0 true true)) = true ∧ goesOn (dispatch (alternatives 1 true true)) = true ∧
    goesOn (dispatch (alternatives 2 false true)) = true ∧ goesOn (dispatch (alternatives 4 true true)) = true ∧
    (faultOf (dispatch (alternatives 2 true false))).isSome = true ∧
    (faultOf (dispatch (alternatives 3 true true))).isSome = true ∧
    (faultOf (dispatch (alternatives 5 false false))).isSome = true := by decide

/-- A list whose second pulse faults after the first has run, alone and as the list of a tick. -/
theorem test_witness_ListsRunInDeclaredOrder :
    tickThen (at_ 1 0o23) State.t = some 2 ∧ goesOn (runPulses (pulseIds [.rb1]) (at_ 1 0o23)) = true ∧
    faultOf (exec .wg { at_ 1 0o23 with wbus := 1 }) = some (.edit23Unspecified 1 { at_ 1 0o23 with wbus := 1 }) ∧
    faultOf (step (placePulses (at_ 1 0o23) (pulseIds [.rb1, .wg]))) =
      some (.edit23Unspecified 1 { at_ 1 0o23 with wbus := 1 }) := by decide

theorem test_witness_TheCycleBoundary :
    (at_ 12 0).t = 12 ∧ (∀ e ∈ (at_ 12 0).queue, e.n ≠ 12) ∧ (at_ 12 0).cfg.hostChannelWrites = false ∧
    dispatches (at_ 12 0) = true ∧ dispatches (placePulses (at_ 12 0) (pulseIds [.st1])) = true ∧
    tickThen { at_ 12 0 with nextInstruction := true, b := 0x3808#16, stNext := 2, dvSequence := true }
      (fun t => (t.st, t.sq, t.dvSequence, t.diags.length)) = some (2#2, 0b011100#6, false, 1) := by decide

theorem test_witness_BusClearedAndCounterAdvanced :
    tickThen (placePulses (at_ 12 0) (pulseIds [.rb1])) (fun t => (t.wbus, t.t)) = some (0x0000#16, 1) := by decide

theorem test_witness_TwelveTicksMakeACycle :
    timeInRange State.reset ∧ (nextOf (runTicks (12 * 1) State.reset)).map State.t = some 1 := by decide

/-- `STAGE` in the list of T12 makes that same T12 look up the divide substage. -/
theorem test_witness_QueueAfterT12 :
    Inv (placePulses (at_ 12 0) (pulseIds [.stage])) ∧
    tickThen (placePulses (at_ 12 0) (pulseIds [.stage])) (fun t => (t.queue, t.diags.map Diag.stage)) =
      some (defaultSkipEntries, [.divide 0#3]) := by decide

theorem test_witness_WhichTicksChangeWhat : ∀ n ∈ [1, 4, 9, 12], goesOn (step (at_ n 0o100)) = true := by decide

/-- Pulses and scheduler steps that complete; the dispatch with no entry, with one, and with two. -/
theorem test_witness_EveryWriterIsListed :
    (pulseId .wa).isSome = true ∧ goesOn (exec .wa State.reset) = true ∧ goesOn (afterDispatch (at_ 4 0o100)) = true ∧
    goesOn (dispatch State.reset) = true ∧ goesOn (dispatch (alternatives 1 false false)) = true ∧
    goesOn (dispatch (alternatives 2 false true)) = true ∧ (faultOf (dispatch (alternatives 2 true false))).isSome = true := by decide

theorem test_witness_PatternMaskAndValue :
    maskValue ['x', 'x', 'x', 'x', 'x', 'x'] = some (0#6, 0#6) ∧ maskValue ['1', '0', 'x', '0', '1', '1'] = some (0b110111#6, 0b100011#6) := by
  decide

/-- Two overlapping definitions and a key that both cover; a third of another stage. -/
def overlapping (k : StageKey) (v : Opcode) : Def :=
  { stage := k, extend := false, mask := 0b110000#6, value := v, name := "D", entries := [] }

theorem test_witness_TheLastDefinitionWins :
    covers (overlapping (.normal 0#2) 0b010000#6) { stage := .normal 0#2, extend := false, opcode := 0b011111#6 } = true ∧
    covers (overlapping (.normal 1#2) 0b010000#6) { stage := .normal 0#2, extend := false, opcode := 0b011111#6 } = false ∧
    (0b111111#6 &&& (overlapping (.normal 0#2) 0b010000#6).mask) ≠ (overlapping (.normal 0#2) 0b010000#6).value := by decide

theorem test_witness_InvKept :
    Inv State.reset ∧ goesOn (step State.reset) = true ∧ Inv readCycle ∧ goesOn (step readCycle) = true ∧
    Inv (at_ 12 0) ∧ goesOn (step (at_ 12 0)) = true :=
  ⟨by decide, by decide, by decide, by decide, by decide, by decide⟩

/-- Two alternatives at T3 with `BR1` set, everything OPEN supplied: the one fault left. -/
theorem test_witness_OnlyTheBranchIndexFault :
    Inv { alternatives 2 true false with cfg := supplied.cfg } ∧ fullySpecified supplied.cfg ∧
    (faultOf (step { alternatives 2 true false with cfg := supplied.cfg })).isSome = true := by decide

/-- A default skip from address 100 octal that finds the word `w`. -/
def skipStart (w : Word) : State :=
  { State.reset with z := 0o100, queue := defaultSkipEntries, eMem := memWrite [] 64 w }

theorem test_witness_OneDefaultSkipCycle :
    (Inv (skipStart 0x3808#16) ∧ Inv (skipStart 0x0006#16)) ∧ (skipStart 0x3808#16).t = 1 ∧
    (skipStart 0x3808#16).cfg.params = specParams ∧ (skipStart 0x3808#16).cfg.hostChannelWrites = false ∧
    (skipStart 0x3808#16).queue = defaultSkipEntries ∧ (skipStart 0x3808#16).stNext = 0 ∧
    (skipStart 0x3808#16).dvSequence = false ∧ 8 ≤ (skipStart 0x3808#16).z.toNat % 4096 ∧
    (skipStart 0x3808#16).z.toNat % 4096 ≠ 0o23 ∧
    resolve specParams ((skipStart 0x3808#16).z.setWidth 12) (skipStart 0x3808#16).eb (skipStart 0x3808#16).fb =
      (.erasable, 64) ∧
    doubleSignCompress (readSpace (skipStart 0x0006#16) .erasable 64) false = 0x0006#16 := by decide

/-- Each way a step can end: it goes on, it faults, it is refused (a reserved id that no built table holds). -/
theorem test_witness_InertStateIsNotRead :
    goesOn (step State.reset) = true ∧ (faultOf (step smallArrays)).isSome = true ∧
    goesOn (step (placePulses State.reset [53#6])) = false ∧ faultOf (step (placePulses State.reset [53#6])) = none := by decide

end Sys2Proof.Tests
end

/-! PROOFS. The host's channel writes (00_scope R5, R6; log 30): one write, one batch, then the obligation O60. -/

namespace Sys2Proof.Machine

/-- Channels 1 and 2 are registers and not cells of the store (10_state R56). -/
theorem hostWriteChannel_of_register {m : Memory} {w : Channel × Word} (hw : w.1.toNat = 1 ∨ w.1.toNat = 2) :
    hostWriteChannel m w = m :=
  if_pos (hw.imp BitVec.eq_of_toNat_eq BitVec.eq_of_toNat_eq)

theorem hostWriteChannel_of_stored {m : Memory} {w : Channel × Word} (h1 : w.1.toNat ≠ 1) (h2 : w.1.toNat ≠ 2) :
    hostWriteChannel m w = memWrite m w.1.toNat w.2 :=
  if_neg fun hw => hw.elim (fun e => h1 (congrArg BitVec.toNat e)) (fun e => h2 (congrArg BitVec.toNat e))

theorem memWf_hostWriteChannel {m : Memory} (w : Channel × Word) (h : memWf m = true) :
    memWf (hostWriteChannel m w) = true := by
  unfold hostWriteChannel
  split
  · exact h
  · exact memWf_memWrite _ _ h

/-- A host's write is read back at its own channel, where that channel is stored, and at no other. -/
theorem memRead_hostWriteChannel {m : Memory} (h : memWf m = true) (w : Channel × Word) (c : Nat) :
    memRead (hostWriteChannel m w) c = if w.1.toNat = c ∧ c ≠ 1 ∧ c ≠ 2 then w.2 else memRead m c := by
  by_cases hw : w.1.toNat = 1 ∨ w.1.toNat = 2
  · rw [hostWriteChannel_of_register hw, if_neg (by omega)]
  · have hne := not_or.mp hw
    rw [hostWriteChannel_of_stored hne.1 hne.2, memRead_memWrite h]
    exact if_congr (by omega) rfl rfl

theorem memWf_foldl_hostWriteChannel {m : Memory} (batch : List (Channel × Word)) (h : memWf m = true) :
    memWf (batch.foldl hostWriteChannel m) = true := by
  induction batch generalizing m with
  | nil => exact h
  | cons w rest ih => exact ih (memWf_hostWriteChannel w h)

/-- A batch leaves the cells 1 and 2 of the store as they were. -/
theorem memRead_foldl_hostWriteChannel_register {m : Memory} (h : memWf m = true) (batch : List (Channel × Word))
    {c : Nat} (hc : c = 1 ∨ c = 2) : memRead (batch.foldl hostWriteChannel m) c = memRead m c := by
  induction batch generalizing m with
  | nil => rfl
  | cons w rest ih =>
    rw [List.foldl_cons, ih (memWf_hostWriteChannel w h), memRead_hostWriteChannel h, if_neg (by omega)]

/-- A stored channel reads the last value a batch gives it, or as before: the later writes decide, and where none of them
names the channel, the first one does. -/
theorem memRead_foldl_hostWriteChannel_stored {m : Memory} (h : memWf m = true) (batch : List (Channel × Word))
    {c : Nat} (h1 : c ≠ 1) (h2 : c ≠ 2) :
    memRead (batch.foldl hostWriteChannel m) c =
      (((batch.filter fun w => decide (w.1.toNat = c)).getLast?).map Prod.snd).getD (memRead m c) := by
  induction batch generalizing m with
  | nil => rfl
  | cons w rest ih =>
    rw [List.foldl_cons, ih (memWf_hostWriteChannel w h), memRead_hostWriteChannel h]
    by_cases hw : w.1.toNat = c
    · rw [if_pos ⟨hw, h1, h2⟩, List.filter_cons_of_pos (by simpa using hw), List.getLast?_cons, Option.map_some,
        Option.getD_some, Option.getD_map]
    · rw [if_neg fun e => hw e.1, List.filter_cons_of_neg (by simpa using hw)]

theorem applyHostWrites_of_not_allowed {s : State} (h : s.cfg.hostChannelWrites = false) : applyHostWrites s = s :=
  if_neg (by simp [h])

theorem applyHostWrites_of_no_batch {s : State} (h : s.hostInputs = []) : applyHostWrites s = s := by
  unfold applyHostWrites
  split <;> simp [h]

theorem applyHostWrites_of_batch {s : State} {batch : List (Channel × Word)} {rest : List (List (Channel × Word))}
    (hon : s.cfg.hostChannelWrites = true) (hb : s.hostInputs = batch :: rest) :
    applyHostWrites s = { s with hostInputs := rest, chan := batch.foldl hostWriteChannel s.chan } := by
  simp [applyHostWrites, hon, hb]

/-- Settles O60: a batch is stored by a fold of single writes, and each channel is followed along that fold. -/
theorem hostWritesComeFirst : Obligations.HostWritesComeFirst := by
  intro s
  refine ⟨applyHostWrites_of_not_allowed, applyHostWrites_of_no_batch, fun batch rest hon hb hwf => ?_, rfl⟩
  exact ⟨batch.foldl hostWriteChannel s.chan, applyHostWrites_of_batch hon hb, memWf_foldl_hostWriteChannel batch hwf,
    fun c hc => memRead_foldl_hostWriteChannel_register hwf batch hc,
    fun c h1 h2 => memRead_foldl_hostWriteChannel_stored hwf batch h1 h2⟩

end Sys2Proof.Machine

/-! PROOFS. The writers of every field (10_state R62): what each pulse writes, what the steps before and after the dispatch write,
what the dispatch does, then the obligation O52. -/

namespace Sys2Proof.Machine

/-! ### The pulses -/

/-- The pulses whose only effect is on the write bus (41_bus_read R160 to R175). -/
def busPulses : List Instr := [.ra, .rb, .rq, .rz, .rc, .rg, .rl, .rsc, .rch, .ru, .rus, .r1c, .rb1, .rstrt]

/-- What a pulse that completes can have written, by the registers of the pulse column of R62; the values are left open. -/
inductive PulseWrites : Instr → State → State → Prop
  | bus {i : Instr} {s : State} (v : Word) (hi : i ∈ busPulses) : PulseWrites i s { s with wbus := v }
  | a {s : State} (v : Word) : PulseWrites .wa s { s with a := v }
  | b {s : State} (v : Word) : PulseWrites .wb s { s with b := v }
  | q {s : State} (v : Word) : PulseWrites .wq s { s with q := v }
  | z {s : State} (v : Word) : PulseWrites .wz s { s with z := v }
  | sReg {s : State} (v : Addr) : PulseWrites .ws s { s with sReg := v }
  | l {i : Instr} {s : State} (v : Word) (hi : i ∈ [.wl, .g2ls]) : PulseWrites i s { s with l := v }
  | g {i : Instr} {s : State} (v : Word) (hi : i ∈ [.wg, .l2gd]) : PulseWrites i s { s with g := v }
  | wals {s : State} (v w : Word) : PulseWrites .wals s { s with a := v, l := w }
  | zap {s : State} (u v w : Word) : PulseWrites .zap s { s with wbus := u, a := v, l := w }
  | zip {s : State} (u v w y : Word) (c m : Bool) :
      PulseWrites .zip s { s with wbus := u, g := v, x := w, y := y, ci := c, mcro := m }
  | central {s : State} : PulseWrites .wsc s (centralWrite s.wbus s)
  | channel {s : State} : PulseWrites .wch s (channelWrite s.wbus s)
  | adder {i : Instr} {s : State} (v : Word) (hi : i ∈ [.wy, .wy12, .wyd]) : PulseWrites i s (loadAdder v s)
  | x {i : Instr} {s : State} (v : Word) (hi : i ∈ [.a2x, .monex, .ponex, .ptwox, .b15x]) : PulseWrites i s { s with x := v }
  | ci {s : State} (v : Bool) : PulseWrites .ci s { s with ci := v }
  | br1 {i : Instr} {s : State} (v : Bool) (hi : i ∈ [.tsgn, .tl15]) : PulseWrites i s { s with br1 := v }
  | br2 {i : Instr} {s : State} (v : Bool) (hi : i ∈ [.tsgn2, .tmz, .tpzg]) : PulseWrites i s { s with br2 := v }
  | tov {s : State} (v : Bool × Bool) : PulseWrites .tov s (setBranch v s)
  | stNext {i : Instr} {s : State} (v : BitVec 2) (hi : i ∈ [.st1, .st2, .trsm]) : PulseWrites i s { s with stNext := v }
  | nisq {s : State} : PulseWrites .nisq s { s with nextInstruction := true, inhibitInterrupts := false }
  | rad {s : State} (u : Word) (v : BitVec 2) (h x : Bool) :
      PulseWrites .rad s { s with wbus := u, stNext := v, inhibitInterrupts := h, extendNext := x }
  | noEAC {i : Instr} {s : State} (v : Bool) (hi : i ∈ [.neacon, .neacof]) : PulseWrites i s { s with noEAC := v }
  | pifl {s : State} : PulseWrites .pifl s { s with pifl := true }
  | dvStage {s : State} (v : BitVec 3) : PulseWrites .dvst s { s with dvStage := v }
  | dvSequence {s : State} : PulseWrites .stage s { s with dvSequence := true }

/-- Every pulse that completes writes only what R62 lists it under. -/
theorem pulseWrites_exec {i : Instr} {s t : State} (hp : (pulseId i).isSome = true) (h : exec i s = .next t) :
    PulseWrites i s t := by
  cases i
  case wg =>
    simp only [exec, execWg] at h
    split at h <;> cases h
    exact .g _ (by decide)
  case trsm =>
    cases h
    split
    · exact .stNext _ (by decide)
    · exact .stNext s.stNext (by decide)
  case zip => rw [execZip_eq h]; exact .zip _ _ _ _ _ _
  case rad => rw [execRad_eq h]; exact .rad _ _ _ _
  case radRelint | radInhint | radExtend | defaultSkip => cases hp
  case wsc => cases h; exact .central
  case wch => cases h; exact .channel
  case wa => cases h; exact .a _
  case wb => cases h; exact .b _
  case wq => cases h; exact .q _
  case wz => cases h; exact .z _
  case ws => cases h; exact .sReg _
  case wals => cases h; exact .wals _ _
  case zap => cases h; exact .zap _ _ _
  case ci => cases h; exact .ci _
  case tov => cases h; exact .tov _
  case nisq => cases h; exact .nisq
  case pifl => cases h; exact .pifl
  case dvst => cases h; exact .dvStage _
  case stage => cases h; exact .dvSequence
  case wl | g2ls => cases h; exact .l _ (by decide)
  case l2gd => cases h; exact .g _ (by decide)
  case wy | wy12 | wyd => cases h; exact .adder _ (by decide)
  case a2x | monex | ponex | ptwox | b15x => cases h; exact .x _ (by decide)
  case tsgn | tl15 => cases h; exact .br1 _ (by decide)
  case tsgn2 | tmz | tpzg => cases h; exact .br2 _ (by decide)
  case st1 | st2 => cases h; exact .stNext _ (by decide)
  case neacon | neacof => cases h; exact .noEAC _ (by decide)
  all_goals cases h; exact .bus _ (by decide)


/-- A central write changes a register only where `S` names it (42_bus_write R188, decision D12). -/
theorem centralWrite_changes (w : Word) (s : State) :
    ((centralWrite w s).a ≠ s.a → s.sReg = 0) ∧ ((centralWrite w s).l ≠ s.l → s.sReg = 1) ∧
    ((centralWrite w s).q ≠ s.q → s.sReg = 2) ∧ ((centralWrite w s).z ≠ s.z → s.sReg = 5) ∧
    ((centralWrite w s).eb ≠ s.eb → s.sReg = 3 ∨ s.sReg = 6) ∧
    ((centralWrite w s).fb ≠ s.fb → s.sReg = 4 ∨ s.sReg = 6) := by
  unfold centralWrite
  split <;> simp [← BitVec.toNat_inj, *]

/-- A channel write changes `L` or `Q` only at channel 1 or 2, and the store at no other than the rest (R189, decision D13). -/
theorem channelWrite_changes (w : Word) (s : State) :
    ((channelWrite w s).l ≠ s.l → channelOf s.sReg = 1) ∧ ((channelWrite w s).q ≠ s.q → channelOf s.sReg = 2) ∧
    ((channelWrite w s).chan ≠ s.chan → channelOf s.sReg ≠ 1 ∧ channelOf s.sReg ≠ 2) := by
  unfold channelWrite
  dsimp only
  split_ifs <;> simp [*]

/-! ### The steps before the dispatch -/

@[simp] theorem clearPiflLatch_nextInstruction (s : State) : (clearPiflLatch s).nextInstruction = s.nextInstruction := by
  unfold clearPiflLatch
  split <;> rfl

@[simp] theorem clearPiflLatch_extendNext (s : State) : (clearPiflLatch s).extendNext = s.extendNext := by
  unfold clearPiflLatch
  split <;> rfl

@[simp] theorem clearFetchLatches_t (s : State) : (clearFetchLatches s).t = s.t := by
  unfold clearFetchLatches
  split <;> rfl

@[simp] theorem clearFetchLatches_pifl (s : State) : (clearFetchLatches s).pifl = s.pifl := by
  unfold clearFetchLatches
  split <;> rfl

theorem tickStart_nextInstruction (s : State) : (tickStart s).nextInstruction =
    if s.t = 1 ∧ isHeld s.cfg.params s.st = false then false else s.nextInstruction := by
  rw [tickStart, clearPiflLatch_nextInstruction, clearFetchLatches]
  exact apply_ite State.nextInstruction ..

theorem tickStart_extendNext (s : State) : (tickStart s).extendNext =
    if s.t = 1 ∧ isHeld s.cfg.params s.st = false then false else s.extendNext := by
  rw [tickStart, clearPiflLatch_extendNext, clearFetchLatches]
  exact apply_ite State.extendNext ..

theorem tickStart_pifl (s : State) :
    (tickStart s).pifl = if s.t = 2 ∨ s.t = 5 ∨ s.t = 8 ∨ s.t = 11 then false else s.pifl := by
  unfold tickStart clearPiflLatch
  simp [apply_ite State.pifl, clearsPifl]

/-! ### The steps after the dispatch, time pulse by time pulse -/

theorem afterDispatch_of_eq_4 {s : State} (h : s.t = 4) :
    afterDispatch s = andThen (memoryRead s) fun u => .next (tickEnd u) := by
  unfold afterDispatch readStep
  rw [if_pos h]
  cases hm : memoryRead s with
  | next u =>
    have hu : u.t = 4 := by
      rcases memoryRead_cases hm with ⟨_, rfl⟩ | ⟨i, _, _, rfl⟩ | ⟨i, _, _, rfl⟩ <;> exact h
    have hw : writeBackStep u = u := (writeBackStep_frame u).1 (by omega)
    rw [andThen_next, andThen_next, hw, cycleStep_of_ne (by omega), andThen_next]
  | fault r => rfl
  | refused r => rfl

theorem afterDispatch_of_ne_4 {s : State} (h : s.t ≠ 4) :
    afterDispatch s = andThen (cycleStep (writeBackStep s)) fun u => .next (tickEnd u) := by
  unfold afterDispatch readStep
  rw [if_neg h, andThen_next]

theorem afterDispatch_of_eq_9 {s : State} (h : s.t = 9) : afterDispatch s = .next (tickEnd (writeBack s)) := by
  have ht : (writeBackStep s).t = s.t := by rw [(writeBackStep_frame s).2.1]
  rw [afterDispatch_of_ne_4 (by omega), cycleStep_of_ne (by omega), andThen_next, writeBackStep, if_pos h]

theorem afterDispatch_of_eq_12 {s : State} (h : s.t = 12) :
    ∃ ds, afterDispatch s = .next (tickEnd { commitStage s with
      queue := s.queue ++ tableEntries s.cfg (decodeKeyOf (commitStage s))
      diags := s.diags ++ ds
      dvSequence := false }) := by
  obtain ⟨ds, hds⟩ := cycleStep_of_eq h
  have hw : writeBackStep s = s := (writeBackStep_frame s).1 (by omega)
  exact ⟨ds, by rw [afterDispatch_of_ne_4 (by omega), hw, hds, andThen_next]⟩

/-- At every other time pulse only the bus is cleared and the counter advanced. -/
theorem afterDispatch_of_ne {s : State} (h4 : s.t ≠ 4) (h9 : s.t ≠ 9) (h12 : s.t ≠ 12) :
    afterDispatch s = .next (tickEnd s) := by
  rw [afterDispatch_of_ne_4 h4, (writeBackStep_frame s).1 h9, cycleStep_of_ne h12, andThen_next]

/-! ### The dispatch -/

theorem dropCollected_of_collected_nil {s : State} (h : collected s = []) : dropCollected s = s := by
  have hq : (s.queue.filter fun e => decide (e.n ≠ s.t)) = s.queue :=
    List.filter_eq_self.mpr fun e he => by
      have := List.filter_eq_nil_iff.mp h e he
      simpa using this
  unfold dropCollected
  rw [hq]

/-- What the dispatch is, for any number of collected entries: nothing, a run of one of their lists, or a fault. -/
theorem dispatch_shape (s : State) :
    (collected s = [] ∧ dispatch s = .next s) ∨
    (∃ e ∈ collected s, dispatch s = runPulses e.pulses (dropCollected s)) ∨
    (2 ≤ (collected s).length ∧ ∃ f, dispatch s = .fault f) := by
  unfold dispatch
  dsimp only
  split
  case h_1 hc => exact .inl ⟨hc, by rw [dropCollected_of_collected_nil hc]⟩
  case h_2 e hc => exact .inr (.inl ⟨e, by simp [hc], rfl⟩)
  case h_3 hnil hone =>
    have h2 : 2 ≤ (collected s).length := by
      rcases hc : collected s with _ | ⟨e, _ | ⟨e', rest⟩⟩
      · exact absurd hc hnil
      · exact absurd hc (hone e)
      · simp
    split_ifs
    · exact .inr (.inr ⟨h2, _, rfl⟩)
    · split
      · rename_i e he; exact .inr (.inl ⟨e, List.mem_of_getElem? he, rfl⟩)
      · exact .inr (.inr ⟨h2, _, rfl⟩)

/-- Settles O52: the pulses by what each writes, the steps after the dispatch time pulse by time pulse. -/
theorem everyWriterIsListed : Obligations.EveryWriterIsListed := by
  refine ⟨fun i s t hp h => ?pulses, fun s => ?start, fun s t h => ?after, fun s => dispatch_shape s⟩
  case pulses =>
    cases pulseWrites_exec hp h
    case central =>
      have hw := centralWrite_changes s.wbus s
      rw [centralWrite_eq]
      simpa using hw
    case channel =>
      have hw := channelWrite_changes s.wbus s
      rw [channelWrite_eq]
      simpa using hw
    case bus v hi => simp [busPulses] at hi ⊢; tauto
    case l v hi | g v hi | adder v hi | x v hi | br1 v hi | br2 v hi | stNext v hi | noEAC v hi => simp at hi ⊢; tauto
    all_goals simp
  case start =>
    refine ⟨tickStart_eq s, ?_, ?_, ?_, ?_, ?_⟩
    · rw [tickStart_nextInstruction, tickStart_extendNext]
      split_ifs with hc
      · exact fun _ => hc
      · simp
    · rw [tickStart_pifl]
      split_ifs with hc
      · exact fun _ => hc
      · simp
    · rw [tickStart_nextInstruction]; split_ifs <;> simp
    · rw [tickStart_extendNext]; split_ifs <;> simp
    · rw [tickStart_pifl]; split_ifs <;> simp
  case after =>
    by_cases h4 : s.t = 4
    · rw [afterDispatch_of_eq_4 h4] at h
      obtain ⟨u, hu, h⟩ := andThen_eq_next.mp h
      cases h
      rcases memoryRead_cases hu with ⟨_, rfl⟩ | ⟨i, hr, _, rfl⟩ | ⟨i, _, _, rfl⟩
      · simp [h4, tickEnd]
      · simp [h4, tickEnd, hr]
      · simp [h4, tickEnd]
    by_cases h9 : s.t = 9
    · rw [afterDispatch_of_eq_9 h9] at h
      cases h
      rcases writeBack_cases s with ⟨hn, hw⟩ | ⟨i, hi, hw⟩ <;> rw [hw]
      · simp [h9, tickEnd, hn]
      · simp [h9, tickEnd, hi]
    by_cases h12 : s.t = 12
    · obtain ⟨ds, hds⟩ := afterDispatch_of_eq_12 h12
      rw [hds] at h
      cases h
      rw [commitStage_eq]
      cases s.nextInstruction <;> simp [h12, tickEnd]
    · rw [afterDispatch_of_ne h4 h9 h12] at h
      cases h
      simp [h9, h12, tickEnd]

end Sys2Proof.Machine

/-! PROOFS. The invariant (Safety.lean) at reset and over a step: the queue, the channels, the latch and the memories through the
dispatch and through the steps after it, then the obligations O2 and O55. -/

namespace Sys2Proof.Machine

/-! ### Entries (30_encoding R115) -/

theorem entriesWf_iff {es : List Entry} :
    entriesWf es = true ↔ (∀ e ∈ es, entryWf e = true) ∧
      ∀ n, 1 ≤ n → n ≤ 12 → countAt es n = 0 ∨ countAt es n = 1 ∨ countAt es n = 2 ∨ countAt es n = 4 := by
  simp only [entriesWf, countsWf, Bool.and_eq_true, List.all_eq_true, List.mem_range'_1, decide_eq_true_eq]
  exact and_congr_right fun _ => forall_congr' fun n => ⟨fun h h1 h2 => h ⟨h1, by omega⟩, fun h hn => h hn.1 (by omega)⟩

theorem entryWf_range {e : Entry} (h : entryWf e = true) : 1 ≤ e.n ∧ e.n ≤ 12 := by
  simp only [entryWf, Bool.and_eq_true, decide_eq_true_eq] at h
  exact h.1

theorem entry_range_of_entriesWf {es : List Entry} (h : entriesWf es = true) {e : Entry} (he : e ∈ es) :
    1 ≤ e.n ∧ e.n ≤ 12 :=
  entryWf_range ((entriesWf_iff.mp h).1 e he)

/-- Removing the entries of one pulse-number leaves the counts of the others. -/
theorem countAt_filter_ne (es : List Entry) (k n : Nat) :
    countAt (es.filter fun e => decide (e.n ≠ k)) n = if n = k then 0 else countAt es n := by
  unfold countAt
  rw [List.filter_filter]
  split_ifs with h
  · rw [List.length_eq_zero_iff, List.filter_eq_nil_iff]
    intro e _
    simp [h]
  · congr 1
    refine List.filter_congr fun e _ => ?_
    by_cases hn : e.n = n
    · simp [hn, h]
    · simp [hn]

theorem entriesWf_filter_ne {es : List Entry} (k : Nat) (h : entriesWf es = true) :
    entriesWf (es.filter fun e => decide (e.n ≠ k)) = true := by
  obtain ⟨hall, hcount⟩ := entriesWf_iff.mp h
  refine entriesWf_iff.mpr ⟨fun e he => hall e (List.mem_of_mem_filter he), fun n h1 h12 => ?_⟩
  rw [countAt_filter_ne]
  split_ifs
  · exact .inl rfl
  · exact hcount n h1 h12

/-- The decode table holds declared definitions only (30_encoding R110). -/
theorem mem_of_foldl_installDef {defs : List Def} {table : DecodeTable} {k : Key} {d : Def}
    (h : defs.foldl installDef table k = some d) : d ∈ defs ∨ table k = some d := by
  induction defs generalizing table with
  | nil => exact .inr h
  | cons d' rest ih =>
    rcases ih h with hr | ht
    · exact .inl (List.mem_cons_of_mem _ hr)
    · unfold installDef at ht
      split_ifs at ht
      · cases ht; exact .inl List.mem_cons_self
      · exact .inr ht

theorem mem_of_buildTable {defs : List Def} {k : Key} {d : Def} (h : buildTable defs k = some d) : d ∈ defs :=
  (mem_of_foldl_installDef h).resolve_right (by simp)

theorem configWf_iff {c : Config} : configWf c = true ↔
    layoutsWf c.params = true ∧ entriesWf c.defaultSkip = true ∧ ∀ d ∈ c.isaDefs, entriesWf d.entries = true := by
  simp only [configWf, Bool.and_eq_true, List.all_eq_true, and_assoc]

/-- Whatever the key, a well-formed configuration gives well-formed entries (R113). -/
theorem entriesWf_tableEntries {c : Config} (h : configWf c = true) (k : Key) : entriesWf (tableEntries c k) = true := by
  obtain ⟨_, hskip, hdefs⟩ := configWf_iff.mp h
  unfold tableEntries
  split
  · rename_i d hd; exact hdefs d (mem_of_buildTable hd)
  · exact hskip

/-! ### Channels (10_state R56) -/

/-- What `channelsInForm` says of the store, as a property of a memory. -/
def chanWf (m : Memory) : Prop :=
  memWf m = true ∧ memBounded 64 m = true ∧ memRead m 1 = 0x0000#16 ∧ memRead m 2 = 0x0000#16

theorem channelsInForm_iff {s : State} : channelsInForm s ↔ chanWf s.chan := Iff.rfl

/-- A stored channel is neither 1 nor 2, so a write to it keeps the store in form. -/
theorem chanWf_memWrite {m : Memory} {c : Channel} (v : Word) (h1 : c ≠ 1#6) (h2 : c ≠ 2#6) (h : chanWf m) :
    chanWf (memWrite m c.toNat v) := by
  obtain ⟨hwf, hb, hr1, hr2⟩ := h
  have hc1 : 1 ≠ c.toNat := fun e => h1 (BitVec.eq_of_toNat_eq e.symm)
  have hc2 : 2 ≠ c.toNat := fun e => h2 (BitVec.eq_of_toNat_eq e.symm)
  refine ⟨memWf_memWrite _ _ hwf, memBounded_memWrite _ _ c.isLt hb, ?_, ?_⟩
  · rw [memRead_memWrite hwf, if_neg hc1, hr1]
  · rw [memRead_memWrite hwf, if_neg hc2, hr2]

theorem chanWf_hostWriteChannel {m : Memory} (w : Channel × Word) (h : chanWf m) : chanWf (hostWriteChannel m w) := by
  unfold hostWriteChannel
  split_ifs with hw
  · exact h
  · exact chanWf_memWrite _ (fun e => hw (.inl e)) (fun e => hw (.inr e)) h

theorem chanWf_foldl_hostWriteChannel {m : Memory} (batch : List (Channel × Word)) (h : chanWf m) :
    chanWf (batch.foldl hostWriteChannel m) := by
  induction batch generalizing m with
  | nil => exact h
  | cons w rest ih => exact ih (chanWf_hostWriteChannel w h)

theorem chanWf_applyHostWrites {s : State} (h : chanWf s.chan) : chanWf (applyHostWrites s).chan := by
  unfold applyHostWrites
  split
  · split
    · exact h
    · exact chanWf_foldl_hostWriteChannel _ h
  · exact h

theorem chanWf_exec {i : Instr} {s t : State} (he : exec i s = .next t) (h : chanWf s.chan) : chanWf t.chan := by
  rcases chan_exec he with hc | ⟨c, h1, h2, hc⟩ <;> rw [hc]
  · exact h
  · exact chanWf_memWrite _ h1 h2 h

theorem chanWf_dispatch {s t : State} (hd : dispatch s = .next t) (h : chanWf s.chan) : chanWf t.chan := by
  rcases dispatch_cases hd with ⟨_, rfl⟩ | ⟨e, _, he⟩
  · exact h
  · exact runPulses_induct (P := fun s t => chanWf s.chan → chanWf t.chan) (fun _ h => h) (fun _ _ _ h k x => k (h x))
      (fun _ _ _ _ he h => chanWf_exec he h) _ _ _ he h

/-! ### The step -/

/-- What holds between the dispatch of a step and its end: the invariant, but that the bus may hold a value, that no entry of
this time pulse is left, and that the latch may be full from T4 on already. -/
structure DispatchedInForm (u : State) : Prop where
  time : timeInRange u
  banks : banksInForm u
  entries : entriesWf u.queue = true
  toCome : ∀ e ∈ u.queue, u.t < e.n
  chan : chanWf u.chan
  erasable : erasableInForm u
  fixed : fixedInForm u
  latch : ∀ i ∈ u.wba, 4 ≤ u.t ∧ u.t ≤ 9 ∧ i < u.cfg.params.erasableWords ∧ memRead u.eMem i = 0x0000#16
  config : configWf u.cfg = true

theorem dispatchedInForm_of_inv {s u : State} (h : Inv s) (hd : dispatch (tickStart (applyHostWrites s)) = .next u) :
    DispatchedInForm u := by
  obtain ⟨htime, _, hbanks, ⟨hentries, hcome⟩, hchan, herasable, hfixed, hlatch, hconfig⟩ := h
  obtain ⟨K, hqueue, _⟩ := dispatch_kept hd
  obtain ⟨_, _, _, _, ht, hwba, hE, hF, hcfg, hq, _⟩ := tickStart_kept s
  have hut := K.time.trans ht
  have hucfg := K.cfg.trans hcfg
  have huE := K.eMem.trans hE
  rw [ht, hq] at hqueue
  have hstart : banksInForm (tickStart (applyHostWrites s)) ∧ chanWf (tickStart (applyHostWrites s)).chan := by
    rw [tickStart_eq]
    refine ⟨?_, chanWf_applyHostWrites (channelsInForm_iff.mp hchan)⟩
    rw [applyHostWrites_eq]
    exact hbanks
  constructor
  case time => rw [timeInRange, hut]; exact htime
  case banks => exact banks_dispatch hd hstart.1
  case entries => rw [hqueue]; exact entriesWf_filter_ne _ hentries
  case toCome =>
    intro e he
    simp only [hqueue, List.mem_filter, decide_eq_true_eq] at he
    have := hcome e he.1
    omega
  case chan => exact chanWf_dispatch hd hstart.2
  case erasable => rw [erasableInForm, huE, hucfg]; exact herasable
  case fixed => rw [fixedInForm, K.fMem.trans hF, hucfg]; exact hfixed
  case latch =>
    intro i hi
    rw [K.wba.trans hwba] at hi
    obtain ⟨h5, hrest⟩ := hlatch i hi
    rw [huE, hucfg, hut]
    exact ⟨by omega, hrest⟩
  case config => rw [hucfg]; exact hconfig

/-- The counter after the end of a tick that is not the last of its cycle. -/
theorem tickEnd_t_of_lt {u : State} (h : u.t < 12) : (tickEnd u).t = u.t + 1 := by
  rw [tickEnd_t, Nat.mod_eq_of_lt h]

/-- The end of a tick before T12 leaves a state in form, when a T9 has emptied the latch. -/
theorem DispatchedInForm.inv_tickEnd {u : State} (h : DispatchedInForm u) (h12 : u.t ≠ 12) (h9 : u.t = 9 → u.wba = none) :
    Inv (tickEnd u) := by
  have ht : (tickEnd u).t = u.t + 1 := tickEnd_t_of_lt (by have := h.time; omega)
  refine ⟨?_, rfl, h.banks, ⟨h.entries, fun e he => ?_⟩, h.chan, h.erasable, h.fixed, fun i hi => ?_, h.config⟩
  · have := h.time; rw [timeInRange, ht]; omega
  · have := h.toCome e he; rw [ht]; omega
  · obtain ⟨h4, h9', hmem⟩ := h.latch i hi
    have hne : u.t ≠ 9 := fun e => by
      rw [tickEnd_wba, h9 e] at hi
      cases hi
    rw [ht]
    exact ⟨by omega, by omega, hmem⟩

/-- The T4 read zeroes and latches a cell of `E`, or changes `G` only (20_memory R79 to R81). -/
theorem DispatchedInForm.of_memoryRead {u v : State} (h : DispatchedInForm u) (h4 : u.t = 4) (hm : memoryRead u = .next v) :
    DispatchedInForm v ∧ v.t = u.t := by
  rcases memoryRead_cases hm with ⟨_, rfl⟩ | ⟨i, _, hi, rfl⟩ | ⟨i, _, _, rfl⟩
  · exact ⟨h, rfl⟩
  · have hlatched : memRead (memWrite u.eMem i 0x0000#16) i = 0x0000#16 := by
      rw [memRead_memWrite h.erasable.1, if_pos rfl]
    refine ⟨{ h with
      erasable := ⟨memWf_memWrite _ _ h.erasable.1, memBounded_memWrite _ _ hi h.erasable.2⟩
      latch := fun j hj => ?_ }, rfl⟩
    cases hj
    exact ⟨h4.ge, h4.trans_le (by decide), hi, hlatched⟩
  · exact ⟨{ h with }, rfl⟩

/-- The T9 write-back stores inside `E` and empties the latch (R82). -/
theorem DispatchedInForm.of_writeBack {u : State} (h : DispatchedInForm u) :
    DispatchedInForm (writeBack u) ∧ (writeBack u).wba = none ∧ (writeBack u).t = u.t := by
  rcases writeBack_cases u with ⟨hn, hw⟩ | ⟨i, hi, hw⟩ <;> rw [hw]
  · exact ⟨h, hn, rfl⟩
  · obtain ⟨_, _, hlt, _⟩ := h.latch i hi
    exact ⟨{ h with
      erasable := ⟨memWf_memWrite _ _ h.erasable.1, memBounded_memWrite _ _ hlt h.erasable.2⟩
      latch := fun j hj => by cases hj }, rfl, rfl⟩

/-- After the dispatch of T12 the queue is empty: no well-formed entry comes later in the cycle (48_scheduler R264). -/
theorem DispatchedInForm.queue_nil {u : State} (h : DispatchedInForm u) (h12 : u.t = 12) : u.queue = [] := by
  refine List.eq_nil_iff_forall_not_mem.mpr fun e he => ?_
  have hlate := h.toCome e he
  have hrange := entry_range_of_entriesWf h.entries he
  omega

/-- The cycle boundary begins the next cycle with the entries of the decode key and an empty latch (R270 to R276). -/
theorem DispatchedInForm.inv_of_eq_12 {u t : State} (h : DispatchedInForm u) (h12 : u.t = 12)
    (ha : afterDispatch u = .next t) : Inv t := by
  obtain ⟨ds, hds⟩ := afterDispatch_of_eq_12 h12
  rw [hds, commitStage_eq, h.queue_nil h12, List.nil_append] at ha
  cases ha
  have hentries := entriesWf_tableEntries h.config (decodeKeyOf (commitStage u))
  have hone : u.t % 12 + 1 = 1 := by omega
  rw [commitStage_eq] at hentries
  refine ⟨?_, rfl, h.banks, ⟨hentries, fun e he => ?_⟩, h.chan, h.erasable, h.fixed, fun i hi => ?_, h.config⟩
  · rw [timeInRange, tickEnd_t]; omega
  · have := entry_range_of_entriesWf hentries he
    rw [tickEnd_t]
    show u.t % 12 + 1 ≤ e.n
    omega
  · have := h.latch i hi
    omega

theorem DispatchedInForm.inv_afterDispatch {u t : State} (h : DispatchedInForm u) (ha : afterDispatch u = .next t) :
    Inv t := by
  by_cases h4 : u.t = 4
  · rw [afterDispatch_of_eq_4 h4] at ha
    obtain ⟨v, hv, ha⟩ := andThen_eq_next.mp ha
    cases ha
    obtain ⟨hform, ht⟩ := h.of_memoryRead h4 hv
    exact hform.inv_tickEnd (by omega) (by omega)
  by_cases h9 : u.t = 9
  · rw [afterDispatch_of_eq_9 h9] at ha
    cases ha
    obtain ⟨hform, hempty, ht⟩ := h.of_writeBack
    exact hform.inv_tickEnd (by omega) fun _ => hempty
  by_cases h12 : u.t = 12
  · exact h.inv_of_eq_12 h12 ha
  · rw [afterDispatch_of_ne h4 h9 h12] at ha
    cases ha
    exact h.inv_tickEnd h12 fun e => absurd e h9

/-- Settles O2, every part of the invariant being decidable on the state of R61. -/
theorem invAtReset : Obligations.InvAtReset := by
  unfold Obligations.InvAtReset
  decide

/-- Settles O55: the dispatch, then the steps after it. -/
theorem invKept : Obligations.InvKept := by
  intro s t hinv hstep
  obtain ⟨u, hdispatch, hafter⟩ := andThen_eq_next.mp hstep
  exact (dispatchedInForm_of_inv hinv hdispatch).inv_afterDispatch hafter

end Sys2Proof.Machine

/-! PROOFS. The three fields that nothing reads (10_state R32, R41, 60_exceptions R307): every part of a step takes states that
differ in them only to outcomes that differ in them only, then the obligation O59. -/

namespace Sys2Proof.Machine

/-- A state with other values in the three inert fields: `S_temp`, `InhibitInterrupts`, the diagnostics. -/
def withInert (tmp : Addr) (inh : Bool) (ds : List Diag) (s : State) : State :=
  { s with sTemp := tmp, inhibitInterrupts := inh, diags := ds }

/-- Two outcomes of the same kind, whose states differ in the inert fields only. -/
inductive InertAlike : Host.Outcome State Fault Refusal → Host.Outcome State Fault Refusal → Prop
  | next (t : State) (tmp : Addr) (inh : Bool) (ds : List Diag) : InertAlike (.next t) (.next (withInert tmp inh ds t))
  | fault (f : Fault) (tmp : Addr) (inh : Bool) (ds : List Diag) :
      InertAlike (.fault f) (.fault (mapWreck (withInert tmp inh ds) f))
  | refused (r : Refusal) : InertAlike (.refused r) (.refused r)

theorem InertAlike.of_next {t : State} {o : Host.Outcome State Fault Refusal} (h : InertAlike (.next t) o) :
    ∃ u, o = .next u ∧
      { u with sTemp := t.sTemp, inhibitInterrupts := t.inhibitInterrupts, diags := t.diags } = t := by
  cases h with
  | next _ tmp inh ds => exact ⟨_, rfl, rfl⟩

theorem InertAlike.of_refused {r : Refusal} {o : Host.Outcome State Fault Refusal} (h : InertAlike (.refused r) o) :
    o = .refused r := by
  cases h with
  | refused => rfl

theorem InertAlike.of_fault {f : Fault} {o : Host.Outcome State Fault Refusal} (h : InertAlike (.fault f) o) :
    ∃ tmp inh ds, o = .fault (mapWreck (withInert tmp inh ds) f) := by
  cases h with
  | fault _ tmp inh ds => exact ⟨tmp, inh, ds, rfl⟩

/-- A part of a step that does not read the inert fields. -/
def InertBlind (f : State → Host.Outcome State Fault Refusal) : Prop :=
  ∀ s tmp inh ds, InertAlike (f s) (f (withInert tmp inh ds s))

theorem InertAlike.andThen {o o' : Host.Outcome State Fault Refusal} {f : State → Host.Outcome State Fault Refusal}
    (ho : InertAlike o o') (hf : InertBlind f) : InertAlike (andThen o f) (andThen o' f) := by
  cases ho with
  | next t tmp inh ds => exact hf t tmp inh ds
  | fault r tmp inh ds => exact .fault r tmp inh ds
  | refused r => exact .refused r

/-- Parts done one after another, none of which reads the inert fields. -/
theorem InertBlind.andThen {f g : State → Host.Outcome State Fault Refusal} (hf : InertBlind f) (hg : InertBlind g) :
    InertBlind fun s => andThen (f s) g :=
  fun s tmp inh ds => (hf s tmp inh ds).andThen hg

/-- An update that commutes with a change of the inert fields. -/
theorem InertBlind.of_commute {f : State → State}
    (h : ∀ s tmp inh ds, f (withInert tmp inh ds s) = withInert tmp inh ds (f s)) : InertBlind fun s => .next (f s) :=
  fun s tmp inh ds => by
    show InertAlike (.next (f s)) (.next (f (withInert tmp inh ds s)))
    rw [h]
    exact .next _ tmp inh ds

/-! ### The instructions -/

theorem centralWrite_withInert (w : Word) (s : State) (tmp : Addr) (inh : Bool) (ds : List Diag) :
    centralWrite w (withInert tmp inh ds s) = withInert tmp inh ds (centralWrite w s) := by
  unfold centralWrite withInert
  dsimp only
  split <;> rfl

theorem channelWrite_withInert (w : Word) (s : State) (tmp : Addr) (inh : Bool) (ds : List Diag) :
    channelWrite w (withInert tmp inh ds s) = withInert tmp inh ds (channelWrite w s) := by
  unfold channelWrite withInert
  dsimp only
  split_ifs <;> rfl

theorem inertBlind_zipDoAction (act : ZipAction) : InertBlind (zipDoAction act) := by
  intro s tmp inh ds
  obtain ⟨read, load, ci, mcro⟩ := act
  cases read <;> cases load <;> cases ci <;> cases mcro <;> exact .next _ tmp inh ds

theorem inertBlind_execL2gd : InertBlind execL2gd := fun _ tmp inh ds => .next _ tmp inh ds

theorem inertBlind_execA2x : InertBlind execA2x := fun _ tmp inh ds => .next _ tmp inh ds

theorem inertBlind_execZip : InertBlind execZip := by
  intro s tmp inh ds
  unfold execZip withInert
  dsimp only
  split
  · exact .fault _ tmp inh ds
  · exact (inertBlind_zipDoAction _ s tmp inh ds).andThen (inertBlind_execA2x.andThen inertBlind_execL2gd)

/-- `RAD` writes `InhibitInterrupts` on two of the sentinels, and reads none of the three. -/
theorem inertBlind_execRad : InertBlind execRad := by
  intro s tmp inh ds
  unfold execRad withInert
  dsimp only
  split
  · exact .next _ tmp false ds
  · exact .next _ tmp true ds
  · exact .next _ tmp inh ds
  · exact .next _ tmp inh ds

theorem inertBlind_execWg : InertBlind execWg := by
  intro s tmp inh ds
  unfold execWg withInert
  dsimp only
  split
  · exact .next _ tmp inh ds
  · exact .fault _ tmp inh ds

/-- The default skip appends to the diagnostics, and reads none of the three. -/
theorem inertBlind_execDefaultSkip (k : StageKey) (e : Bool) (o : Opcode) : InertBlind (execDefaultSkip k e o) := by
  intro s tmp inh ds
  unfold execDefaultSkip
  dsimp only
  split
  · exact .next _ tmp inh ds
  · exact .next _ tmp inh (ds ++ [{ b := s.b, sq := o, stage := k, extend := e, z := s.z }])

theorem inertBlind_exec (i : Instr) : InertBlind (exec i) := by
  cases i
  case wsc => exact .of_commute fun s => centralWrite_withInert s.wbus s
  case wch => exact .of_commute fun s => channelWrite_withInert s.wbus s
  case wg => exact inertBlind_execWg
  case zip => exact inertBlind_execZip
  case rad => exact inertBlind_execRad
  case defaultSkip k e o => exact inertBlind_execDefaultSkip k e o
  case nisq => exact fun _ tmp _ ds => .next _ tmp false ds
  case radRelint => exact fun _ tmp _ ds => .next _ tmp false ds
  case radInhint => exact fun _ tmp _ ds => .next _ tmp true ds
  case trsm =>
    refine .of_commute (f := fun s => if s.sReg = 0o17#12 then requestStage 2#2 s else s) fun s tmp inh ds => ?_
    exact (apply_ite (withInert tmp inh ds) (s.sReg = 0o17#12) (requestStage 2#2 s) s).symm
  all_goals exact fun _ tmp inh ds => .next _ tmp inh ds

theorem inertBlind_runPulse (id : PulseId) : InertBlind (runPulse id) := by
  unfold runPulse
  cases decodePulse id with
  | ok i => exact inertBlind_exec i
  | error r => exact fun _ _ _ _ => .refused _

theorem inertBlind_runPulses (ids : List PulseId) : InertBlind (runPulses ids) := by
  induction ids with
  | nil => exact fun _ tmp inh ds => .next _ tmp inh ds
  | cons id rest ih => exact (inertBlind_runPulse id).andThen ih

/-! ### The scheduler -/

theorem inertBlind_dispatch : InertBlind dispatch := by
  intro s tmp inh ds
  have hc : collected { s with sTemp := tmp, inhibitInterrupts := inh, diags := ds } = collected s := rfl
  unfold dispatch withInert
  dsimp only
  rw [hc]
  split
  · exact .next _ tmp inh ds
  · exact inertBlind_runPulses _ _ tmp inh ds
  · split
    · exact .fault _ tmp inh ds
    · split
      · exact inertBlind_runPulses _ _ tmp inh ds
      · exact .fault _ tmp inh ds

theorem inertBlind_memoryRead : InertBlind memoryRead := by
  intro s tmp inh ds
  unfold memoryRead withInert
  dsimp only
  split
  · exact .next _ tmp inh ds
  · split
    · exact .fault _ tmp inh ds
    · split <;> exact .next _ tmp inh ds

theorem inertBlind_readStep : InertBlind readStep := by
  intro s tmp inh ds
  show InertAlike (readStep s) (if s.t = 4 then memoryRead (withInert tmp inh ds s) else .next (withInert tmp inh ds s))
  unfold readStep
  split
  · exact inertBlind_memoryRead s tmp inh ds
  · exact .next _ tmp inh ds

theorem writeBackStep_withInert (s : State) (tmp : Addr) (inh : Bool) (ds : List Diag) :
    writeBackStep (withInert tmp inh ds s) = withInert tmp inh ds (writeBackStep s) := by
  unfold writeBackStep writeBack withInert
  dsimp only
  split
  · split <;> rfl
  · rfl

theorem commitStage_withInert (s : State) (tmp : Addr) (inh : Bool) (ds : List Diag) :
    commitStage (withInert tmp inh ds s) = withInert tmp inh ds (commitStage s) := by
  rw [commitStage_eq, commitStage_eq]
  rfl

theorem inertBlind_invokeNext : InertBlind invokeNext := by
  intro s tmp inh ds
  have hk : decodeKeyOf (withInert tmp inh ds s) = decodeKeyOf s := rfl
  have hd : (withInert tmp inh ds s).cfg = s.cfg := rfl
  unfold invokeNext
  rw [hk, hd]
  split
  · exact .next _ tmp inh ds
  · exact inertBlind_exec _ s tmp inh ds

theorem inertBlind_cycleStep : InertBlind cycleStep := by
  intro s tmp inh ds
  show InertAlike (cycleStep s) (if s.t = 12 then andThen (invokeNext (commitStage (withInert tmp inh ds s)))
    (fun u => .next { u with dvSequence := false }) else .next (withInert tmp inh ds s))
  unfold cycleStep
  rw [commitStage_withInert]
  split
  · exact (inertBlind_invokeNext _ tmp inh ds).andThen (.of_commute fun _ _ _ _ => rfl)
  · exact .next _ tmp inh ds

theorem inertBlind_afterDispatch : InertBlind afterDispatch := by
  refine inertBlind_readStep.andThen fun s tmp inh ds => ?_
  rw [writeBackStep_withInert]
  exact (inertBlind_cycleStep _ tmp inh ds).andThen (.of_commute fun _ _ _ _ => rfl)

theorem applyHostWrites_withInert (s : State) (tmp : Addr) (inh : Bool) (ds : List Diag) :
    applyHostWrites (withInert tmp inh ds s) = withInert tmp inh ds (applyHostWrites s) := by
  unfold applyHostWrites withInert
  dsimp only
  split
  · split <;> rfl
  · rfl

theorem tickStart_withInert (s : State) (tmp : Addr) (inh : Bool) (ds : List Diag) :
    tickStart (withInert tmp inh ds s) = withInert tmp inh ds (tickStart s) := by
  rw [tickStart_eq, tickStart_eq s, tickStart_nextInstruction, tickStart_extendNext, tickStart_pifl,
    tickStart_nextInstruction, tickStart_extendNext, tickStart_pifl]
  rfl

theorem inertBlind_step : InertBlind step := by
  intro s tmp inh ds
  unfold step tick
  rw [applyHostWrites_withInert, tickStart_withInert]
  exact (inertBlind_dispatch _ tmp inh ds).andThen inertBlind_afterDispatch

/-- Settles O59: every part of the step is blind to the three fields, so the step is. -/
theorem inertStateIsNotRead : Obligations.InertStateIsNotRead := by
  intro s tmp inh ds
  have hstep := inertBlind_step s tmp inh ds
  refine ⟨fun t ht => ?_, fun r hr => ?_, fun f hf => ?_⟩
  · rw [ht] at hstep; exact hstep.of_next
  · rw [hr] at hstep; exact hstep.of_refused
  · rw [hf] at hstep; exact hstep.of_fault

end Sys2Proof.Machine

/-! PROOFS. The state at creation (10_state R61, 70_reset R333): the reset state, what the builder's checks leave to be true, the
image and the block initialisation, then the obligations O1 and O3. -/

namespace Sys2Proof.Machine

/-- Settles O1: the fields by evaluation, the memories by the empty list reading 0 everywhere. -/
theorem resetState : Obligations.ResetState :=
  ⟨by decide, by decide, by decide, by decide, by decide, by decide, fun _ => rfl, fun _ => rfl, fun _ => rfl, rfl⟩

/-! ### The checks on entries and definitions (30_encoding R115, R116, R123) -/

theorem isReservedId_eq (id : PulseId) : isReservedId id = !idWf id := by
  revert id
  decide

/-- Entries that pass every check of the builder are well formed. -/
theorem entriesWf_of_entriesRefusal {item : BuildItem} (h : entriesRefusal item = none) :
    entriesWf (itemEntries item) = true := by
  unfold entriesRefusal at h
  dsimp only at h
  split at h
  · cases h
  rename_i hnumber
  split at h
  · cases h
  rename_i hfive
  split at h
  · cases h
  rename_i hthree
  split at h
  · cases h
  rename_i hreserved
  simp only [List.find?_eq_none, List.mem_range'_1, List.mem_flatMap, isReservedId_eq, Bool.not_eq_true',
    decide_eq_false_iff_not, not_not, decide_eq_true_eq, Bool.not_eq_false] at hnumber hfive hthree hreserved
  refine entriesWf_iff.mpr ⟨fun e he => ?_, fun n h1 h12 => ?_⟩
  · simp only [entryWf, Bool.and_eq_true, decide_eq_true_eq, List.all_eq_true]
    exact ⟨hnumber e he, fun id hid => hreserved id ⟨e, he, hid⟩⟩
  · have h5 := hfive n ⟨h1, by omega⟩
    have h3 := hthree n ⟨h1, by omega⟩
    omega

theorem entriesWf_of_buildDef {d : RawDef} {b : Def} (h : buildDef d = .ok b) : entriesWf b.entries = true := by
  unfold buildDef at h
  split at h
  · split_ifs at h
    split at h
    · cases h
    · rename_i hr
      cases h
      exact entriesWf_of_entriesRefusal hr
  · cases h

theorem entriesWf_of_buildDefs {ds : List RawDef} {bs : List Def} (h : buildDefs ds = .ok bs) :
    ∀ b ∈ bs, entriesWf b.entries = true := by
  induction ds generalizing bs with
  | nil => cases h; simp
  | cons d rest ih =>
    unfold buildDefs at h
    split at h
    · cases h
    rename_i b hb
    split at h
    · cases h
    rename_i bs' hbs
    cases h
    simp only [List.mem_cons, forall_eq_or_imp]
    exact ⟨entriesWf_of_buildDef hb, ih hbs⟩

/-! ### The block initialisation (70_reset R333) -/

theorem memBounded_memWriteAll {n : Nat} {m : Memory} {cells : List (Nat × Word)} (hc : ∀ c ∈ cells, c.1 < n)
    (h : memBounded n m = true) : memBounded n (memWriteAll m cells) = true := by
  induction cells generalizing m with
  | nil => exact h
  | cons c rest ih =>
    exact ih (fun c' hc' => hc c' (List.mem_cons_of_mem _ hc')) (memBounded_memWrite _ _ (hc c List.mem_cons_self) h)

/-- An initialised cell reads the last value given for it. -/
theorem memRead_memWriteAll {m : Memory} (h : memWf m = true) (cells : List (Nat × Word)) (i : Nat) :
    memRead (memWriteAll m cells) i =
      (((cells.filter fun c => decide (c.1 = i)).getLast?).map Prod.snd).getD (memRead m i) := by
  induction cells generalizing m with
  | nil => rfl
  | cons c rest ih =>
    rw [memWriteAll, ih (memWf_memWrite _ _ h), memRead_memWrite h]
    by_cases hi : c.1 = i
    · rw [if_pos hi.symm, List.filter_cons_of_pos (by simpa using hi), List.getLast?_cons, Option.map_some,
        Option.getD_some, Option.getD_map]
    · rw [if_neg (Ne.symm hi), List.filter_cons_of_neg (by simpa using hi)]

/-! ### The image (20_memory R87) -/

theorem memBounded_memOfWords {n i : Nat} {ws : List Word} (h : i + ws.length ≤ n) :
    memBounded n (memOfWords i ws) = true := by
  induction ws generalizing i with
  | nil => rfl
  | cons w rest ih =>
    rw [List.length_cons] at h
    exact memBounded_memCons (by omega) (ih (by omega))

/-- Word `k` after the start of a loaded image is word `k` of the image, and 0x0000 beyond its end. -/
theorem memRead_memOfWords (i k : Nat) (ws : List Word) :
    memRead (memOfWords i ws) (i + k) = ws[k]?.getD unlistedWord := by
  induction ws generalizing i k with
  | nil => rfl
  | cons w rest ih =>
    rw [memOfWords, memRead_memCons _ _ (memWfAbove_memOfWords rest (Nat.lt_succ_self i))]
    cases k with
    | zero => simp
    | succ k =>
      rw [if_neg (by omega), show i + (k + 1) = i + 1 + k by omega, ih]
      rfl

theorem imageWords_cons_cons {hi lo : BitVec 8} {rest : List (BitVec 8)} {ws : List Word}
    (h : imageWords (hi :: lo :: rest) = some ws) : ∃ ws', imageWords rest = some ws' ∧ ws = (hi ++ lo) :: ws' := by
  unfold imageWords at h
  split at h
  · rename_i ws' hws
    cases h
    exact ⟨ws', hws, rfl⟩
  · cases h

/-- An image read as words has two bytes for each, the high one first. -/
theorem imageWords_spec {bytes : List (BitVec 8)} {ws : List Word} (h : imageWords bytes = some ws) :
    bytes.length = 2 * ws.length ∧
    ∀ (k : Nat) (hi lo : BitVec 8), bytes[2 * k]? = some hi → bytes[2 * k + 1]? = some lo → ws[k]? = some (hi ++ lo) := by
  induction bytes using imageWords.induct generalizing ws with
  | case1 => cases h; simp
  | case2 => cases h
  | case3 hi lo rest _ _ ih | case4 hi lo rest _ ih =>
    obtain ⟨ws', hws, rfl⟩ := imageWords_cons_cons h
    obtain ⟨hlen, hword⟩ := ih hws
    refine ⟨by simp only [List.length_cons, hlen]; omega, fun k hi' lo' hhi hlo => ?_⟩
    cases k with
    | zero => cases hhi; cases hlo; rfl
    | succ k => exact hword k hi' lo' hhi hlo

theorem toNat_append_bytes (hi lo : BitVec 8) : (hi ++ lo : Word).toNat = hi.toNat * 256 + lo.toNat := by
  rw [BitVec.toNat_append, ← Nat.shiftLeft_add_eq_or_of_lt lo.isLt, Nat.shiftLeft_eq]

/-! ### Creation -/

/-- The configuration that an accepted creation holds, with the definitions as built. -/
def configOf (h : HostSupply) (defs : List Def) : Config where
  params := h.params
  edit23 := h.edit23
  zipSelect := h.zipSelect
  zipTable := h.zipTable
  isaDefs := defs
  defaultSkip := h.defaultSkip
  bootstrap := h.bootstrap
  fixedImage := h.image
  erasableInit := h.erasableInit
  hostChannelWrites := h.hostChannelWrites

/-- The creation state of what the host supplies, its definitions built and its image read as words. -/
def createdState (h : HostSupply) (defs : List Def) (ws : List Word) : State :=
  { State.reset with
    z := h.presetZ
    queue := h.bootstrap
    eMem := memWriteAll [] h.erasableInit
    fMem := memOfWords 0 ws
    cfg := configOf h defs
    hostInputs := h.hostInputs }

/-- What the builder has checked when it accepts. -/
structure SupplyAccepted (h : HostSupply) (defs : List Def) (ws : List Word) : Prop where
  layouts : layoutsWf h.params = true
  defs : buildDefs h.isaDefs = .ok defs
  defaultSkip : entriesWf h.defaultSkip = true
  bootstrap : entriesWf h.bootstrap = true
  image : imageWords h.image = some ws
  fits : ws.length ≤ h.params.fixedWords
  cells : ∀ c ∈ h.erasableInit, c.1 < h.params.erasableWords

/-- An accepted creation has passed every check, and its state is determined. -/
theorem create_cases {h : HostSupply} {s : State} (hs : create h = .ok s) :
    ∃ defs ws, SupplyAccepted h defs ws ∧ s = createdState h defs ws := by
  unfold create at hs
  split at hs
  · cases hs
  rename_i hlayouts
  split at hs
  · cases hs
  rename_i defs hdefs
  split at hs
  · cases hs
  rename_i hskip
  split at hs
  · cases hs
  rename_i hbootstrap
  split at hs
  · cases hs
  rename_i ws hws
  split_ifs at hs with hfits
  split at hs
  · cases hs
  rename_i hcells
  cases hs
  refine ⟨defs, ws, ?_, rfl⟩
  constructor
  case layouts => simpa [layoutsWf] using hlayouts
  case defs => exact hdefs
  case defaultSkip => exact entriesWf_of_entriesRefusal hskip
  case bootstrap => exact entriesWf_of_entriesRefusal hbootstrap
  case image => exact hws
  case fits => exact not_lt.mp hfits
  case cells => simpa using hcells

theorem SupplyAccepted.inv {h : HostSupply} {defs : List Def} {ws : List Word} (ha : SupplyAccepted h defs ws) :
    Inv (createdState h defs ws) := by
  have hconfig : configWf (configOf h defs) = true :=
    configWf_iff.mpr ⟨ha.layouts, ha.defaultSkip, entriesWf_of_buildDefs ha.defs⟩
  have hqueue : ∀ e ∈ h.bootstrap, 1 ≤ e.n := fun e he => (entry_range_of_entriesWf ha.bootstrap he).1
  have htime : 1 ≤ 1 ∧ 1 ≤ 12 := by decide
  have herasable : memBounded h.params.erasableWords (memWriteAll [] h.erasableInit) = true :=
    memBounded_memWriteAll ha.cells rfl
  have hfixed : memBounded h.params.fixedWords (memOfWords 0 ws) = true :=
    memBounded_memOfWords (by rw [Nat.zero_add]; exact ha.fits)
  have hlatch : latchInForm (createdState h defs ws) := fun i hi => by cases hi
  exact ⟨htime, rfl, ⟨Nat.two_pow_pos _, Nat.two_pow_pos _⟩, ⟨ha.bootstrap, hqueue⟩, ⟨rfl, rfl, rfl, rfl⟩,
    ⟨memWf_memWriteAll _ rfl, herasable⟩, ⟨memWf_memOfWords _ _, hfixed⟩, hlatch, hconfig⟩

/-- Settles O3: an accepted supply determines the state, whose memories are read by the laws of the two loads. -/
theorem creationInForm : Obligations.CreationInForm := by
  intro h s hs
  obtain ⟨defs, ws, ha, rfl⟩ := create_cases hs
  obtain ⟨hlen, hword⟩ := imageWords_spec ha.image
  have hfits := ha.fits
  have hread (k : Nat) : memRead (memOfWords 0 ws) k = ws[k]?.getD unlistedWord := by
    simpa using memRead_memOfWords 0 k ws
  refine ⟨ha.inv, rfl, rfl, ha.defs, ha.cells, memRead_memWriteAll rfl h.erasableInit, by omega, by omega,
    fun k hi lo hhi hlo => ?_, fun k hk => ?_⟩
  · show (memRead (memOfWords 0 ws) k).toNat = _
    rw [hread, hword k hi lo hhi hlo]
    exact toNat_append_bytes hi lo
  · show memRead (memOfWords 0 ws) k = _
    rw [hread, List.getElem?_eq_none (by omega)]
    rfl

end Sys2Proof.Machine

/-! PROOFS. Memory (20_memory R74 to R85): the map of the spec, the T4 read, the T9 write-back and the window between them, with
the obligations O36 to O41. -/

namespace Sys2Proof.Machine

/-! ### The map of the spec (R74 to R77, decisions D7, D8) -/

theorem lowBits_toNat (n : Nat) (v : Word) : (lowBits n v).toNat = v.toNat % 2 ^ n := by
  unfold lowBits
  rw [BitVec.toNat_ofNat, Nat.mod_eq_of_lt (lt_of_le_of_lt (Nat.mod_le _ _) v.isLt)]

theorem resolve_spec_erasable {a : Addr} (eb fb : Word) (h : a.toNat ≤ 0o1777) :
    resolve specParams a eb fb =
      (.erasable, if a.toNat ≤ 0o1377 then a.toNat else eb.toNat % 8 * 0o400 + a.toNat % 0o400) := by
  have heb : (lowBits specParams.ebWidth eb).toNat = eb.toNat % 8 := lowBits_toNat 3 eb
  have h2 : a.toNat ≤ specParams.eBankedTop := h
  unfold resolve
  rw [heb, if_pos h2]
  by_cases h1 : a.toNat ≤ specParams.eUnswitchedTop
  · rw [if_pos h1]
    exact congrArg _ (if_pos h1).symm
  · rw [if_neg h1]
    exact congrArg _ (if_neg h1).symm

theorem resolve_spec_fixed {a : Addr} (eb fb : Word) (h : 0o2000 ≤ a.toNat) :
    resolve specParams a eb fb =
      (.fixed, if a.toNat ≤ 0o3777 then fb.toNat % 32 * 0o2000 + a.toNat % 0o2000 else a.toNat) := by
  have hfb : (lowBits specParams.fbWidth fb).toNat = fb.toNat % 32 := lowBits_toNat 5 fb
  have h1 : ¬ a.toNat ≤ specParams.eUnswitchedTop := show ¬ a.toNat ≤ 0o1377 by omega
  have h2 : ¬ a.toNat ≤ specParams.eBankedTop := show ¬ a.toNat ≤ 0o1777 by omega
  unfold resolve
  rw [hfb, if_neg h1, if_neg h2]
  by_cases h3 : a.toNat ≤ specParams.fBankedTop
  · rw [if_pos h3]
    exact congrArg _ (if_pos h3).symm
  · rw [if_neg h3]
    exact congrArg _ (if_neg h3).symm

/-- R78: no address and no bank value leaves the arrays of the spec. -/
theorem resolve_spec_lt (a : Addr) (eb fb : Word) :
    (resolve specParams a eb fb).2 < spaceWords specParams (resolve specParams a eb fb).1 := by
  have hE : spaceWords specParams .erasable = 2048 := rfl
  have hF : spaceWords specParams .fixed = 36864 := rfl
  by_cases h : a.toNat ≤ 0o1777
  · simp only [resolve_spec_erasable eb fb h, hE]
    split_ifs <;> omega
  · simp only [resolve_spec_fixed eb fb (show 0o2000 ≤ a.toNat by omega), hF]
    split_ifs <;> omega

theorem resolve_spec_erasable_iff (a : Addr) (eb fb : Word) :
    (resolve specParams a eb fb).1 = .erasable ↔ a.toNat ≤ 0o1777 := by
  by_cases h : a.toNat ≤ 0o1777
  · simp [resolve_spec_erasable eb fb h, h]
  · simp [resolve_spec_fixed eb fb (show 0o2000 ≤ a.toNat by omega), h]

theorem toNat_ofNat_of_lt {w n : Nat} (h : n < 2 ^ w) : (BitVec.ofNat w n).toNat = n := by
  rw [BitVec.toNat_ofNat, Nat.mod_eq_of_lt h]

/-- Settles O36: the two equations of the map, read at the addresses of the windows. -/
theorem translationInRange : Obligations.TranslationInRange := by
  refine ⟨fun a eb fb => ⟨resolve_spec_lt a eb fb, resolve_spec_erasable_iff a eb fb⟩,
    fun k b fb hk hb => ⟨?erasableBank, fun hb2 eb => ?erasableUnswitched⟩,
    fun k b eb hk hb => ⟨?fixedBank, fun hb2 hb3 fb => ?fixedUnswitched⟩⟩
  case erasableBank =>
    have ha : (BitVec.ofNat 12 (0o1400 + k)).toNat = 0o1400 + k := toNat_ofNat_of_lt (by omega)
    rw [resolve_spec_erasable _ _ (by omega), ha, toNat_ofNat_of_lt (by omega), if_neg (by omega)]
    congr 1
    omega
  case erasableUnswitched =>
    have ha : (BitVec.ofNat 12 (0o400 * b + k)).toNat = 0o400 * b + k := toNat_ofNat_of_lt (by omega)
    rw [resolve_spec_erasable _ _ (by omega), ha, if_pos (by omega)]
  case fixedBank =>
    have ha : (BitVec.ofNat 12 (0o2000 + k)).toNat = 0o2000 + k := toNat_ofNat_of_lt (by omega)
    rw [resolve_spec_fixed _ _ (by omega), ha, toNat_ofNat_of_lt (by omega), if_pos (by omega)]
    congr 1
    omega
  case fixedUnswitched =>
    have ha : (BitVec.ofNat 12 (0o2000 * b + k)).toNat = 0o2000 * b + k := toNat_ofNat_of_lt (by omega)
    rw [resolve_spec_fixed _ _ (by omega), ha, if_neg (by omega)]

/-! ### The two memory steps of the cycle (R79 to R82) -/

theorem memoryRead_of_reserved {s : State} (h : s.sReg.toNat < s.cfg.params.reservedLowLimit) : memoryRead s = .next s :=
  if_pos h

theorem memoryRead_of_outside {s : State} {sp : Space} {i : Nat} (hl : s.cfg.params.reservedLowLimit ≤ s.sReg.toNat)
    (hr : resolve s.cfg.params s.sReg s.eb s.fb = (sp, i)) (hi : spaceWords s.cfg.params sp ≤ i) :
    memoryRead s = .fault (.addressRange s.sReg sp i s) := by
  simp [memoryRead, not_lt.mpr hl, hr, hi]

theorem memoryRead_of_erasable {s : State} {i : Nat} (hl : s.cfg.params.reservedLowLimit ≤ s.sReg.toNat)
    (hr : resolve s.cfg.params s.sReg s.eb s.fb = (.erasable, i)) (hi : i < spaceWords s.cfg.params .erasable) :
    memoryRead s = .next { s with
      g := doubleSignCompress (memRead s.eMem i) false
      eMem := memWrite s.eMem i 0x0000#16
      wba := some i } := by
  simp [memoryRead, not_lt.mpr hl, hr, not_le.mpr hi]

theorem memoryRead_of_fixed {s : State} {i : Nat} (hl : s.cfg.params.reservedLowLimit ≤ s.sReg.toNat)
    (hr : resolve s.cfg.params s.sReg s.eb s.fb = (.fixed, i)) (hi : i < spaceWords s.cfg.params .fixed) :
    memoryRead s = .next { s with g := doubleSignCompress (memRead s.fMem i) false } := by
  simp [memoryRead, not_lt.mpr hl, hr, not_le.mpr hi]

theorem writeBack_of_empty {s : State} (h : s.wba = none) : writeBack s = s := by
  simp [writeBack, h]

theorem writeBack_of_latched {s : State} {i : Nat} (h : s.wba = some i) :
    writeBack s = { s with eMem := memWrite s.eMem i s.g, wba := none } := by
  simp [writeBack, h]

/-! ### A step through the state that its dispatch leaves -/

theorem step_of_dispatch {s u : State} (hd : dispatch (tickStart (applyHostWrites s)) = .next u) :
    step s = afterDispatch u := by
  rw [step, tick, hd, andThen_next]

/-- What the memory steps use of the scheduler's own fields is as it was before the step. -/
structure DispatchKeeps (s u : State) : Prop where
  time : u.t = s.t
  wba : u.wba = s.wba
  eMem : u.eMem = s.eMem
  fMem : u.fMem = s.fMem
  cfg : u.cfg = s.cfg

theorem dispatchKeeps_of_dispatch {s u : State} (hd : dispatch (tickStart (applyHostWrites s)) = .next u) :
    DispatchKeeps s u := by
  obtain ⟨K, _, _⟩ := dispatch_kept hd
  obtain ⟨_, _, _, _, ht, hwba, hE, hF, hcfg, _, _⟩ := tickStart_kept s
  exact ⟨K.time.trans ht, K.wba.trans hwba, K.eMem.trans hE, K.fMem.trans hF, K.cfg.trans hcfg⟩

/-- At a time pulse at which no latch but `MCRO` is cleared, the steps before the dispatch are the first one alone. -/
theorem tickStart_eq_clearMcro {s : State} (h1 : s.t ≠ 1) (hp : clearsPifl s.t = false) : tickStart s = clearMcro s := by
  simp [tickStart, clearFetchLatches, clearPiflLatch, h1, hp]

/-- A dispatch with nothing to run leaves the state with `MCRO` cleared. -/
theorem eq_of_dispatch_idle {s u : State} (hd : dispatch (tickStart (applyHostWrites s)) = .next u)
    (hq : ∀ e ∈ s.queue, e.n ≠ s.t) (hhost : s.cfg.hostChannelWrites = false) (h1 : s.t ≠ 1)
    (hp : clearsPifl s.t = false) : u = { s with mcro := false } := by
  rw [applyHostWrites_of_not_allowed hhost, tickStart_eq_clearMcro h1 hp] at hd
  have hnil : collected (clearMcro s) = [] :=
    List.filter_eq_nil_iff.mpr fun e he hn => hq e he (of_decide_eq_true hn)
  have hu : dispatch (clearMcro s) = .next (clearMcro s) := by
    unfold dispatch
    rw [hnil, dropCollected_of_collected_nil hnil]
  rw [hu] at hd
  cases hd
  rfl

/-! ### The T4 read -/

theorem step_of_memoryRead {s u v : State} (h4 : s.t = 4) (hd : dispatch (tickStart (applyHostWrites s)) = .next u)
    (hm : memoryRead u = .next v) : step s = .next { v with wbus := 0, t := 5 } := by
  have hu : u.t = 4 := (dispatchKeeps_of_dispatch hd).time.trans h4
  have hv : v.t = 4 := by
    rcases memoryRead_cases hm with ⟨_, rfl⟩ | ⟨i, _, _, rfl⟩ | ⟨i, _, _, rfl⟩ <;> exact hu
  rw [step_of_dispatch hd, afterDispatch_of_eq_4 hu, hm, andThen_next, tickEnd, hv]
  rfl

/-- Settles O37: the three equations of the read, at the index the map of the spec gives. -/
theorem theT4Read : Obligations.TheT4Read := by
  intro s u h4 hparams hd base
  have K := dispatchKeeps_of_dispatch hd
  have hup : u.cfg.params = specParams := by rw [K.cfg, hparams]
  have hlimit : u.cfg.params.reservedLowLimit = 0o10 := by rw [hup]; rfl
  have hlt {sp : Space} {i : Nat} (hr : resolve u.cfg.params u.sReg u.eb u.fb = (sp, i)) : i < spaceWords u.cfg.params sp := by
    have := resolve_spec_lt u.sReg u.eb u.fb
    rwa [← hup, hr] at this
  refine ⟨fun hS => ?reserved, fun i hlo hhi hi => ?erasable, fun i hlo hi => ?fixed, fun hq hhost => ?idle⟩
  case reserved => exact step_of_memoryRead h4 hd (memoryRead_of_reserved (by omega))
  case erasable =>
    have hr : resolve u.cfg.params u.sReg u.eb u.fb = (.erasable, i) := by
      rw [hup, resolve_spec_erasable _ _ hhi, hi]
    rw [← K.eMem]
    exact step_of_memoryRead h4 hd (memoryRead_of_erasable (by omega) hr (hlt hr))
  case fixed =>
    have hr : resolve u.cfg.params u.sReg u.eb u.fb = (.fixed, i) := by
      rw [hup, resolve_spec_fixed _ _ hlo, hi]
    rw [← K.fMem]
    exact step_of_memoryRead h4 hd (memoryRead_of_fixed (by omega) hr (hlt hr))
  case idle => exact eq_of_dispatch_idle hd (by rwa [h4]) hhost (by omega) (by rw [h4]; rfl)

/-- Settles O38: the fault of the read ends the step. -/
theorem theT4ReadOutOfRange : Obligations.TheT4ReadOutOfRange := by
  intro s u sp i h4 hd hlimit hr hi
  have K := dispatchKeeps_of_dispatch hd
  rw [← K.cfg] at hlimit hr hi
  rw [step_of_dispatch hd, afterDispatch_of_eq_4 (K.time.trans h4), memoryRead_of_outside hlimit hr hi, andThen_fault]

/-! ### The T9 write-back -/

theorem step_of_writeBack {s u : State} (h9 : s.t = 9) (hd : dispatch (tickStart (applyHostWrites s)) = .next u) :
    step s = .next { writeBack u with wbus := 0, t := 10 } := by
  have hu : u.t = 9 := (dispatchKeeps_of_dispatch hd).time.trans h9
  have hw : (writeBack u).t = 9 := by
    rcases writeBack_cases u with ⟨_, hw⟩ | ⟨i, _, hw⟩ <;> rw [hw] <;> exact hu
  rw [step_of_dispatch hd, afterDispatch_of_eq_9 hu, tickEnd, hw]
  rfl

/-- Settles O39: the two equations of the write-back, and the law of a read after a write. -/
theorem theT9WriteBack : Obligations.TheT9WriteBack := by
  intro s u h9 hwf hd
  have K := dispatchKeeps_of_dispatch hd
  have hstep := step_of_writeBack h9 hd
  refine ⟨fun hnone => ?empty, fun i hi => ⟨memWrite s.eMem i u.g, ?latched, ?written, fun j hj => ?kept⟩,
    fun hq hhost => ?idle⟩
  case empty => rw [hstep, writeBack_of_empty (K.wba.trans hnone)]
  case latched => rw [hstep, writeBack_of_latched (K.wba.trans hi), K.eMem]
  case written => rw [memRead_memWrite hwf, if_pos rfl]
  case kept => rw [memRead_memWrite hwf, if_neg hj]
  case idle => exact eq_of_dispatch_idle hd (by rwa [h9]) hhost (by omega) (by rw [h9]; rfl)

/-! ### The window between the read and the write-back (R84, R85) -/

theorem step_eq_next {s t : State} (h : step s = .next t) :
    ∃ u, dispatch (tickStart (applyHostWrites s)) = .next u ∧ DispatchKeeps s u := by
  obtain ⟨u, hd, _⟩ := andThen_eq_next.mp h
  exact ⟨u, hd, dispatchKeeps_of_dispatch hd⟩

/-- A tick at T4 leaves the erasable array and the latch alone, or reads and zeroes one cell and latches its index. -/
theorem step_window_of_eq_4 {s t : State} (h4 : s.t = 4) (h : step s = .next t) :
    t.t = 5 ∧ (t.wba = s.wba ∧ t.eMem = s.eMem ∨
      ∃ i, t.wba = some i ∧ t.eMem = memWrite s.eMem i 0x0000#16 ∧ t.g = doubleSignCompress (memRead s.eMem i) false) := by
  obtain ⟨u, hd, K⟩ := step_eq_next h
  have hu : u.t = 4 := K.time.trans h4
  rw [step_of_dispatch hd, afterDispatch_of_eq_4 hu] at h
  obtain ⟨v, hm, hend⟩ := andThen_eq_next.mp h
  cases hend
  have ht (h : v.t = u.t) : (tickEnd v).t = 5 := by rw [tickEnd_t, h, hu]
  rw [← K.wba, ← K.eMem]
  rcases memoryRead_cases hm with ⟨_, rfl⟩ | ⟨i, _, _, rfl⟩ | ⟨i, _, _, rfl⟩
  · exact ⟨ht rfl, .inl ⟨rfl, rfl⟩⟩
  · exact ⟨ht rfl, .inr ⟨i, rfl, rfl, rfl⟩⟩
  · exact ⟨ht rfl, .inl ⟨rfl, rfl⟩⟩

/-- A tick at T9 empties the latch, and stores the `G` that it leaves where the latch pointed. -/
theorem step_window_of_eq_9 {s t : State} (h9 : s.t = 9) (h : step s = .next t) :
    t.wba = none ∧ ∀ i, s.wba = some i → t.eMem = memWrite s.eMem i t.g := by
  obtain ⟨u, hd, K⟩ := step_eq_next h
  rw [step_of_writeBack h9 hd] at h
  cases h
  rcases writeBack_cases u with ⟨hnone, hw⟩ | ⟨i, hi, hw⟩ <;> rw [hw]
  · refine ⟨hnone, fun j hj => ?_⟩
    rw [K.wba, hj] at hnone
    cases hnone
  · refine ⟨rfl, fun j hj => ?_⟩
    have hij : i = j := Option.some.inj (by rw [← hi, K.wba, hj])
    rw [K.eMem, hij]

/-- Every other tick leaves the erasable array and the latch alone. -/
theorem step_window_of_ne {s t : State} (h4 : s.t ≠ 4) (h9 : s.t ≠ 9) (h : step s = .next t) :
    t.t = s.t % 12 + 1 ∧ t.wba = s.wba ∧ t.eMem = s.eMem := by
  obtain ⟨u, hd, K⟩ := step_eq_next h
  have hu9 : u.t ≠ 9 := by rwa [K.time]
  rw [step_of_dispatch hd, afterDispatch_of_ne_4 (by rwa [K.time]), (writeBackStep_frame u).1 hu9] at h
  obtain ⟨v, hc, h⟩ := andThen_eq_next.mp h
  obtain ⟨_, hv, _⟩ := cycleStep_frame hc
  cases h
  rw [hv, ← K.time, ← K.wba, ← K.eMem]
  exact ⟨rfl, rfl, rfl⟩

/-- From inside the window to the end of T9, whatever lists run: the latched cell takes the last `G`, nothing else is written. -/
theorem eMem_of_runTicks_window {k : Nat} {s t : State} {i : Nat} (h5 : 5 ≤ s.t) (hk : s.t + k = 9) (hi : s.wba = some i)
    (h : runTicks (k + 1) s = .next t) : t.eMem = memWrite s.eMem i t.g := by
  induction k generalizing s with
  | zero =>
    obtain ⟨t', hstep, hend⟩ := andThen_eq_next.mp h
    cases hend
    exact (step_window_of_eq_9 hk hstep).2 i hi
  | succ k ih =>
    obtain ⟨s', hstep, hrest⟩ := andThen_eq_next.mp h
    obtain ⟨ht, hwba, hE⟩ := step_window_of_ne (by omega) (by omega) hstep
    rw [← hE]
    exact ih (by omega) (by omega) (hwba.trans hi) hrest

theorem wba_eq_none_of_inv {s : State} (h : Inv s) (h4 : s.t = 4) : s.wba = none := by
  obtain ⟨_, _, _, _, _, _, _, hlatch, _⟩ := h
  refine Option.eq_none_iff_forall_not_mem.mpr fun i hi => ?_
  have := hlatch i hi
  omega

/-- The compression without the mask is the value that `RL` puts on the bus (40_primitives R143, 41_bus_read R166). -/
theorem doubleSignCompress_false (v : Word) : doubleSignCompress v false = mirroredSign v := rfl

theorem mirroredSign_eq_self_iff (v : Word) : mirroredSign v = v ↔ bit v 15 = bit v 16 := by
  obtain ⟨hlow, h15, h16⟩ := bit_mirroredSign v
  constructor
  · intro h
    rw [h] at h15
    exact h15
  · intro h
    refine eq_of_bit fun i h1 h2 => ?_
    rcases (by omega : i ≤ 14 ∨ i = 15 ∨ i = 16) with hi | rfl | rfl
    · exact hlow i h1 hi
    · rw [h15, h]
    · exact h16

/-- Settles O40: the read's zero and the last `G` are two writes to one cell, with an induction on the ticks between them. -/
theorem readAndWriteBackIdempotence : Obligations.ReadAndWriteBackIdempotence := by
  intro s s1 t i hinv h4 hstep hi hrun hg v
  have hwf : memWf s.eMem = true := by
    obtain ⟨_, _, _, _, _, herasable, _, _, _⟩ := hinv
    exact herasable.1
  obtain ⟨ht5, ⟨hwba, _⟩ | ⟨j, hj, hE, hread⟩⟩ := step_window_of_eq_4 h4 hstep
  · rw [hwba, wba_eq_none_of_inv hinv h4] at hi
    cases hi
  · obtain rfl : j = i := Option.some.inj (hj.symm.trans hi)
    have hend : t.eMem = memWrite s1.eMem j t.g := eMem_of_runTicks_window ht5.ge (by omega) hi hrun
    have hcell : memRead t.eMem j = doubleSignCompress v false := by
      rw [hend, hE, memRead_memWrite (memWf_memWrite _ _ hwf), if_pos rfl, hg, hread]
    refine ⟨hcell, ?_, fun k hk => ?_⟩
    · rw [hcell, doubleSignCompress_false]
      exact mirroredSign_eq_self_iff v
    · rw [hend, hE, memRead_memWrite (memWf_memWrite _ _ hwf), if_neg hk, memRead_memWrite hwf, if_neg hk]

/-- Settles O41: the latch time pulse by time pulse, and the invariant of O55 after the step. -/
theorem theWriteBackWindow : Obligations.TheWriteBackWindow := by
  intro s t hinv hstep
  refine ⟨wba_eq_none_of_inv hinv, fun h9 => (step_window_of_eq_9 h9 hstep).1,
    fun h4 h9 => (step_window_of_ne h4 h9 hstep).2.1, fun i hi => ?_⟩
  obtain ⟨_, _, _, _, _, _, _, hlatch, _⟩ := invKept s t hinv hstep
  obtain ⟨h5, h9, _, hzero⟩ := hlatch i hi
  exact ⟨hzero, h5, h9⟩

end Sys2Proof.Machine

/-! PROOFS. Encodings (30_encoding R100 to R105, R122, R123): the encoder by format, the decoder as its inverse in each format, what
the decoder rejects, then the obligations O6, O7, O5 and O8. -/

namespace Sys2Proof.Machine

/-! ### The encoder, by the format of what it writes -/

theorem encode_eq_pulse_iff {p : Params} {i : Instr} {id : PulseId} : encode p i = .pulse id ↔ pulseId i = some id := by
  cases i <;> simp [encode, pulseId]

theorem encode_eq_word_iff {p : Params} {i : Instr} {w : Word} : encode p i = .word w ↔
    (w = p.radRelint ∧ i = .radRelint) ∨ (w = p.radInhint ∧ i = .radInhint) ∨ (w = p.radExtend ∧ i = .radExtend) := by
  cases i <;> simp [encode, eq_comm]

theorem encode_eq_key_iff {p : Params} {i : Instr} {k : BitVec 11} : encode p i = .key k ↔
    ∃ key : Key, packKey key = k ∧ i = .defaultSkip key.stage key.extend key.opcode := by
  cases i
  case defaultSkip stage e o =>
    simp only [encode, Encoded.key.injEq, Instr.defaultSkip.injEq]
    refine ⟨fun h => ⟨⟨stage, e, o⟩, h, rfl, rfl, rfl⟩, ?_⟩
    rintro ⟨key, h, rfl, rfl, rfl⟩
    exact h
  all_goals simp [encode]

/-! ### Format P, the pulse ids (R122, R123) -/

theorem decodePulse_of_pulseId {i : Instr} {id : PulseId} (h : pulseId i = some id) : decodePulse id = .ok i := by
  cases i <;> cases h <;> rfl

theorem decodePulse_eq_ok_iff {id : PulseId} {i : Instr} : decodePulse id = .ok i ↔ pulseId i = some id :=
  ⟨pulseId_of_decodePulse, decodePulse_of_pulseId⟩

/-- The decoder gives a pulse for every assigned id. -/
theorem exists_decodePulse_of_idWf {id : PulseId} (h : idWf id = true) : ∃ i, decodePulse id = .ok i := by
  have hid : isReservedId id = false := by rw [isReservedId_eq, h]; rfl
  unfold isReservedId at hid
  split at hid
  · exact ⟨_, by assumption⟩
  · cases hid

/-- Format P has one way to reject. -/
theorem decodePulse_eq_error {id : PulseId} {r : Reject} (h : decodePulse id = .error r) : r = .reservedPulse id := by
  unfold decodePulse at h
  split at h <;> cases h
  rfl

theorem decodePulse_of_not_idWf {id : PulseId} (h : idWf id = false) : decodePulse id = .error (.reservedPulse id) := by
  have hid : isReservedId id = true := by rw [isReservedId_eq, h]; rfl
  unfold isReservedId at hid
  split at hid
  · cases hid
  · rename_i r hr
    rw [hr, decodePulse_eq_error hr]

/-! ### Format W, the sentinel words (R104) -/

theorem decodeWord_eq_ok {p : Params} {w : Word} {i : Instr} (h : decodeWord p w = .ok i) : encode p i = .word w := by
  rw [encode_eq_word_iff]
  unfold decodeWord at h
  split_ifs at h with h1 h2 h3 <;> cases h
  · exact .inl ⟨h1, rfl⟩
  · exact .inr (.inl ⟨h2, rfl⟩)
  · exact .inr (.inr ⟨h3, rfl⟩)

/-- Where no two sentinels are the same word, the order of the comparisons does not matter. -/
theorem decodeWord_eq_ok_iff {p : Params} (h1 : p.radRelint ≠ p.radInhint) (h2 : p.radRelint ≠ p.radExtend)
    (h3 : p.radInhint ≠ p.radExtend) {w : Word} {i : Instr} : decodeWord p w = .ok i ↔ encode p i = .word w := by
  refine ⟨decodeWord_eq_ok, fun h => ?_⟩
  unfold decodeWord
  rcases encode_eq_word_iff.mp h with ⟨rfl, rfl⟩ | ⟨rfl, rfl⟩ | ⟨rfl, rfl⟩
  · rw [if_pos rfl]
  · rw [if_neg h1.symm, if_pos rfl]
  · rw [if_neg h2.symm, if_neg h3.symm, if_pos rfl]

theorem exists_decodeWord_iff {p : Params} {w : Word} :
    (∃ i, decodeWord p w = .ok i) ↔ w = p.radRelint ∨ w = p.radInhint ∨ w = p.radExtend := by
  unfold decodeWord
  split_ifs with h1 h2 h3 <;> simp [*]

/-! ### Format K, the packed decode key (R105) -/

theorem stageIndex_normal_toNat (q : BitVec 2) : (stageIndex (.normal q)).toNat = q.toNat := by
  rw [stageIndex, BitVec.toNat_ofNat]
  omega

theorem stageIndex_divide_toNat (q : BitVec 3) : (stageIndex (.divide q)).toNat = 4 + q.toNat := by
  rw [stageIndex, BitVec.toNat_ofNat]
  omega

theorem stageIndex_of_stageOfIndex {k : BitVec 4} {stage : StageKey} (h : stageOfIndex k = .ok stage) :
    stageIndex stage = k := by
  unfold stageOfIndex at h
  split_ifs at h with hn hd <;> cases h
  · refine BitVec.eq_of_toNat_eq ?_
    rw [stageIndex_normal_toNat, BitVec.toNat_ofNat]
    omega
  · refine BitVec.eq_of_toNat_eq ?_
    rw [stageIndex_divide_toNat, BitVec.toNat_ofNat]
    omega

theorem exists_stageOfIndex_iff {k : BitVec 4} : (∃ stage, stageOfIndex k = .ok stage) ↔ k.toNat < 12 := by
  unfold stageOfIndex
  split_ifs with hn hd
  · simp only [Except.ok.injEq, exists_eq', true_iff]; omega
  · simp only [Except.ok.injEq, exists_eq', hd]
  · simp [hd]

/-- The three fields of a packed word, put together again. -/
theorem append_fields (k : BitVec 11) : k.extractLsb' 7 4 ++ BitVec.ofBool (k.getLsbD 6) ++ k.extractLsb' 0 6 = k := by
  refine BitVec.eq_of_getLsbD_eq fun i hi => ?_
  rw [BitVec.getLsbD_append, BitVec.getLsbD_append]
  rcases Nat.lt_trichotomy i 6 with h | rfl | h
  · simp [h]
  · simp
  · simp [show ¬ i < 6 by omega, show ¬ i - 6 < 1 by omega, show i - 6 - 1 < 4 by omega, show 7 + (i - 6 - 1) = i by omega]

theorem decodeKey_eq_ok_iff {p : Params} {k : BitVec 11} {i : Instr} : decodeKey k = .ok i ↔ encode p i = .key k := by
  rw [encode_eq_key_iff]
  refine ⟨fun h => ?_, ?_⟩
  · unfold decodeKey at h
    split at h
    · rename_i stage hs
      refine ⟨⟨stage, k.getLsbD 6, k.extractLsb' 0 6⟩, ?_, (Except.ok.inj h).symm⟩
      rw [packKey, stageIndex_of_stageOfIndex hs, append_fields]
    · cases h
  · rintro ⟨key, rfl, rfl⟩
    exact Laws.RoundTrip.decodeKey_packKey key

theorem exists_decodeKey_iff {k : BitVec 11} : (∃ i, decodeKey k = .ok i) ↔ (k >>> 7).toNat < 12 := by
  have htop : (k.extractLsb' 7 4).toNat = (k >>> 7).toNat := by
    rw [BitVec.extractLsb'_toNat, BitVec.toNat_ushiftRight, Nat.shiftRight_eq_div_pow]
    omega
  rw [← htop, ← exists_stageOfIndex_iff]
  unfold decodeKey
  split <;> simp [*]

/-! ### The obligations -/

/-- The decoder is the inverse of the encoder, format by format. -/
theorem decode_eq_ok_iff {p : Params} (h1 : p.radRelint ≠ p.radInhint) (h2 : p.radRelint ≠ p.radExtend)
    (h3 : p.radInhint ≠ p.radExtend) {x : Encoded} {i : Instr} : decode p x = .ok i ↔ encode p i = x := by
  cases x with
  | pulse id => exact decodePulse_eq_ok_iff.trans encode_eq_pulse_iff.symm
  | word w => exact decodeWord_eq_ok_iff h1 h2 h3
  | key k => exact decodeKey_eq_ok_iff

/-- Settles O6: both directions of `decode_eq_ok_iff`. -/
theorem decodeEncodeAgree : Obligations.DecodeEncodeAgree := by
  intro p h1 h2 h3
  exact ⟨fun _ => (decode_eq_ok_iff h1 h2 h3).mpr rfl, fun _ _ => (decode_eq_ok_iff h1 h2 h3).mp⟩

/-- Settles O7: acceptance, format by format; an id below 53 is `idWf`. -/
theorem decoderRejects : Obligations.DecoderRejects := by
  refine ⟨fun id => ⟨fun h => ?_, fun h => ?_⟩, fun _ _ => exists_decodeWord_iff, fun _ => exists_decodeKey_iff⟩
  · exact decodePulse_of_not_idWf (decide_eq_false (by omega))
  · exact exists_decodePulse_of_idWf (decide_eq_true h)

/-- Settles O5 by evaluation, its ten words being closed. -/
theorem someWordsDecode : Obligations.SomeWordsDecode := by
  unfold Obligations.SomeWordsDecode
  decide

/-- Settles O8: the opcode bits by the layout `OPCODE_SLICE`, the address field as a slice from bit 1. -/
theorem instructionWordFields : Obligations.InstructionWordFields := by
  intro b
  refine ⟨⟨?_, fun i h1 h5 => ?_⟩, fun i h1 h12 => bit_slice b 12 1 i i h1 h12 le_rfl (by omega)⟩
  · rw [bit_opcodeOf b (by decide) le_rfl, if_pos rfl]
  · rw [bit_opcodeOf b h1 (by omega), if_neg (by omega)]

end Sys2Proof.Machine

/-! PROOFS. From a state in form no step is refused and none ends in `BranchCollision` (30_encoding R115, R116, R123, 60_exceptions
R300): the pulses, the dispatch and the steps after it each end safely, then the obligation O56. -/

namespace Sys2Proof.Machine

/-- A sequence ends safely when its first part does, and its second does from every state the first leaves. -/
theorem safeOutcome_andThen {o : Host.Outcome State Fault Refusal} {f : State → Host.Outcome State Fault Refusal}
    (ho : safeOutcome o = true) (hf : ∀ t, o = .next t → safeOutcome (f t) = true) : safeOutcome (andThen o f) = true := by
  cases o with
  | next t => exact hf t rfl
  | fault r => exact ho
  | refused r => cases ho

/-! ### The pulses -/

/-- `ZIP` completes, or ends in its own fault. -/
theorem safeOutcome_execZip (s : State) : safeOutcome (execZip s) = true := by
  unfold execZip
  dsimp only
  split
  · rfl
  · rename_i act _
    obtain ⟨t, ht, _⟩ := zipDoAction_next act s
    rw [ht]
    rfl

/-- No row of the opcode table is refused or collides, in any state. -/
theorem safeOutcome_exec (i : Instr) (s : State) : safeOutcome (exec i s) = true := by
  cases i
  case wg =>
    simp only [exec, execWg]
    split <;> rfl
  case zip => exact safeOutcome_execZip s
  case rad =>
    simp only [exec, execRad]
    split <;> rfl
  all_goals rfl

/-- Only a reserved id can refuse a list of pulses (R123). -/
theorem safeOutcome_runPulses {ids : List PulseId} (h : ∀ id ∈ ids, idWf id = true) (s : State) :
    safeOutcome (runPulses ids s) = true := by
  induction ids generalizing s with
  | nil => rfl
  | cons id rest ih =>
    obtain ⟨i, hi⟩ := exists_decodePulse_of_idWf (h id List.mem_cons_self)
    rw [runPulses_cons, runPulse_of_decode hi]
    exact safeOutcome_andThen (safeOutcome_exec i s) fun t _ => ih (fun id' h' => h id' (List.mem_cons_of_mem _ h')) t

/-! ### The dispatch (48_scheduler R264 to R267) -/

/-- A well-formed queue has at most four entries at any time pulse in range (R115). -/
theorem length_collected_le {s : State} (hq : entriesWf s.queue = true) (ht : timeInRange s) : (collected s).length ≤ 4 := by
  obtain ⟨_, hcount⟩ := entriesWf_iff.mp hq
  have hc : (collected s).length = countAt s.queue s.t := rfl
  have := hcount s.t ht.1 ht.2
  omega

theorem idWf_of_collected {s : State} (hq : entriesWf s.queue = true) {e : Entry} (he : e ∈ collected s) :
    ∀ id ∈ e.pulses, idWf id = true := by
  obtain ⟨hall, _⟩ := entriesWf_iff.mp hq
  have hwf := hall e (mem_collected he).1
  simp only [entryWf, Bool.and_eq_true, List.all_eq_true] at hwf
  exact hwf.2

/-- With a well-formed queue the dispatch completes, or ends in a pulse's fault or in `BranchIndexOutOfRange`. -/
theorem safeOutcome_dispatch {s : State} (hq : entriesWf s.queue = true) (ht : timeInRange s) :
    safeOutcome (dispatch s) = true := by
  have hrun : ∀ e ∈ collected s, safeOutcome (runPulses e.pulses (dropCollected s)) = true :=
    fun e he => safeOutcome_runPulses (idWf_of_collected hq he) _
  unfold dispatch
  dsimp only
  split
  case h_1 => rfl
  case h_2 e he => exact hrun e (by simp [he])
  case h_3 =>
    rw [if_neg (Nat.not_lt.mpr (length_collected_le hq ht))]
    split
    · rename_i e he; exact hrun e (List.mem_of_getElem? he)
    · rfl

/-! ### The steps after the dispatch -/

/-- The T4 read completes, or ends in `AddressRange` (20_memory R78). -/
theorem safeOutcome_memoryRead (s : State) : safeOutcome (memoryRead s) = true := by
  unfold memoryRead
  dsimp only
  split_ifs
  · rfl
  · rfl
  · split <;> rfl

/-- Of the steps after the dispatch only the T4 read can stop the tick. -/
theorem safeOutcome_afterDispatch (s : State) : safeOutcome (afterDispatch s) = true := by
  by_cases h4 : s.t = 4
  · rw [afterDispatch_of_eq_4 h4]
    exact safeOutcome_andThen (safeOutcome_memoryRead s) fun _ _ => rfl
  by_cases h9 : s.t = 9
  · rw [afterDispatch_of_eq_9 h9]; rfl
  by_cases h12 : s.t = 12
  · obtain ⟨ds, hds⟩ := afterDispatch_of_eq_12 h12
    rw [hds]; rfl
  · rw [afterDispatch_of_ne h4 h9 h12]; rfl

/-- Settles O56: the steps before the dispatch leave queue and counter as the invariant has them; then the dispatch and the rest. -/
theorem inFormNeverRefused : Obligations.InFormNeverRefused := by
  intro s hinv
  obtain ⟨htime, _, _, ⟨hentries, _⟩, _, _, _, _, _⟩ := hinv
  obtain ⟨_, _, _, _, ht, _, _, _, _, hq, _⟩ := tickStart_kept s
  refine safeOutcome_andThen (safeOutcome_dispatch ?_ ?_) fun u _ => safeOutcome_afterDispatch u
  · rw [hq]; exact hentries
  · rw [timeInRange, ht]; exact htime

end Sys2Proof.Machine

/-! PROOFS. The decode table (30_encoding R108 to R113): the mask and the value of a pattern, bit by bit, and the table as the last
definition that covers a key, then the obligations O53 and O54. -/

namespace Sys2Proof.Machine

/-! ### Patterns (R109) -/

theorem patternChar_eq_some_iff {c : Char} {fixed one : Bool} : patternChar c = some (fixed, one) ↔
    (fixed = decide (c = '0' ∨ c = '1') ∧ one = decide (c = '1')) ∧ (c = '0' ∨ c = '1' ∨ c = 'x') := by
  unfold patternChar
  split_ifs with h0 h1 hx
  · subst h0; simp [eq_comm]
  · subst h1; simp [eq_comm]
  · subst hx; simp [eq_comm]
  · simp [h0, h1, hx]

/-- What one character does to the mask or the value: the bits move up and a new bit 1 comes in. -/
theorem bit_shiftIn (v : Opcode) (b : Bool) {i : Nat} (h1 : 1 ≤ i) (h6 : i ≤ 6) :
    bit ((v <<< 1) ||| (BitVec.ofBool b).setWidth 6) i = if i = 1 then b else bit v (i - 1) := by
  rw [bit_or]
  unfold bit
  rw [BitVec.getLsbD_shiftLeft, BitVec.getLsbD_setWidth]
  split_ifs with h
  · subst h; simp
  · simp [show ¬ i - 1 < 1 by omega, show i - 1 ≠ 0 by omega, show i - 1 < 6 by omega, show i - 1 - 1 = i - 2 by omega]

/-- Characters shifted in one after another: bit `i` of the mask and of the value is the `i`-th character from the right, and the
bits above are what was there before. -/
theorem bit_patternBits {cs : List Char} {m v m' v' : Opcode} (h : patternBits cs (m, v) = some (m', v')) {i : Nat}
    (h1 : 1 ≤ i) (h6 : i ≤ 6) :
    (cs.length < i → bit m' i = bit m (i - cs.length) ∧ bit v' i = bit v (i - cs.length)) ∧
    (i ≤ cs.length → ∃ c, cs[cs.length - i]? = some c ∧ patternChar c = some (bit m' i, bit v' i)) := by
  induction cs generalizing m v with
  | nil =>
    cases h
    exact ⟨fun _ => ⟨rfl, rfl⟩, fun hi => absurd hi (by simp; omega)⟩
  | cons c rest ih =>
    unfold patternBits at h
    split at h
    · rename_i fixed one hc
      obtain ⟨hold, hnew⟩ := ih h
      rw [List.length_cons]
      refine ⟨fun hi => ?_, fun hi => ?_⟩
      · obtain ⟨hm, hv⟩ := hold (by omega)
        rw [hm, hv, bit_shiftIn _ _ (by omega) (by omega), bit_shiftIn _ _ (by omega) (by omega), if_neg (by omega),
          if_neg (by omega), Nat.sub_sub]
        exact ⟨rfl, rfl⟩
      · rcases Nat.lt_or_eq_of_le hi with hlt | rfl
        · obtain ⟨c', hget, hc'⟩ := hnew (by omega)
          refine ⟨c', ?_, hc'⟩
          rw [show rest.length + 1 - i = rest.length - i + 1 by omega, List.getElem?_cons_succ, hget]
        · obtain ⟨hm, hv⟩ := hold (by omega)
          refine ⟨c, by simp, ?_⟩
          rw [hm, hv, Nat.add_sub_cancel_left, bit_shiftIn _ _ le_rfl (by decide), bit_shiftIn _ _ le_rfl (by decide),
            if_pos rfl, if_pos rfl, hc]
    · cases h

theorem maskValue_eq_some_iff {pattern : List Char} {mv : Opcode × Opcode} :
    maskValue pattern = some mv ↔ pattern.length = 6 ∧ patternBits pattern (0#6, 0#6) = some mv := by
  unfold maskValue
  split_ifs with h <;> simp [h]

/-- Bit `i` of the mask and of the value is what the character there says. -/
theorem bit_maskValue {pattern : List Char} {m v : Opcode} (h : maskValue pattern = some (m, v)) {i : Nat}
    (h1 : 1 ≤ i) (h6 : i ≤ 6) : ∃ c, pattern[6 - i]? = some c ∧ patternChar c = some (bit m i, bit v i) := by
  obtain ⟨hlen, hbits⟩ := maskValue_eq_some_iff.mp h
  have hchar := (bit_patternBits hbits h1 h6).2 (by omega)
  rwa [hlen] at hchar

/-- A value that lies inside its mask is met exactly by the words that agree with it on the mask. -/
theorem and_eq_iff_of_bit_imp {o m v : Opcode} (hvm : ∀ i, 1 ≤ i → i ≤ 6 → bit v i = true → bit m i = true) :
    o &&& m = v ↔ ∀ i, 1 ≤ i → i ≤ 6 → bit m i = true → bit o i = bit v i := by
  refine ⟨?_, fun h => eq_of_bit fun i h1 h6 => ?_⟩
  · rintro rfl i _ _ hm
    rw [bit_and, hm, Bool.and_true]
  · rw [bit_and]
    cases hm : bit m i with
    | true => rw [Bool.and_true, h i h1 h6 hm]
    | false =>
      rw [Bool.and_false]
      exact (Bool.eq_false_of_not_eq_true fun hv => by rw [hvm i h1 h6 hv] at hm; cases hm).symm

/-- Settles O53: the bits by `bit_maskValue`; the value lies inside the mask because `1` is a fixed bit. -/
theorem patternMaskAndValue : Obligations.PatternMaskAndValue := by
  refine ⟨by decide, fun pattern m v h => ⟨(maskValue_eq_some_iff.mp h).1, fun i c h1 h6 hc => ?_, fun o => ?_⟩⟩
  · obtain ⟨c', hget, hchar⟩ := bit_maskValue h h1 h6
    cases hc.symm.trans hget
    exact and_assoc.mp (patternChar_eq_some_iff.mp hchar)
  · refine and_eq_iff_of_bit_imp fun i h1 h6 hv => ?_
    obtain ⟨c, _, hchar⟩ := bit_maskValue h h1 h6
    obtain ⟨⟨hm, hv'⟩, _⟩ := patternChar_eq_some_iff.mp hchar
    rw [hm]
    exact decide_eq_true (.inr (of_decide_eq_true (hv'.symm.trans hv)))

/-! ### The table (R110, R111) -/

theorem covers_iff {d : Def} {k : Key} :
    covers d k = true ↔ d.stage = k.stage ∧ d.extend = k.extend ∧ k.opcode &&& d.mask = d.value := by
  simp only [covers, matchesOpcode, Bool.and_eq_true, decide_eq_true_eq, and_assoc]

/-- One definition declared last: it takes the keys it covers and leaves the others. -/
theorem buildTable_concat (defs : List Def) (d : Def) (k : Key) :
    buildTable (defs ++ [d]) k = if covers d k then some d else buildTable defs k := by
  unfold buildTable
  rw [List.foldl_append]
  rfl

theorem buildTable_eq_getLast? (defs : List Def) (k : Key) :
    buildTable defs k = (defs.filter fun d => covers d k).getLast? := by
  induction defs using List.reverseRecOn with
  | nil => rfl
  | append_singleton defs d ih =>
    rw [buildTable_concat, List.filter_append]
    split_ifs with hd
    · simp [hd]
    · simp [hd, ih]

theorem covers_of_buildTable {defs : List Def} {k : Key} {d : Def} (h : buildTable defs k = some d) : covers d k = true := by
  rw [buildTable_eq_getLast?] at h
  exact (List.mem_filter.mp (List.mem_of_getLast? h)).2

theorem buildTable_eq_none_iff {defs : List Def} {k : Key} : buildTable defs k = none ↔ ∀ d ∈ defs, covers d k = false := by
  rw [buildTable_eq_getLast?, List.getLast?_eq_none_iff, List.filter_eq_nil_iff]
  simp only [Bool.not_eq_true]

theorem tableEntries_of_none {c : Config} {k : Key} (h : buildTable c.isaDefs k = none) : tableEntries c k = c.defaultSkip := by
  simp only [tableEntries, h]

theorem tableEntries_of_some {c : Config} {k : Key} {d : Def} (h : buildTable c.isaDefs k = some d) :
    tableEntries c k = d.entries := by
  simp only [tableEntries, h]

/-- Settles O54: a table grows by its last definition, so the last one that covers a key is found there. -/
theorem theLastDefinitionWins : Obligations.TheLastDefinitionWins := by
  refine ⟨buildTable_eq_getLast?, fun pre mid a b k _ hb => ?_, fun defs d k h => ?_, fun c k => ⟨fun h => ?_, fun h => ?_⟩⟩
  · rw [buildTable_concat, if_pos hb]
  · rw [buildTable_concat, if_neg fun hd => ?_]
    obtain ⟨hstage, hextend, hopcode⟩ := covers_iff.mp hd
    rcases h with h | h | h
    · exact h hstage
    · exact h hextend
    · exact h hopcode
  · exact tableEntries_of_none (buildTable_eq_none_iff.mpr h)
  · obtain ⟨d, hd, hcov⟩ := h
    cases hb : buildTable c.isaDefs k with
    | none => rw [buildTable_eq_none_iff.mp hb d hd] at hcov; cases hcov
    | some d' => exact ⟨d', mem_of_buildTable hb, covers_of_buildTable hb, tableEntries_of_some hb⟩

end Sys2Proof.Machine

/-! PROOFS. The builder (30_encoding R115, R116, 60_exceptions R306): each check passes exactly on what is well formed, one definition,
a list of definitions, then the obligation O4. -/

namespace Sys2Proof.Machine

/-! ### The checks -/

/-- The stage key of a written index below 12 is the one with that packed index (R105). -/
theorem stageOfNat_cases (k : Nat) :
    (k < 12 ∧ ∃ stage, stageOfNat k = some stage ∧ (stageIndex stage).toNat = k) ∨ (¬ k < 12 ∧ stageOfNat k = none) := by
  unfold stageOfNat
  split_ifs with hn hd
  · refine .inl ⟨by omega, _, rfl, ?_⟩
    rw [stageIndex_normal_toNat, BitVec.toNat_ofNat]
    omega
  · refine .inl ⟨hd, _, rfl, ?_⟩
    rw [stageIndex_divide_toNat, BitVec.toNat_ofNat]
    omega
  · exact .inr ⟨hd, rfl⟩

theorem patternChar_isSome (c : Char) : (patternChar c).isSome = decide (c = '0' ∨ c = '1' ∨ c = 'x') := by
  unfold patternChar
  split_ifs with h0 h1 hx <;> simp [*]

theorem patternBits_isSome (cs : List Char) (mv : Opcode × Opcode) :
    (patternBits cs mv).isSome = cs.all fun c => decide (c = '0' ∨ c = '1' ∨ c = 'x') := by
  induction cs generalizing mv with
  | nil => rfl
  | cons c rest ih =>
    rw [List.all_cons, ← patternChar_isSome]
    unfold patternBits
    split
    · rename_i hc; rw [hc, ih]; rfl
    · rename_i hc; rw [hc]; rfl

/-- A pattern has a mask and a value exactly when it is well formed (R108). -/
theorem maskValue_isSome (pattern : List Char) : (maskValue pattern).isSome = patternWf pattern := by
  unfold maskValue patternWf
  split_ifs with h <;> simp [h, patternBits_isSome]

/-- Well-formed entries pass every check of the builder. -/
theorem entriesRefusal_of_entriesWf {item : BuildItem} (h : entriesWf (itemEntries item) = true) :
    entriesRefusal item = none := by
  obtain ⟨hall, hcount⟩ := entriesWf_iff.mp h
  have hids : ∀ e ∈ itemEntries item, ∀ id ∈ e.pulses, idWf id = true := fun e he => by
    have hwf := hall e he
    simp only [entryWf, Bool.and_eq_true, List.all_eq_true] at hwf
    exact hwf.2
  have hcounts : ∀ n ∈ List.range' 1 12, countAt (itemEntries item) n ≤ 4 ∧ countAt (itemEntries item) n ≠ 3 := fun n hn => by
    rw [List.mem_range'_1] at hn
    have := hcount n hn.1 (by omega)
    omega
  have hnumber : (itemEntries item).find? (fun e => !decide (1 ≤ e.n ∧ e.n ≤ 12)) = none :=
    List.find?_eq_none.mpr fun e he => by rw [decide_eq_true (entryWf_range (hall e he))]; decide
  have hfive : (List.range' 1 12).find? (fun n => decide (4 < countAt (itemEntries item) n)) = none :=
    List.find?_eq_none.mpr fun n hn => by simpa using (hcounts n hn).1
  have hthree : (List.range' 1 12).find? (fun n => decide (countAt (itemEntries item) n = 3)) = none :=
    List.find?_eq_none.mpr fun n hn => by simpa using (hcounts n hn).2
  have hreserved : ((itemEntries item).flatMap Entry.pulses).find? isReservedId = none := by
    refine List.find?_eq_none.mpr fun id hid => ?_
    obtain ⟨e, he, hid⟩ := List.mem_flatMap.mp hid
    simp [isReservedId_eq, hids e he id hid]
  simp only [entriesRefusal, hnumber, hfive, hthree, hreserved]

/-- A refusal of entries carries the item it is about (60_exceptions R300). -/
theorem refusedItem_of_entriesRefusal {item : BuildItem} {r : BuildRefusal} (h : entriesRefusal item = some r) :
    refusedItem r = some item := by
  unfold entriesRefusal at h
  dsimp only at h
  split at h
  · cases h; rfl
  split at h
  · cases h; rfl
  split at h
  · cases h; rfl
  split at h
  · cases h; rfl
  · cases h

/-! ### One definition -/

theorem rawDefWf_iff {d : RawDef} : rawDefWf d = true ↔
    d.stage < 12 ∧ d.extend < 2 ∧ patternWf d.pattern = true ∧ entriesWf d.entries = true := by
  simp only [rawDefWf, Bool.and_eq_true, decide_eq_true_eq, and_assoc]

/-- A built definition is the written one: stage key by its packed index, extend value, mask and value, name, entries (R110). -/
structure BuiltFrom (d : RawDef) (b : Def) : Prop where
  stage : d.stage = (stageIndex b.stage).toNat
  extend : d.extend = b.extend.toNat
  pattern : maskValue d.pattern = some (b.mask, b.value)
  name : b.name = d.name
  entries : b.entries = d.entries

/-- A refusal that is about a definition which is indeed not well formed. -/
def RefusedFor (d : RawDef) (r : BuildRefusal) : Prop := rawDefWf d = false ∧ refusedItem r = some (.definition d)

theorem refusedFor_of_not {d : RawDef} {r : BuildRefusal}
    (hwf : ¬ (d.stage < 12 ∧ d.extend < 2 ∧ patternWf d.pattern = true ∧ entriesWf d.entries = true))
    (hr : refusedItem r = some (.definition d)) : RefusedFor d r :=
  ⟨Bool.eq_false_of_not_eq_true (rawDefWf_iff.not.mpr hwf), hr⟩

/-- A well-formed definition is built as written, any other is refused. -/
theorem buildDef_cases (d : RawDef) :
    (rawDefWf d = true ∧ ∃ b, buildDef d = .ok b ∧ BuiltFrom d b) ∨ (∃ r, buildDef d = .error r ∧ RefusedFor d r) := by
  unfold buildDef
  rcases stageOfNat_cases d.stage with ⟨hlt, stage, hstage, hindex⟩ | ⟨hge, hstage⟩
  case inr => exact .inr ⟨.badDefinition d, by simp only [hstage], refusedFor_of_not (fun ⟨hlt, _⟩ => hge hlt) rfl⟩
  cases hmask : maskValue d.pattern with
  | none =>
    refine .inr ⟨.badDefinition d, by simp only [hstage], refusedFor_of_not (fun ⟨_, _, hpattern, _⟩ => ?_) rfl⟩
    rw [← maskValue_isSome, hmask] at hpattern
    cases hpattern
  | some mv =>
    have hpattern : patternWf d.pattern = true := by rw [← maskValue_isSome, hmask]; rfl
    by_cases hextend : d.extend < 2
    case neg =>
      exact .inr ⟨.badDefinition d, by simp only [hstage, if_neg hextend], refusedFor_of_not (fun ⟨_, hlt, _⟩ => hextend hlt) rfl⟩
    cases hentries : entriesRefusal (.definition d) with
    | some r =>
      refine .inr ⟨r, by simp only [hstage, if_pos hextend], refusedFor_of_not (fun ⟨_, _, _, hwf⟩ => ?_)
        (refusedItem_of_entriesRefusal hentries)⟩
      rw [entriesRefusal_of_entriesWf (item := .definition d) hwf] at hentries
      cases hentries
    | none =>
      refine .inl ⟨rawDefWf_iff.mpr ⟨hlt, hextend, hpattern, entriesWf_of_entriesRefusal hentries⟩, _,
        by simp only [hstage, if_pos hextend]; rfl, ?_⟩
      refine { stage := hindex.symm, extend := ?_, pattern := hmask, name := rfl, entries := rfl }
      rcases (by omega : d.extend = 0 ∨ d.extend = 1) with h | h <;> simp [h]

/-! ### A list of definitions -/

/-- A list is built definition by definition when all are well formed, and refused for one that is not otherwise. -/
theorem buildDefs_cases (ds : List RawDef) :
    ((∀ d ∈ ds, rawDefWf d = true) ∧ ∃ bs, buildDefs ds = .ok bs ∧ List.Forall₂ BuiltFrom ds bs) ∨
    (∃ r, buildDefs ds = .error r ∧ ∃ d ∈ ds, RefusedFor d r) := by
  induction ds with
  | nil => exact .inl ⟨by simp, [], rfl, .nil⟩
  | cons d rest ih =>
    unfold buildDefs
    rcases buildDef_cases d with ⟨hwf, b, hb, hfrom⟩ | ⟨r, hr, hfor⟩
    · rw [hb]
      rcases ih with ⟨hwfs, bs, hbs, hfroms⟩ | ⟨r, hr, d', hd', hfor⟩
      · exact .inl ⟨List.forall_mem_cons.mpr ⟨hwf, hwfs⟩, b :: bs, by rw [hbs], .cons hfrom hfroms⟩
      · exact .inr ⟨r, by rw [hr], d', List.mem_cons_of_mem _ hd', hfor⟩
    · exact .inr ⟨r, by rw [hr], d, List.mem_cons_self, hfor⟩

/-- Settles O4: the two cases of `buildDefs_cases`, definition `k` of what is built standing to definition `k` of the list. -/
theorem builderAcceptsExactlyTheWellFormed : Obligations.BuilderAcceptsExactlyTheWellFormed := by
  intro defs
  rcases buildDefs_cases defs with ⟨hwf, bs, hbs, hfrom⟩ | ⟨r, hr, d, hd, hnot, hitem⟩
  · refine ⟨⟨fun _ => hwf, fun _ => ⟨bs, hbs⟩⟩, fun built hbuilt => ?_, fun r hr => ?_⟩
    · cases hbs.symm.trans hbuilt
      refine ⟨hfrom.length_eq.symm, fun k d b hd hb => ?_⟩
      have h : BuiltFrom d b := by
        obtain ⟨hk, rfl⟩ := List.getElem?_eq_some_iff.mp hd
        obtain ⟨hk', rfl⟩ := List.getElem?_eq_some_iff.mp hb
        exact hfrom.get hk hk'
      refine ⟨?_, h.extend, h.pattern, h.name, h.entries⟩
      rw [h.stage]
      cases b.stage with
      | normal q => exact stageIndex_normal_toNat q
      | divide q => exact stageIndex_divide_toNat q
    · cases hbs.symm.trans hr
  · refine ⟨⟨fun ⟨bs, hbs⟩ => ?_, fun hwf => ?_⟩, fun built hbuilt => ?_, fun r' hr' => ?_⟩
    · cases hbs.symm.trans hr
    · rw [hwf d hd] at hnot; cases hnot
    · cases hbuilt.symm.trans hr
    · cases hr.symm.trans hr'
      exact ⟨d, hd, hnot, hitem⟩

end Sys2Proof.Machine

/-! PROOFS. The primitives (40_primitives R141 to R146): `copy_bits` in its three modes, the two double-sign operations, the adder as
a natural number, with the obligations O31 to O35. -/

namespace Sys2Proof.Machine

/-! ### `copy_bits` (R141): the other two modes come from `ClearChanged` -/

/-- Clearing everything is copying the range into the word 0. -/
theorem copyBits_clearAll (source dest : Word) (slo shi dlo dhi : Nat) :
    copyBits source dest slo shi dlo dhi .clearAll = copyBits source 0#16 slo shi dlo dhi .clearChanged := by
  simp [copyBits]

/-- Clearing nothing is ORing onto the destination what `ClearAll` gives (decision D35). -/
theorem copyBits_clearNone (source dest : Word) (slo shi dlo dhi : Nat) :
    copyBits source dest slo shi dlo dhi .clearNone = dest ||| copyBits source dest slo shi dlo dhi .clearAll := by
  simp [copyBits]

theorem bit_copyAll (source dest : Word) (slo shi dlo dhi i : Nat) (hok : copyBitsOk slo shi dlo dhi = true) (h1 : 1 ≤ i) :
    bit (copyBits source dest slo shi dlo dhi .clearAll) i =
      if dlo ≤ i ∧ i ≤ dhi then bit source (i - dlo + slo) else false := by
  rw [copyBits_clearAll, bit_copyChanged _ _ _ _ _ _ _ hok h1, bit_zero]

theorem bit_copyNone (source dest : Word) (slo shi dlo dhi i : Nat) (hok : copyBitsOk slo shi dlo dhi = true) (h1 : 1 ≤ i) :
    bit (copyBits source dest slo shi dlo dhi .clearNone) i =
      (bit dest i || if dlo ≤ i ∧ i ≤ dhi then bit source (i - dlo + slo) else false) := by
  rw [copyBits_clearNone, bit_or, bit_copyAll _ _ _ _ _ _ _ hok h1]

/-- Settles O35: the modes one by one, each by its lemma on the bits of the result. -/
theorem copyBitsBitByBit : Obligations.CopyBitsBitByBit := by
  intro source dest slo shi dlo dhi hok mode i h1 _
  cases mode with
  | clearAll =>
    rw [bit_copyAll _ _ _ _ _ _ _ hok h1]
    exact ⟨fun hlo hhi => by simp [hlo, hhi], fun hout => by rw [if_neg (by omega)]; rfl⟩
  | clearChanged =>
    rw [bit_copyChanged _ _ _ _ _ _ _ hok h1]
    exact ⟨fun hlo hhi => by simp [hlo, hhi], fun hout => by rw [if_neg (by omega)]; rfl⟩
  | clearNone =>
    rw [bit_copyNone _ _ _ _ _ _ _ hok h1]
    exact ⟨fun hlo hhi => by simp [hlo, hhi, Bool.or_comm], fun hout => by rw [if_neg (by omega), Bool.or_false]; rfl⟩

/-! ### The double-sign operations (R142, R143) -/

theorem bit_doubleSignExpand (v : Word) :
    bit (doubleSignExpand v) 16 = bit v 15 ∧ ∀ i, 1 ≤ i → i ≤ 15 → bit (doubleSignExpand v) i = bit v i := by
  unfold doubleSignExpand
  refine ⟨?_, fun i h1 h2 => ?_⟩
  · rw [bit_append_hi _ _ (by omega), bit_slice _ _ _ _ 15 (by omega) (by omega) (by omega) (by omega)]
  · rw [bit_append_lo _ _ (by omega) (by omega), bit_slice _ _ _ _ i (by omega) (by omega) (by omega) (by omega)]

/-- Settles O33: the bits of the expansion, `RUS` unfolded, and the examples of R142 evaluated. -/
theorem doubleSignExpand_spec : Obligations.DoubleSignExpand :=
  ⟨bit_doubleSignExpand, fun _ => rfl, by decide⟩

theorem bit_doubleSignCompress (v : Word) (mask : Bool) :
    bit (doubleSignCompress v mask) 15 = bit v 16 ∧
    bit (doubleSignCompress v mask) 16 = (if mask then false else bit v 16) ∧
    ∀ i, 1 ≤ i → i ≤ 14 → bit (doubleSignCompress v mask) i = bit v i := by
  unfold doubleSignCompress
  refine ⟨?_, ?_, fun i h1 h2 => ?_⟩
  · rw [bit_append_hi _ _ (by omega), bit_append_lo _ _ (by omega) (by omega),
      bit_slice _ _ _ _ 16 (by omega) (by omega) (by omega) (by omega)]
  · rw [bit_append_hi _ _ (by omega), bit_append_hi _ _ (by omega)]
    split
    · rw [bit_zero]
    · rw [bit_slice _ _ _ _ 16 (by omega) (by omega) (by omega) (by omega)]
  · rw [bit_append_lo _ _ (by omega) (by omega), bit_slice _ _ _ _ i (by omega) (by omega) (by omega) (by omega)]

/-- Settles O34: the bits of the compression; without the mask it is the mirrored sign, whose fixed words are known. -/
theorem doubleSignCompress_spec : Obligations.DoubleSignCompress := by
  intro v mask
  obtain ⟨h15, h16, hlow⟩ := bit_doubleSignCompress v mask
  refine ⟨h15, h16, hlow, ?_⟩
  rw [doubleSignCompress_false]
  exact mirroredSign_eq_self_iff v

/-! ### The adder (R144, R146) -/

theorem adder_toNat (x y : Word) (c inh : Bool) :
    (adder x y c inh).toNat =
      ((x.toNat + y.toNat) % 65536 + (if c = true ∨ (65536 ≤ x.toNat + y.toNat ∧ inh = false) then 1 else 0)) % 65536 := by
  simp only [adder, Bool.or_eq_true, Bool.and_eq_true, decide_eq_true_eq, Bool.not_eq_true', Nat.reducePow]
  split <;> simp

/-- A sum that fits in 16 bits takes the explicit carry only. -/
theorem adder_toNat_of_lt {x y : Word} (h : x.toNat + y.toNat < 65536) (c inh : Bool) :
    (adder x y c inh).toNat = (x.toNat + y.toNat + c.toNat) % 65536 := by
  rw [adder_toNat]
  cases c <;> simp [Nat.not_le.mpr h]

/-- With end-around carry inhibited the adder is plain addition. -/
theorem adder_toNat_inhibited (x y : Word) (c : Bool) :
    (adder x y c true).toNat = (x.toNat + y.toNat + c.toNat) % 65536 := by
  rw [adder_toNat]
  cases c <;> simp

/-- A sum that does not fit takes one carry, whether or not the explicit one is set too. -/
theorem adder_toNat_of_ge {x y : Word} (h : 65536 ≤ x.toNat + y.toNat) (c : Bool) :
    (adder x y c false).toNat = x.toNat + y.toNat - 65535 := by
  rw [adder_toNat, if_pos (.inr ⟨h, rfl⟩)]
  omega

theorem adder_comm (x y : Word) (c inh : Bool) : adder x y c inh = adder y x c inh := by
  unfold adder
  rw [Nat.add_comm]

theorem adder_zero (x : Word) (c inh : Bool) : adder x 0#16 c inh = x + (BitVec.ofBool c).setWidth 16 := by
  have hx : x.toNat < 65536 := x.isLt
  apply BitVec.eq_of_toNat_eq
  rw [adder_toNat_of_lt (by simpa using hx)]
  cases c <;> simp [hx]

/-- The sum of a word and its complement never overflows. -/
theorem toNat_add_toNat_not (x : Word) : x.toNat + (~~~x).toNat = 65535 := by
  rw [BitVec.toNat_not]
  have := x.isLt
  omega

theorem adder_not (x : Word) (c inh : Bool) : adder x (~~~x) c inh = if c then 0x0000#16 else 0xFFFF#16 := by
  have hsum := toNat_add_toNat_not x
  apply BitVec.eq_of_toNat_eq
  rw [adder_toNat_of_lt (by omega), hsum]
  cases c <;> rfl

/-- Without an explicit carry the result 0 needs both operands 0: a sum that wraps has the end-around carry added to it. -/
theorem adder_eq_zero_iff (x y : Word) : adder x y false false = 0#16 ↔ x = 0#16 ∧ y = 0#16 := by
  simp only [BitVec.toNat_eq, BitVec.toNat_zero]
  rcases Nat.lt_or_ge (x.toNat + y.toNat) 65536 with h | h
  · rw [adder_toNat_of_lt h, Bool.toNat_false, Nat.add_zero, Nat.mod_eq_of_lt h, Nat.add_eq_zero_iff]
  · rw [adder_toNat_of_ge h]
    omega

/-- Settles O31: the sum by natural numbers, `RU` unfolded, and the corner cases of R144 evaluated. -/
theorem adderIsEndAroundCarry : Obligations.AdderIsEndAroundCarry :=
  ⟨adder_toNat, fun _ => rfl, by decide, by decide, by decide, by decide, by decide, fun x => adder_not x false false⟩

/-- Settles O32: the facts (a) to (f) of R146, each a lemma above. -/
theorem adderFacts : Obligations.AdderFacts := by
  intro x y c inh
  exact ⟨adder_comm x y c inh, (adder_zero x false inh).trans (BitVec.add_zero x), adder_not x false inh, adder_not x true false,
    adder_toNat_inhibited x y c, adder_zero x true inh, adder_eq_zero_iff x y⟩

end Sys2Proof.Machine

/-! PROOFS. The bus-read pulses (41_bus_read R160 to R169, R171, R173 to R175): what each puts on the bus, the central registers and the
channels that `S` selects, then the obligations O9 to O12. -/

namespace Sys2Proof.Machine

/-! ### What each pulse puts on the bus -/

section Pulses
variable (s : State)

theorem exec_ra : exec .ra s = .next (orBus s.a s) := rfl

theorem exec_rb : exec .rb s = .next (orBus s.b s) := rfl

theorem exec_rq : exec .rq s = .next (orBus s.q s) := rfl

theorem exec_rz : exec .rz s = .next (orBus s.z s) := rfl

theorem exec_rc : exec .rc s = .next (orBus (~~~s.b) s) := rfl

theorem exec_rg : exec .rg s = .next (orBus s.g s) := rfl

theorem exec_rl : exec .rl s = .next (orBus (mirroredSign s.l) s) := rfl

theorem exec_rsc : exec .rsc s = .next (orBus (centralRead s) s) := rfl

theorem exec_rch : exec .rch s = .next (orBus (channelRead s) s) := rfl

theorem exec_r1c : exec .r1c s = .next (setBus 0xFFFE#16 s) := rfl

theorem exec_rb1 : exec .rb1 s = .next (setBus 0x0001#16 s) := rfl

theorem exec_rstrt : exec .rstrt s = .next (setBus s.cfg.params.restartAddress s) := rfl

end Pulses

/-! ### The central registers (R169) -/

section Central
variable {s : State}

theorem centralRead_a (h : s.sReg = 0) : centralRead s = s.a := by simp [centralRead, h]

theorem centralRead_l (h : s.sReg = 1) : centralRead s = s.l := by simp [centralRead, h]

theorem centralRead_q (h : s.sReg = 2) : centralRead s = s.q := by simp [centralRead, h]

theorem centralRead_eb (h : s.sReg = 3) : centralRead s = ebImage s.cfg.params s.eb := by simp [centralRead, h]

theorem centralRead_fb (h : s.sReg = 4) : centralRead s = fbImage s.cfg.params s.fb := by simp [centralRead, h]

theorem centralRead_z (h : s.sReg = 5) : centralRead s = s.z := by simp [centralRead, h]

theorem centralRead_bb (h : s.sReg = 6) : centralRead s = bbImage s.cfg.params s.eb s.fb := by simp [centralRead, h]

/-- No register answers from 7 up (decision D12): the numbers 0 to 6 are the only ones with a row of their own. -/
theorem centralRead_of_ge (h : 7 ≤ s.sReg.toNat) : centralRead s = 0x0000#16 := by
  unfold centralRead
  split
  case h_8 => rfl
  all_goals omega

end Central

/-- `FB`'s image by places (10_state R37): the top bit twice, the low four below it, and the rest of the word empty. -/
theorem fbImage_fields (fb : Word) :
    bit (fbImage specParams fb) 16 = bit fb 5 ∧ bit (fbImage specParams fb) 15 = bit fb 5 ∧
    (∀ i, 1 ≤ i → i ≤ 4 → bit (fbImage specParams fb) (i + 10) = bit fb i) ∧
    ∀ i, 1 ≤ i → i ≤ 10 → bit (fbImage specParams fb) i = false := by
  refine ⟨?_, ?_, fun i h1 h4 => ?_, fun i h1 h10 => ?_⟩
  · rw [bit_fbImage fb (by omega) (by omega), if_pos (by omega)]
  · rw [bit_fbImage fb (by omega) (by omega), if_pos (by omega)]
  · rw [bit_fbImage fb (by omega) (by omega), if_neg (by omega), decide_eq_true (by omega), Bool.true_and,
      Nat.add_sub_cancel]
  · rw [bit_fbImage fb h1 (by omega), if_neg (by omega), decide_eq_false (by omega), Bool.false_and]

/-- `BB`'s image by places (R38): `FB`'s as above, and `EB` in the low three bits, which `FB` leaves empty. -/
theorem bbImage_fields (eb fb : Word) :
    bit (bbImage specParams eb fb) 16 = bit fb 5 ∧ bit (bbImage specParams eb fb) 15 = bit fb 5 ∧
    (∀ i, 1 ≤ i → i ≤ 4 → bit (bbImage specParams eb fb) (i + 10) = bit fb i) ∧
    (∀ i, 4 ≤ i → i ≤ 10 → bit (bbImage specParams eb fb) i = false) ∧
    ∀ i, 1 ≤ i → i ≤ 3 → bit (bbImage specParams eb fb) i = bit eb i := by
  refine ⟨?_, ?_, fun i h1 h4 => ?_, fun i h4 h10 => ?_, fun i h1 h3 => ?_⟩
  · rw [bit_bbImage eb fb (by omega) (by omega), if_pos (by omega)]
  · rw [bit_bbImage eb fb (by omega) (by omega), if_pos (by omega)]
  · rw [bit_bbImage eb fb (by omega) (by omega), if_neg (by omega), if_pos (by omega), Nat.add_sub_cancel]
  · rw [bit_bbImage eb fb (by omega) (by omega), if_neg (by omega), if_neg (by omega), decide_eq_false (by omega),
      Bool.false_and]
  · rw [bit_bbImage eb fb h1 (by omega), if_neg (by omega), if_neg (by omega), decide_eq_true h3, Bool.true_and]

/-! ### The channels (R168) -/

/-- The channel number is what `S` leaves modulo 64 (20_memory R94, decision D13). -/
theorem channelOf_toNat (a : Addr) : (channelOf a).toNat = a.toNat % 64 := by
  simpa [channelOf] using slice_toNat a 6 1

theorem channelOf_eq_iff (a : Addr) (c : Channel) : channelOf a = c ↔ a.toNat % 64 = c.toNat := by
  rw [← BitVec.toNat_inj, channelOf_toNat]

theorem channelRead_eq (s : State) :
    channelRead s =
      if s.sReg.toNat % 64 = 1 then s.l else if s.sReg.toNat % 64 = 2 then s.q else memRead s.chan (s.sReg.toNat % 64) := by
  simp [channelRead, channelOf_eq_iff, channelOf_toNat]

/-! ### The obligations -/

/-- Settles O10: the word is the central register `S` selects, its bank images read by places. -/
theorem rscReadsTheCentralRegister : Obligations.RscReadsTheCentralRegister := by
  intro s
  refine ⟨centralRead s, exec_rsc s, centralRead_a, centralRead_l, centralRead_q, centralRead_z,
    fun hspec => ⟨fun h3 i h1 _ => ?_, fun h4 => ?_, fun h6 => ?_⟩, centralRead_of_ge⟩
  · rw [centralRead_eb h3, hspec]; exact bit_ebImage s.eb h1
  · rw [centralRead_fb h4, hspec]; exact fbImage_fields s.fb
  · rw [centralRead_bb h6, hspec]; exact bbImage_fields s.eb s.fb

/-- Settles O11: the channel read, its number written as `S` modulo 64. -/
theorem rchReadsTheChannel : Obligations.RchReadsTheChannel := by
  intro s c
  rw [exec_rch, channelRead_eq]
  rfl

/-- Settles O9: each pulse by its equation; the bits of `RL`'s word are those of the mirrored sign. -/
theorem registerReadsOrOntoTheBus : Obligations.RegisterReadsOrOntoTheBus := by
  intro s
  obtain ⟨hlow, h15, h16⟩ := bit_mirroredSign s.l
  exact ⟨exec_ra s, exec_rb s, exec_rq s, exec_rz s, exec_rc s, exec_rg s, mirroredSign s.l, exec_rl s, h16, h15, hlow⟩

/-- Settles O12: each constant pulse by its equation, and the default restart address of the parameters. -/
theorem constantsOverwriteTheBus : Obligations.ConstantsOverwriteTheBus := fun s =>
  ⟨exec_r1c s, exec_rb1 s, exec_rstrt s, rfl⟩

end Sys2Proof.Machine

/-! PROOFS. The bus-write pulses (42_bus_write R180 to R191): what each answers, the edit addresses of `WG`, the central registers and the
channels that `S` selects, then the obligations O13 to O17. -/

namespace Sys2Proof.Machine

/-! ### What each pulse answers -/

section Pulses
variable (s : State)

theorem exec_wa : exec .wa s = .next { s with a := s.wbus } := rfl

theorem exec_wb : exec .wb s = .next { s with b := s.wbus } := rfl

theorem exec_wl : exec .wl s = .next { s with l := s.wbus } := rfl

theorem exec_wq : exec .wq s = .next { s with q := s.wbus } := rfl

theorem exec_wz : exec .wz s = .next { s with z := s.wbus } := rfl

theorem exec_ws : exec .ws s = .next { s with sReg := slice s.wbus 12 1 } := rfl

theorem exec_wsc : exec .wsc s = .next (centralWrite s.wbus s) := rfl

theorem exec_wch : exec .wch s = .next (channelWrite s.wbus s) := rfl

theorem exec_wals : exec .wals s = .next { s with a := walsA s.cfg.params s.g s.wbus, l := walsL s.l s.wbus } := rfl

variable {s}

theorem exec_wg_of_some {v : Word} (h : editedWord s.cfg s.sReg s.wbus = some v) : exec .wg s = .next { s with g := v } := by
  simp only [exec, execWg, h]

theorem exec_wg_of_none (h : editedWord s.cfg s.sReg s.wbus = none) :
    exec .wg s = .fault (.edit23Unspecified s.wbus s) := by
  simp only [exec, execWg, h, raise_eq]

end Pulses

/-- A slice from bit 1 is a cut to its width (00_scope R12). -/
theorem slice_one_eq_setWidth {n : Nat} (v : BitVec n) (hi : Nat) : slice v hi 1 = v.setWidth (hi - 1 + 1) := by
  apply BitVec.eq_of_toNat_eq
  simp [slice_toNat]

/-! ### The edit addresses (R186, R191) -/

section Edit
variable {c : Config} (hspec : c.params = specParams) (w : Word)
include hspec

/-- The four addresses of the spec (decision D16), compared in the order of R186. -/
theorem editedWord_spec (a : Addr) :
    editedWord c a w =
      if a = 0o20#12 then some (cycleRight w)
      else if a = 0o21#12 then some (shiftRight w)
      else if a = 0o22#12 then some (cycleLeft w)
      else if a = 0o23#12 then c.edit23.map fun e => applyEdit23 e w
      else some w := by
  unfold editedWord
  rw [hspec]
  rfl

theorem editedWord_cycleRight : editedWord c 0o20#12 w = some (cycleRight w) := by
  rw [editedWord_spec hspec, if_pos rfl]

theorem editedWord_shiftRight : editedWord c 0o21#12 w = some (shiftRight w) := by
  rw [editedWord_spec hspec, if_neg (by decide), if_pos rfl]

theorem editedWord_cycleLeft : editedWord c 0o22#12 w = some (cycleLeft w) := by
  rw [editedWord_spec hspec, if_neg (by decide), if_neg (by decide), if_pos rfl]

theorem editedWord_fourth : editedWord c 0o23#12 w = c.edit23.map fun e => applyEdit23 e w := by
  rw [editedWord_spec hspec, if_neg (by decide), if_neg (by decide), if_neg (by decide), if_pos rfl]

theorem editedWord_of_ne {a : Addr} (h20 : a ≠ 0o20#12) (h21 : a ≠ 0o21#12) (h22 : a ≠ 0o22#12) (h23 : a ≠ 0o23#12) :
    editedWord c a w = some w := by
  rw [editedWord_spec hspec, if_neg h20, if_neg h21, if_neg h22, if_neg h23]

end Edit

/-! ### The central registers (R188) -/

section Central
variable {s : State} (w : Word)

theorem centralWrite_a (h : s.sReg = 0) : centralWrite w s = { s with a := w } := by simp [centralWrite, h]

theorem centralWrite_l (h : s.sReg = 1) : centralWrite w s = { s with l := w } := by simp [centralWrite, h]

theorem centralWrite_q (h : s.sReg = 2) : centralWrite w s = { s with q := w } := by simp [centralWrite, h]

theorem centralWrite_eb (h : s.sReg = 3) : centralWrite w s = { s with eb := ebOfImage s.cfg.params w } := by
  simp [centralWrite, h]

theorem centralWrite_fb (h : s.sReg = 4) : centralWrite w s = { s with fb := fbOfImage s.cfg.params w } := by
  simp [centralWrite, h]

theorem centralWrite_z (h : s.sReg = 5) : centralWrite w s = { s with z := w } := by simp [centralWrite, h]

theorem centralWrite_bb (h : s.sReg = 6) :
    centralWrite w s = { s with fb := fbOfImage s.cfg.params w, eb := ebOfBothImage s.cfg.params w } := by
  simp [centralWrite, h]

/-- No register takes the bus from 7 up (decision D12). -/
theorem centralWrite_of_ge (h : 7 ≤ s.sReg.toNat) : centralWrite w s = s := by
  unfold centralWrite
  split
  case h_8 => rfl
  all_goals omega

end Central

/-- The field a write of the `EB` image takes, by places (10_state R36). -/
theorem ebOfImage_fields (w : Word) :
    (ebOfImage specParams w).toNat < 8 ∧ ∀ i, 1 ≤ i → i ≤ 3 → bit (ebOfImage specParams w) i = bit w (i + 8) := by
  refine ⟨lowBits_spec_eb _, fun i h1 h3 => ?_⟩
  rw [bit_ebOfImage w h1, decide_eq_true h3, Bool.true_and]

/-- The field a write of the `FB` or `BB` image takes, by places (R37): its top bit from bit 16 of the bus (decision D44). -/
theorem fbOfImage_fields (w : Word) :
    (fbOfImage specParams w).toNat < 32 ∧ bit (fbOfImage specParams w) 5 = bit w 16 ∧
    ∀ i, 1 ≤ i → i ≤ 4 → bit (fbOfImage specParams w) i = bit w (i + 10) := by
  refine ⟨lowBits_spec_fb _, ?_, fun i h1 h4 => ?_⟩
  · rw [bit_fbOfImage w (by omega), if_pos rfl]
  · rw [bit_fbOfImage w h1, if_neg (by omega), decide_eq_true h4, Bool.true_and]

/-- The `EB` field a write of the `BB` image takes, by places (R38). -/
theorem ebOfBothImage_fields (w : Word) :
    (ebOfBothImage specParams w).toNat < 8 ∧ ∀ i, 1 ≤ i → i ≤ 3 → bit (ebOfBothImage specParams w) i = bit w i := by
  refine ⟨lowBits_spec_eb _, fun i h1 h3 => ?_⟩
  rw [bit_ebOfBothImage w h1, decide_eq_true h3, Bool.true_and]

/-! ### The channels (R189) -/

section Channels
variable {s : State} (w : Word)

theorem channelWrite_l (h : s.sReg.toNat % 64 = 1) : channelWrite w s = { s with l := w } := by
  simp [channelWrite, channelOf_eq_iff, h]

theorem channelWrite_q (h : s.sReg.toNat % 64 = 2) : channelWrite w s = { s with q := w } := by
  simp [channelWrite, channelOf_eq_iff, h]

theorem channelWrite_stored (h1 : s.sReg.toNat % 64 ≠ 1) (h2 : s.sReg.toNat % 64 ≠ 2) :
    channelWrite w s = { s with chan := memWrite s.chan (s.sReg.toNat % 64) w } := by
  simp [channelWrite, channelOf_eq_iff, channelOf_toNat, h1, h2]

end Channels

/-! ### The obligations -/

/-- Settles O14: the word `WG` puts in `G`, address by address, and its bits by the lemma on each shift. -/
theorem wgCopiesOrEdits : Obligations.WgCopiesOrEdits := by
  intro s hspec
  have fourth (h23 : s.sReg = 0o23#12) : editedWord s.cfg s.sReg s.wbus = s.cfg.edit23.map fun e => applyEdit23 e s.wbus :=
    h23 ▸ editedWord_fourth hspec s.wbus
  have supplied {e : Edit23} (h23 : s.sReg = 0o23#12) (he : s.cfg.edit23 = some e) :
      exec .wg s = .next { s with g := applyEdit23 e s.wbus } := exec_wg_of_some (by rw [fourth h23, he]; rfl)
  refine ⟨fun h20 => ?_, fun h21 => ?_, fun h22 => ?_, fun h20 h21 h22 h23 => ?_, fun h23 he => ?_, fun h23 he => ?_,
    fun h23 he => ?_, fun n h23 he => supplied h23 he⟩
  · obtain ⟨hlow, h14, h15, h16⟩ := bit_cycleRight s.wbus
    exact ⟨_, exec_wg_of_some (h20 ▸ editedWord_cycleRight hspec s.wbus), h16, h15, h14, hlow⟩
  · obtain ⟨hlow, h14, h15, h16⟩ := bit_shiftRight s.wbus
    exact ⟨_, exec_wg_of_some (h21 ▸ editedWord_shiftRight hspec s.wbus), h16, h15, h14, hlow⟩
  · obtain ⟨h1, hmid, h15, h16⟩ := bit_cycleLeft s.wbus
    exact ⟨_, exec_wg_of_some (h22 ▸ editedWord_cycleLeft hspec s.wbus), h16, h15, h1, hmid⟩
  · exact exec_wg_of_some (editedWord_of_ne hspec s.wbus h20 h21 h22 h23)
  · exact exec_wg_of_none (by rw [fourth h23, he]; rfl)
  · obtain ⟨h1, hmid, h15, h16⟩ := bit_applyEdit23_src s.wbus
    exact ⟨_, supplied h23 he, h16, h15, h1, hmid⟩
  · exact ⟨_, supplied h23 he, bit_applyEdit23_gk s.wbus⟩

/-- Settles O15: the central write, register by register, its bank fields read by places. -/
theorem wscWritesTheCentralRegister : Obligations.WscWritesTheCentralRegister := by
  intro s w
  rw [exec_wsc]
  refine ⟨fun h => by rw [centralWrite_a _ h], fun h => by rw [centralWrite_l _ h], fun h => by rw [centralWrite_q _ h],
    fun h => ⟨_, by rw [centralWrite_eb _ h], fun hspec => ?_⟩, fun h => ⟨_, by rw [centralWrite_fb _ h], fun hspec => ?_⟩,
    fun h => by rw [centralWrite_z _ h], fun h => ⟨_, _, by rw [centralWrite_bb _ h], fun hspec => ?_⟩,
    fun h => by rw [centralWrite_of_ge _ h]⟩
  · rw [hspec]; exact ebOfImage_fields w
  · rw [hspec]; exact fbOfImage_fields w
  · obtain ⟨hlt, hbits⟩ := ebOfBothImage_fields w
    rw [hspec]
    exact ⟨hlt, hbits, fbOfImage_fields w⟩

/-- Settles O16: the channel write, its number written as `S` modulo 64, and the law of a read after a write. -/
theorem wchWritesTheChannel : Obligations.WchWritesTheChannel := by
  intro s c
  rw [exec_wch]
  refine ⟨fun h1 => by rw [channelWrite_l _ h1], fun h2 => by rw [channelWrite_q _ h2], fun h1 h2 hwf =>
    ⟨_, by rw [channelWrite_stored _ h1 h2], memWf_memWrite c s.wbus hwf, ?_, fun k hk => ?_⟩⟩
  · rw [memRead_memWrite hwf, if_pos rfl]
  · rw [memRead_memWrite hwf, if_neg hk]

/-- Settles O17: the bits of the two words; the sign of `A` is the bus's exactly when `G[1]` is 1 (decision D17). -/
theorem walsSplitsTheBus : Obligations.WalsSplitsTheBus := by
  intro s hspec
  obtain ⟨hlow, h15, h16⟩ := bit_walsA s.cfg.params s.g s.wbus
  obtain ⟨hkept, hmoved, hsign⟩ := bit_walsL s.l s.wbus
  rw [show s.cfg.params.walsBusWhen = true by rw [hspec]; rfl] at h15 h16
  refine ⟨_, _, exec_wals s, hlow, fun hg => ?_, fun hg => ?_, hmoved 14 (by omega) (by omega), hmoved 13 (by omega) (by omega),
    hsign 16 (by omega) (by omega), hsign 15 (by omega) (by omega), hkept⟩
  · rw [if_neg (by simp [hg])] at h15 h16
    exact ⟨h15, h16⟩
  · rw [if_pos hg] at h15 h16
    exact ⟨h15, h16⟩

/-- Settles O13: each pulse by its equation; the slice `WS` takes from bit 1 is the bus cut to 12 bits. -/
theorem registerWritesCopyTheBus : Obligations.RegisterWritesCopyTheBus := fun s =>
  ⟨exec_wa s, exec_wb s, exec_wl s, exec_wq s, exec_wz s, by rw [exec_ws, slice_one_eq_setWidth]⟩

end Sys2Proof.Machine

/-! PROOFS. The adder set-up pulses (43_adder_setup R200 to R208): what each answers, the word `WY12` loads, when `WYD` leaves `Y[1]`
unwritten, then the obligations O18 and O19. -/

namespace Sys2Proof.Machine

/-! ### What each pulse answers -/

section Pulses
variable (s : State)

theorem exec_wy : exec .wy s = .next (loadAdder s.wbus s) := rfl

theorem exec_wy12 : exec .wy12 s = .next (loadAdder (zext16 (slice s.wbus 12 1)) s) := rfl

theorem exec_wyd : exec .wyd s = .next (loadAdder (doubledWord s.wbus (wydBlocked s)) s) := rfl

theorem exec_a2x : exec .a2x s = .next { s with x := s.a } := rfl

theorem exec_monex : exec .monex s = .next (forceX s.cfg.params.monexBits s) := rfl

theorem exec_ponex : exec .ponex s = .next (forceX s.cfg.params.ponexBits s) := rfl

theorem exec_ptwox : exec .ptwox s = .next (forceX s.cfg.params.ptwoxBits s) := rfl

theorem exec_b15x : exec .b15x s = .next (forceX s.cfg.params.b15xBits s) := rfl

theorem exec_ci : exec .ci s = .next { s with ci := true } := rfl

end Pulses

/-- The word `WY12` loads (R201): the slice is the bus modulo 2^12, and widening it changes no value. -/
theorem zext16_slice_low12 (w : Word) : zext16 (slice w 12 1) = BitVec.ofNat 16 (w.toNat % 4096) := by
  rw [slice_one_eq_setWidth]
  apply BitVec.eq_of_toNat_eq
  simp [zext16]

/-! ### When `WYD` leaves `Y[1]` unwritten (R202, decision D18) -/

/-- A divide substage is active exactly when `DVStage` is not 0. -/
theorem wydBlockStages_contains_iff : ∀ d : BitVec 3, specParams.wydBlockStages.contains d = true ↔ d ≠ 0 := by decide

theorem wydBlocked_iff {s : State} (hspec : s.cfg.params = specParams) :
    wydBlocked s = true ↔ s.noEAC = true ∨ s.dvStage ≠ 0 ∨ (s.pifl = true ∧ bit s.l 15 = true) := by
  rw [wydBlocked, hspec, Bool.or_eq_true, Bool.or_eq_true, Bool.and_eq_true, wydBlockStages_contains_iff, or_assoc]

theorem wydBlocked_eq_false_iff {s : State} (hspec : s.cfg.params = specParams) :
    wydBlocked s = false ↔ s.noEAC = false ∧ s.dvStage = 0 ∧ (s.pifl = false ∨ bit s.l 15 = false) := by
  rw [← Bool.not_eq_true, wydBlocked_iff hspec]
  simp only [not_or, not_and_or, not_not, Bool.not_eq_true]

/-! ### The obligations -/

/-- Settles O19: the bits of the doubled word; its bit 1 is the bus's sign exactly when nothing blocks it. -/
theorem wydDoublesTheBus : Obligations.WydDoublesTheBus := by
  intro s hspec
  obtain ⟨hfirst, hmiddle, hsign⟩ := bit_doubledWord s.wbus (wydBlocked s)
  refine ⟨_, exec_wyd s, hsign, hmiddle, fun hblock => ?_, fun hfree => ?_⟩
  · rw [hfirst, if_pos ((wydBlocked_iff hspec).2 hblock)]
  · rw [hfirst, (wydBlocked_eq_false_iff hspec).2 hfree, if_neg Bool.false_ne_true]

/-- Settles O18: each pulse by its equation, and the default patterns of the parameters (decision D19). -/
theorem adderSetupPulses : Obligations.AdderSetupPulses := by
  refine ⟨fun s => ⟨exec_wy s, ?_, exec_a2x s, exec_monex s, exec_ponex s, exec_ptwox s, exec_b15x s, exec_ci s⟩, rfl, rfl, rfl, rfl⟩
  rw [exec_wy12, zext16_slice_low12]
  rfl

end Sys2Proof.Machine

/-! PROOFS. The branch-test pulses (44_branch_test R215 to R223): what each answers, the conditions they test as numbers, then the
obligations O20 and O21. -/

namespace Sys2Proof.Machine

/-! ### What each pulse answers -/

section Pulses
variable (s : State)

theorem exec_tsgn : exec .tsgn s = .next { s with br1 := signBit s.wbus } := rfl

theorem exec_tsgn2 : exec .tsgn2 s = .next { s with br2 := signBit s.wbus } := rfl

theorem exec_tmz : exec .tmz s = .next { s with br2 := isMinusZero s.wbus } := rfl

theorem exec_tov : exec .tov s = .next (setBranch (overflowCode s.cfg.params s.wbus) s) := rfl

theorem exec_tpzg : exec .tpzg s = .next { s with br2 := plusZeroFlag s.cfg.params s.br2 s.g } := rfl

theorem exec_tl15 : exec .tl15 s = .next { s with br1 := bit s.l 15 } := rfl

end Pulses

/-! ### The conditions tested -/

/-- Bit 16 is the most significant one, so the words with the sign are those from 2^15 up (decision D20). -/
theorem signBit_eq_decide (w : Word) : signBit w = decide (0x8000 ≤ w.toNat) :=
  calc signBit w = w.msb := (BitVec.msb_eq_getLsbD_last w).symm
    _ = decide (0x8000 ≤ w.toNat) := BitVec.msb_eq_decide w

theorem isMinusZero_eq_decide (w : Word) : isMinusZero w = decide (w.toNat = 65535) :=
  decide_eq_decide.2 BitVec.toNat_inj.symm

theorem isPlusZero_eq_decide (w : Word) : isPlusZero w = decide (w.toNat = 0) :=
  decide_eq_decide.2 BitVec.toNat_inj.symm

/-- `TPZG` assigns where `TPZG_SET_ONLY` is off (R220). -/
theorem plusZeroFlag_of_assigning {p : Params} (h : p.tpzgSetOnly = false) (br2 : Bool) (g : Word) :
    plusZeroFlag p br2 g = decide (g.toNat = 0) := by
  rw [plusZeroFlag, h, if_neg Bool.false_ne_true, isPlusZero_eq_decide]

/-- `TPZG` never clears `BR2` under `TPZG_SET_ONLY` (R220). -/
theorem plusZeroFlag_of_setOnly {p : Params} (h : p.tpzgSetOnly = true) (br2 : Bool) (g : Word) :
    plusZeroFlag p br2 g = (br2 || decide (g.toNat = 0)) := by
  rw [plusZeroFlag, if_pos h, isPlusZero_eq_decide]

/-- The code of decision D21: `BR1` is negative overflow, `BR2` is positive overflow. -/
theorem overflowCode_spec (w : Word) :
    overflowCode specParams w = (bit w 16 && !bit w 15, !bit w 16 && bit w 15) := by
  unfold overflowCode
  cases bit w 16 <;> cases bit w 15 <;> rfl

/-! ### A list of pulses, by the pulses -/

/-- A list written with a pulse that has an id runs that pulse, then the others (48_scheduler R267). -/
theorem runPulses_pulseIds_cons {i : Instr} (hi : (pulseId i).isSome = true) (is : List Instr) (s : State) :
    runPulses (pulseIds (i :: is)) s = andThen (exec i s) (runPulses (pulseIds is)) := by
  obtain ⟨id, hid⟩ := Option.isSome_iff_exists.1 hi
  rw [pulseIds, List.filterMap_cons_some hid, runPulses_cons, runPulse_of_decode (decodePulse_of_pulseId hid), pulseIds]

theorem runPulses_tsgn_tmz (s : State) :
    runPulses (pulseIds [.tsgn, .tmz]) s = .next { s with br1 := signBit s.wbus, br2 := isMinusZero s.wbus } := by
  rw [runPulses_pulseIds_cons rfl, exec_tsgn, andThen_next, runPulses_pulseIds_cons rfl, exec_tmz, andThen_next]
  rfl

/-- The packed register of the two tests (R223): minus zero has the sign, so 1 does not occur. -/
theorem packedBranch_sign_minusZero {p : Params} (hp : p.brPacking = .numeric) (w : Word) :
    packedBranch p (signBit w) (isMinusZero w) = if w = 0xFFFF#16 then 3 else if 0x8000 ≤ w.toNat then 2 else 0 := by
  rw [packedBranch, hp, signBit_eq_decide, isMinusZero]
  by_cases hzero : w = 0xFFFF#16
  · subst hzero; rfl
  · by_cases hsign : 0x8000 ≤ w.toNat <;> simp [hzero, hsign]

/-! ### The obligations -/

/-- Settles O20: each pulse by its equation, its condition read as a number, and the code of `TOV` by the top two bits. -/
theorem branchTests : Obligations.BranchTests := by
  refine ⟨fun s => ⟨exec_tsgn s, exec_tsgn2 s, ?_, exec_tl15 s, fun hoff => ?_, fun hon => ?_⟩, rfl, fun s hspec => ?_⟩
  · rw [exec_tmz, isMinusZero_eq_decide]
  · rw [exec_tpzg, plusZeroFlag_of_assigning hoff]
  · rw [exec_tpzg, plusZeroFlag_of_setOnly hon]
  · refine ⟨bit s.wbus 16 && !bit s.wbus 15, !bit s.wbus 16 && bit s.wbus 15, ?_,
      fun h16 h15 => ?_, fun h16 h15 => ?_, fun heq => ?_⟩
    · rw [exec_tov, hspec, overflowCode_spec]; rfl
    · simp [h16, h15]
    · simp [h16, h15]
    · simp [heq]

/-- Settles O21: the two pulses as one assignment of both flip-flops, and the packed register by the class of the bus value. -/
theorem signAndMinusZeroTogether : Obligations.SignAndMinusZeroTogether := fun s hpack =>
  ⟨_, runPulses_tsgn_tmz s, rfl, packedBranch_sign_minusZero hpack s.wbus⟩

end Sys2Proof.Machine

/-! PROOFS. The stage and flow-control pulses (45_stage_flow R230 to R233) and `TRSM` (44_branch_test R221): what each answers, what `RAD`
does by the decoding of `G`, then the obligations O22 and O23. -/

namespace Sys2Proof.Machine

/-! ### What each pulse and each sentinel row answers -/

section Rows
variable (s : State)

theorem exec_st1 : exec .st1 s = .next (requestStage 1#2 s) := rfl

theorem exec_st2 : exec .st2 s = .next (requestStage 2#2 s) := rfl

theorem exec_nisq : exec .nisq s = .next { s with nextInstruction := true, inhibitInterrupts := false } := rfl

theorem exec_radRelint :
    exec .radRelint s = .next (requestStage 2#2 (orBus s.z { s with inhibitInterrupts := false })) := rfl

theorem exec_radInhint :
    exec .radInhint s = .next (requestStage 2#2 (orBus s.z { s with inhibitInterrupts := true })) := rfl

theorem exec_radExtend : exec .radExtend s = .next (requestStage 2#2 (orBus s.z { s with extendNext := true })) := rfl

end Rows

/-! ### `TRSM` by the resume address, `RAD` by the decoding of `G` -/

section Tests
variable {s : State}

theorem exec_trsm_of_resume (h : s.sReg.toNat = 15) : exec .trsm s = .next (requestStage 2#2 s) :=
  congrArg Host.Outcome.next (if_pos (BitVec.eq_of_toNat_eq h))

theorem exec_trsm_of_not_resume (h : s.sReg.toNat ≠ 15) : exec .trsm s = .next s :=
  congrArg Host.Outcome.next (if_neg fun heq => h (congrArg BitVec.toNat heq))

/-- `RAD` runs the sentinel row that `G` decodes to (R233). -/
theorem exec_rad_of_decodeWord {i : Instr} (h : decodeWord s.cfg.params s.g = .ok i) : exec .rad s = exec i s := by
  rcases encode_eq_word_iff.mp (decodeWord_eq_ok h) with ⟨_, rfl⟩ | ⟨_, rfl⟩ | ⟨_, rfl⟩ <;> simp only [exec, execRad, h]

/-- `RAD` is `RG` on a word that is no sentinel (R233). -/
theorem exec_rad_of_ordinary (h1 : s.g ≠ s.cfg.params.radRelint) (h2 : s.g ≠ s.cfg.params.radInhint)
    (h3 : s.g ≠ s.cfg.params.radExtend) : exec .rad s = exec .rg s := by
  have hword : decodeWord s.cfg.params s.g = .error (.ordinaryWord s.g) := by
    rw [decodeWord, if_neg h1, if_neg h2, if_neg h3]
  simp only [exec, execRad, hword]

end Tests

/-! ### The obligations -/

/-- Settles O22: each pulse by its equation, `TRSM` on and off the resume address. -/
theorem stageRequestsAndNisq : Obligations.StageRequestsAndNisq := fun s =>
  ⟨exec_st1 s, exec_st2 s, exec_trsm_of_resume, exec_trsm_of_not_resume, exec_nisq s⟩

/-- Settles O23: the three values of decision D24 decode to the three sentinel rows, which `RAD` then runs. -/
theorem radActsOnSentinels : Obligations.RadActsOnSentinels := by
  refine ⟨fun s hspec => ⟨fun hg => ?_, fun hg => ?_, fun hg => ?_, fun h3 h4 h6 => ?_⟩,
    fun s => ⟨exec_radRelint s, exec_radInhint s, exec_radExtend s⟩⟩
  · exact (exec_rad_of_decodeWord (by rw [hspec, hg]; rfl)).trans (exec_radRelint s)
  · exact (exec_rad_of_decodeWord (by rw [hspec, hg]; rfl)).trans (exec_radInhint s)
  · exact (exec_rad_of_decodeWord (by rw [hspec, hg]; rfl)).trans (exec_radExtend s)
  · exact (exec_rad_of_ordinary (hspec ▸ h3) (hspec ▸ h4) (hspec ▸ h6)).trans (exec_rg s)

end Sys2Proof.Machine

/-! PROOFS. The compound pulses (46_compound R240 to R244): what each answers, `ZIP` by the parts of its action and the rows of
the candidate `ZIP_GK`, then the obligations O24 to O27. -/

namespace Sys2Proof.Machine

/-! ### What each pulse answers -/

section Pulses
variable (s : State)

theorem exec_ru : exec .ru s = .next (orBus (adderOut s) s) := rfl

theorem exec_g2ls : exec .g2ls s = .next { s with l := g2lsWord s.cfg.params s.g s.l } := rfl

theorem exec_l2gd : exec .l2gd s = .next { s with g := l2gdWord s.cfg.params s.l s.mcro s.g } := rfl

theorem exec_zap : exec .zap s = andThen (exec .ru s) fun s1 => andThen (exec .g2ls s1) (exec .wals) := rfl

variable {s}

theorem exec_zip_of_none (h : zipRow s.cfg.zipTable (zipSelectOf s.cfg.zipSelect s.l) = none) :
    exec .zip s = .fault (.zipInvalid s.l (zipSelectOf s.cfg.zipSelect s.l) s) := by
  simp only [exec, execZip, h, raise_eq]

theorem exec_zip_of_some {act : ZipAction} (h : zipRow s.cfg.zipTable (zipSelectOf s.cfg.zipSelect s.l) = some act) :
    exec .zip s = andThen (zipDoAction act s) fun s1 => andThen (exec .a2x s1) (exec .l2gd) := by
  simp only [exec, execZip, h]
  rfl

end Pulses

/-! ### The words of the two transfers (R243, R244, decision D26) -/

/-- `L` after `G2LS`, by places. -/
theorem g2lsWord_fields (g l : Word) :
    (∀ i, 1 ≤ i → i ≤ 12 → bit (g2lsWord specParams g l) i = bit g (i + 3)) ∧
    bit (g2lsWord specParams g l) 16 = bit g 16 ∧ bit (g2lsWord specParams g l) 15 = bit g 1 ∧
    bit (g2lsWord specParams g l) 14 = bit l 14 ∧ bit (g2lsWord specParams g l) 13 = bit l 13 := by
  refine ⟨fun i h1 h12 => ?_, ?_, ?_, ?_, ?_⟩
  · rw [bit_g2lsWord g l h1, if_pos h12]
  all_goals exact bit_g2lsWord g l (by decide)

/-- `G` after `L2GD`, by places. -/
theorem l2gdWord_fields (l : Word) (mcro : Bool) (g : Word) :
    (∀ i, 2 ≤ i → i ≤ 15 → bit (l2gdWord specParams l mcro g) i = bit l (i - 1)) ∧
    bit (l2gdWord specParams l mcro g) 16 = bit l 16 ∧ bit (l2gdWord specParams l mcro g) 1 = mcro := by
  refine ⟨fun i h2 h15 => ?_, bit_l2gdWord l mcro g (by decide) (by decide), bit_l2gdWord l mcro g (by decide) (by decide)⟩
  rw [bit_l2gdWord l mcro g (by omega) (by omega), if_neg (by omega), if_neg (by omega)]

/-! ### A `ZIP` action by its parts (R241) -/

/-- The bus after the read of a `ZIP` action. -/
def zipBus (r : ZipRead) (s : State) : Word :=
  match r with
  | .none => s.wbus
  | .rb => s.wbus ||| s.b
  | .rc => s.wbus ||| ~~~s.b

/-- `Y` after the adder load of a `ZIP` action, the bus being `bus`. -/
def zipAddend (r : ZipLoad) (bus : Word) (s : State) : Word :=
  match r with
  | .none => s.y
  | .wy => bus
  | .wyd => doubledWord bus (wydBlocked s)

theorem zipDoRead_eq (r : ZipRead) (s : State) : zipDoRead r s = .next { s with wbus := zipBus r s } := by
  cases r with
  | none => rfl
  | rb => exact exec_rb s
  | rc => exact exec_rc s

/-- A load clears `X` and the carry; without one, `X`, `Y` and the carry stay. -/
theorem zipDoLoad_eq (r : ZipLoad) (s : State) :
    zipDoLoad r s = .next { s with
      x := if r = .none then s.x else 0
      y := zipAddend r s.wbus s
      ci := decide (r = .none) && s.ci } := by
  cases r with
  | none => rfl
  | wy => exact exec_wy s
  | wyd => exact exec_wyd s

/-- A `ZIP` action completes: the blocking of `WYD` depends on nothing that the read before it changes. -/
theorem zipDoAction_eq (act : ZipAction) (s : State) :
    zipDoAction act s = .next { s with
      wbus := zipBus act.read s
      x := if act.load = .none then s.x else 0
      y := zipAddend act.load (zipBus act.read s) s
      ci := act.ci || (decide (act.load = .none) && s.ci)
      mcro := act.mcro || s.mcro } := by
  rw [zipDoAction, zipDoRead_eq, andThen_next, zipDoLoad_eq, andThen_next]
  cases act.ci <;> cases act.mcro <;> rfl

/-- `ZIP` on a valid row: `A2X` overwrites what the load left in `X`, and `L2GD` sees `MCRO` as the action left it. -/
theorem exec_zip_eq {s : State} {act : ZipAction}
    (h : zipRow s.cfg.zipTable (zipSelectOf s.cfg.zipSelect s.l) = some act) :
    exec .zip s = .next { s with
      wbus := zipBus act.read s
      x := s.a
      y := zipAddend act.load (zipBus act.read s) s
      ci := act.ci || (decide (act.load = .none) && s.ci)
      mcro := act.mcro || s.mcro
      g := l2gdWord s.cfg.params s.l (act.mcro || s.mcro) s.g } := by
  rw [exec_zip_of_some h, zipDoAction_eq]
  rfl

/-! ### The candidate `ZIP_GK` (R241, decision D25) -/

/-- A slice of one bit is that bit. -/
theorem slice_single {n : Nat} (v : BitVec n) (i : Nat) : (slice v i i).toNat = (bit v i).toNat := by
  rw [slice_toNat, bit, BitVec.getLsbD, Nat.sub_self, Nat.toNat_testBit, Nat.zero_add, Nat.pow_one]

/-- The selector of `ZIP_GK` as a number. -/
theorem zipSelectOf_gk_toNat (l : Word) :
    (zipSelectOf .gk l).toNat = (bit l 15).toNat * 4 + (bit l 2).toNat * 2 + (bit l 1).toNat := by
  rw [zipSelectOf, BitVec.toNat_append, BitVec.toNat_append, slice_single, slice_single, slice_single]
  cases bit l 15 <;> cases bit l 2 <;> cases bit l 1 <;> rfl

/-- The action of row `k` of `ZIP_GK`, each part by the rows that have it. -/
def zipActionGK (k : Nat) : ZipAction where
  read := if k = 0 ∨ k = 7 then .none else if k = 3 ∨ k = 6 then .rc else .rb
  load := if k = 2 ∨ k = 5 then .wyd else .wy
  ci := decide (k = 3 ∨ k = 6)
  mcro := decide (k = 3 ∨ k = 6 ∨ k = 7)

theorem zipRow_zipTableGK : ∀ k : BitVec 3, zipRow zipTableGK k = some (zipActionGK k.toNat) := by decide

/-- The addend of row `k` on an empty bus with nothing blocking the doubling: 0, `B`, `B` doubled, or the complement of `B`. -/
theorem zipAddend_zipActionGK {s : State} (hbus : s.wbus = 0) (hfree : wydBlocked s = false) (k : Nat) :
    zipAddend (zipActionGK k).load (zipBus (zipActionGK k).read s) s =
      if k = 0 ∨ k = 7 then 0 else if k = 3 ∨ k = 6 then ~~~s.b
      else if k = 2 ∨ k = 5 then doubledWord s.b false else s.b := by
  by_cases hzero : k = 0 ∨ k = 7
  · rw [zipActionGK, if_pos hzero, if_pos hzero, if_neg (by omega)]
    exact hbus
  by_cases hcompl : k = 3 ∨ k = 6
  · rw [zipActionGK, if_neg hzero, if_pos hcompl, if_neg hzero, if_pos hcompl, if_neg (by omega)]
    simp only [zipAddend, zipBus, hbus, BitVec.ofNat_eq_ofNat, BitVec.zero_or]
  rw [zipActionGK, if_neg hzero, if_neg hcompl, if_neg hzero, if_neg hcompl]
  split <;> simp only [zipAddend, zipBus, hbus, hfree, BitVec.ofNat_eq_ofNat, BitVec.zero_or]

/-- `ZIP` under `ZIP_GK` does the action of the row that `L` selects; every row loads the adder, so the carry is the row's own. -/
theorem exec_zip_gk {s : State} (hsel : s.cfg.zipSelect = .gk) (htable : s.cfg.zipTable = zipTableGK) (hmcro : s.mcro = false)
    {k : Nat} (hk : k = (bit s.l 15).toNat * 4 + (bit s.l 2).toNat * 2 + (bit s.l 1).toNat) :
    exec .zip s = .next { s with
      wbus := zipBus (zipActionGK k).read s
      x := s.a
      y := zipAddend (zipActionGK k).load (zipBus (zipActionGK k).read s) s
      ci := decide (k = 3 ∨ k = 6)
      mcro := decide (k = 3 ∨ k = 6 ∨ k = 7)
      g := l2gdWord s.cfg.params s.l (decide (k = 3 ∨ k = 6 ∨ k = 7)) s.g } := by
  have hrow : zipRow s.cfg.zipTable (zipSelectOf s.cfg.zipSelect s.l) = some (zipActionGK k) := by
    rw [hsel, htable, zipRow_zipTableGK, zipSelectOf_gk_toNat, hk]
  have hload : (zipActionGK k).load ≠ .none := by unfold zipActionGK; dsimp only; split <;> decide
  have hci : ((zipActionGK k).ci || (decide ((zipActionGK k).load = .none) && s.ci)) = decide (k = 3 ∨ k = 6) := by
    rw [decide_eq_false hload, Bool.false_and, Bool.or_false, zipActionGK]
  have hcarry : ((zipActionGK k).mcro || s.mcro) = decide (k = 3 ∨ k = 6 ∨ k = 7) := by
    rw [hmcro, Bool.or_false, zipActionGK]
  rw [exec_zip_eq hrow, hci, hcarry]

/-! ### The obligations -/

/-- Settles O24: the two transfers by their equations and the places of their words. -/
theorem transfersBetweenGAndL : Obligations.TransfersBetweenGAndL := by
  intro s
  refine ⟨⟨_, exec_g2ls s, fun hspec => ?_⟩, ⟨_, exec_l2gd s, fun hspec => ?_⟩⟩
  · rw [hspec]; exact g2lsWord_fields s.g s.l
  · rw [hspec]; exact l2gdWord_fields s.l s.mcro s.g

/-- Settles O25: `G2LS` on the state `RU` left (O24), then `WALS` on the state `G2LS` left (O17); `WALS` keeps of `L` what it does
not split the bus into. -/
theorem zapIsItsThreeParts : Obligations.ZapIsItsThreeParts := by
  intro s hspec
  obtain ⟨⟨v, hg2ls, hmoved⟩, _⟩ := transfersBetweenGAndL (orBus (adderOut s) s)
  obtain ⟨hlow, hv16, hv15, _, _⟩ := hmoved hspec
  obtain ⟨av, lv, hwals, ha, hplus, hminus, h14, h13, h16, h15, hkept⟩ :=
    walsSplitsTheBus { orBus (adderOut s) s with l := v } hspec
  have hparts : exec .zap s = exec .wals { orBus (adderOut s) s with l := v } := by
    rw [exec_zap, exec_ru, andThen_next, hg2ls, andThen_next]
  exact ⟨av, lv, hparts.trans hwals, exec_zap s, ha, hplus, hminus,
    fun i h1 h12 => (hkept i h1 h12).trans (hlow i h1 h12), h13, h14, h15.trans hv15, h16.trans hv16⟩

/-- Settles O26: the fault of an invalid row, and the equation of a valid one with the places of the word in `G`. -/
theorem zipPerformsItsAction : Obligations.ZipPerformsItsAction := by
  refine ⟨fun s hrow => exec_zip_of_none hrow, fun s act hrow => ⟨_, exec_zip_eq hrow, fun hspec => ?_⟩⟩
  obtain ⟨hmiddle, hsign, hfirst⟩ := l2gdWord_fields s.l (act.mcro || s.mcro) s.g
  rw [hspec]
  exact ⟨hsign, hmiddle, hfirst⟩

/-- Settles O27: the equation of `ZIP` under `ZIP_GK`, its addend by the kind of row. -/
theorem zipMultiplyStep : Obligations.ZipMultiplyStep := by
  intro s hspec hsel htable hbus hmcro hneac hstage hpifl k
  have haddend := zipAddend_zipActionGK hbus ((wydBlocked_eq_false_iff hspec).2 ⟨hneac, hstage, .inl hpifl⟩) k
  obtain ⟨hmiddle, hsign, hfirst⟩ := l2gdWord_fields s.l (decide (k = 3 ∨ k = 6 ∨ k = 7)) s.g
  rw [← hspec] at hmiddle hsign hfirst
  refine ⟨_, exec_zip_gk hsel htable hmcro rfl, rfl, fun h => ?_, fun h => ?_, fun h => ?_, fun h => ?_,
    fun h => decide_eq_true h, fun h => decide_eq_false (by omega), fun h => decide_eq_true h,
    fun h => decide_eq_false (by omega), hfirst, hsign, hmiddle⟩
  · exact haddend.trans (if_pos h)
  · rw [if_neg (by omega), if_neg (by omega), if_neg (by omega)] at haddend
    exact haddend
  · rw [if_neg (by omega), if_neg (by omega), if_pos h] at haddend
    obtain ⟨hd1, hdmid, hd16⟩ := bit_doubledWord s.b false
    dsimp only
    rw [haddend]
    exact ⟨hd16, hd1, hdmid⟩
  · rw [if_neg (by omega), if_pos h] at haddend
    exact haddend

end Sys2Proof.Machine

/-! PROOFS. The supplementary pulses (47_supplementary R251 to R255), the default skip (48_scheduler R281) and which rows can fault
(60_exceptions R300): what each answers, then the obligations O28, O29 and O30. -/

namespace Sys2Proof.Machine

/-! ### What each pulse and the default skip answer -/

section Rows
variable (s : State)

theorem exec_neacon : exec .neacon s = .next { s with noEAC := true } := rfl

theorem exec_neacof : exec .neacof s = .next { s with noEAC := false } := rfl

theorem exec_pifl : exec .pifl s = .next { s with pifl := true } := rfl

theorem exec_stage : exec .stage s = .next { s with dvSequence := true } := rfl

theorem exec_dvst : exec .dvst s = .next { s with dvStage := nextDvStage s.dvStage } := rfl

variable {k : StageKey} (e : Bool) (o : Opcode)

theorem exec_defaultSkip_of_skipStage (h : k = .normal 2#2) :
    exec (.defaultSkip k e o) s = .next (enqueue s.cfg.defaultSkip s) :=
  congrArg Host.Outcome.next (if_pos h)

theorem exec_defaultSkip_of_otherStage (h : k ≠ .normal 2#2) :
    exec (.defaultSkip k e o) s =
      .next (emitDiag { b := s.b, sq := o, stage := k, extend := e, z := s.z } (enqueue s.cfg.defaultSkip s)) :=
  congrArg Host.Outcome.next (if_neg h)

end Rows

/-- The twisted ring of R254, all eight substages. -/
theorem nextDvStage_table : ∀ d : BitVec 3, [1, 3, 5, 7, 0, 2, 4, 6][d.toNat]? = some (nextDvStage d).toNat := by decide

/-! ### Which rows can fault -/

/-- `WG` finds no word only at the fourth edit address with `EDIT_23` absent (42_bus_write R191). -/
theorem editedWord_eq_none {c : Config} {a : Addr} {w : Word} (h : editedWord c a w = none) :
    c.edit23 = none ∧ a = c.params.editFourth := by
  unfold editedWord at h
  split_ifs at h with _ _ _ hfourth
  exact ⟨Option.map_eq_none_iff.mp h, hfourth⟩

theorem exec_wg_fault {s : State} {f : Fault} (h : exec .wg s = .fault f) :
    f = .edit23Unspecified s.wbus s ∧ s.cfg.edit23 = none ∧ s.sReg = s.cfg.params.editFourth := by
  cases hword : editedWord s.cfg s.sReg s.wbus with
  | none =>
    cases (exec_wg_of_none hword).symm.trans h
    exact ⟨rfl, editedWord_eq_none hword⟩
  | some v => cases (exec_wg_of_some hword).symm.trans h

theorem exec_zip_fault {s : State} {f : Fault} (h : exec .zip s = .fault f) :
    f = .zipInvalid s.l (zipSelectOf s.cfg.zipSelect s.l) s ∧
      zipRow s.cfg.zipTable (zipSelectOf s.cfg.zipSelect s.l) = none := by
  cases hrow : zipRow s.cfg.zipTable (zipSelectOf s.cfg.zipSelect s.l) with
  | none =>
    cases (exec_zip_of_none hrow).symm.trans h
    exact ⟨rfl, rfl⟩
  | some act => cases (exec_zip_eq hrow).symm.trans h

/-- Every other row completes: its meaning is a next state, for `RAD` whatever `G` decodes to. -/
theorem exec_fault_row {i : Instr} {s : State} {f : Fault} (h : exec i s = .fault f) : i = .wg ∨ i = .zip := by
  cases i
  case wg => exact .inl rfl
  case zip => exact .inr rfl
  case rad =>
    simp only [exec, execRad] at h
    split at h <;> cases h
  all_goals cases h

theorem exec_ne_refused (i : Instr) (s : State) (r : Refusal) : exec i s ≠ .refused r := fun h => by
  have hsafe := safeOutcome_exec i s
  rw [h] at hsafe
  cases hsafe

/-! ### The obligations -/

/-- Settles O28: each pulse by its equation, the divide substage by its table. -/
theorem supplementaryPulses : Obligations.SupplementaryPulses := fun s =>
  ⟨exec_neacon s, exec_neacof s, exec_pifl s, exec_stage s, _, exec_dvst s, nextDvStage_table s.dvStage⟩

/-- Settles O29: the skip stage and the others by their equations, the default entries by their ids. -/
theorem defaultSkipIsQueued : Obligations.DefaultSkipIsQueued :=
  ⟨fun s _ e o => ⟨exec_defaultSkip_of_skipStage s e o, exec_defaultSkip_of_otherStage s e o⟩, rfl⟩

/-- Settles O30: the two rows that can fault, each with its own fault. -/
theorem onlyWgAndZipFault : Obligations.OnlyWgAndZipFault := by
  refine fun i s => ⟨fun f h => ?_, exec_ne_refused i s⟩
  rcases exec_fault_row h with rfl | rfl
  · exact .inl ⟨rfl, exec_wg_fault h⟩
  · exact .inr ⟨rfl, _, (exec_zip_fault h).1⟩

end Sys2Proof.Machine

/-! PROOFS. The tick up to its dispatch (48_scheduler R261 to R267): the latches cleared first, the dispatch by the number of entries
collected, the lists, then the obligations O43 to O46 and O42. -/

namespace Sys2Proof.Machine

/-! ### The steps before the dispatch (R261 to R263) -/

theorem step_eq (s : State) : step s = andThen (dispatch (tickStart (applyHostWrites s))) afterDispatch := rfl

theorem tickStart_mcro (s : State) : (tickStart s).mcro = false := by rw [tickStart_eq]

/-- Every stage but 0 holds an instruction (decision D6). -/
theorem isHeld_spec_eq_false_iff : ∀ st : BitVec 2, isHeld specParams st = false ↔ st = 0 := by decide

/-- The steps before the dispatch under the spec's parameters, field by field. -/
theorem tickStart_spec {s : State} (hspec : s.cfg.params = specParams) :
    tickStart s = { s with
      mcro := false
      nextInstruction := s.nextInstruction && !decide (s.t = 1 ∧ s.st = 0)
      extendNext := s.extendNext && !decide (s.t = 1 ∧ s.st = 0)
      pifl := if s.t = 2 ∨ s.t = 5 ∨ s.t = 8 ∨ s.t = 11 then false else s.pifl } := by
  rw [tickStart_eq, tickStart_nextInstruction, tickStart_extendNext, tickStart_pifl, hspec]
  simp only [isHeld_spec_eq_false_iff]
  by_cases hclear : s.t = 1 ∧ s.st = 0
  · simp only [if_pos hclear, decide_eq_true hclear, Bool.not_true, Bool.and_false]
  · simp only [if_neg hclear, decide_eq_false hclear, Bool.not_false, Bool.and_true]

/-- The steps before the dispatch touch neither the queue nor the counter. -/
theorem collected_tickStart (s : State) : collected (tickStart (applyHostWrites s)) = collected s := by
  obtain ⟨_, _, _, _, htime, _, _, _, _, hqueue, _⟩ := tickStart_kept s
  rw [collected, hqueue, htime]
  rfl

/-! ### The dispatch by the number of entries collected (R264 to R266) -/

section Dispatch
variable {s : State}

theorem dispatch_of_nil (h : collected s = []) : dispatch s = .next (dropCollected s) := by
  simp only [dispatch, h]

theorem dispatch_of_single {e : Entry} (h : collected s = [e]) : dispatch s = runPulses e.pulses (dropCollected s) := by
  simp only [dispatch, h]

/-- From two entries up: a collision beyond four, else the list that the branch register selects, or its fault. -/
theorem dispatch_of_two_le (h : 2 ≤ (collected s).length) :
    dispatch s =
      if 4 < (collected s).length then .fault (.branchCollision s.t (collected s).length (dropCollected s))
      else (collected s)[packedBranch s.cfg.params s.br1 s.br2]?.elim
        (.fault (.branchIndexOutOfRange s.t (collected s).length (packedBranch s.cfg.params s.br1 s.br2) (dropCollected s)))
        fun e => runPulses e.pulses (dropCollected s) := by
  unfold dispatch
  dsimp only
  split
  case h_1 hc => simp [hc] at h
  case h_2 hc => simp [hc] at h
  case h_3 =>
    cases (collected s)[packedBranch s.cfg.params s.br1 s.br2]? <;> rfl

theorem dispatch_of_selected {e : Entry} (h2 : 2 ≤ (collected s).length) (h4 : (collected s).length ≤ 4)
    (he : (collected s)[packedBranch s.cfg.params s.br1 s.br2]? = some e) :
    dispatch s = runPulses e.pulses (dropCollected s) := by
  rw [dispatch_of_two_le h2, if_neg (by omega), he, Option.elim_some]

theorem dispatch_of_index_out_of_range (h2 : 2 ≤ (collected s).length) (h4 : (collected s).length ≤ 4)
    (hbr : (collected s).length ≤ packedBranch s.cfg.params s.br1 s.br2) :
    dispatch s = .fault
      (.branchIndexOutOfRange s.t (collected s).length (packedBranch s.cfg.params s.br1 s.br2) (dropCollected s)) := by
  rw [dispatch_of_two_le h2, if_neg (by omega), List.getElem?_eq_none hbr, Option.elim_none]

theorem dispatch_of_collision (h5 : 5 ≤ (collected s).length) :
    dispatch s = .fault (.branchCollision s.t (collected s).length (dropCollected s)) := by
  rw [dispatch_of_two_le (by omega), if_pos (by omega)]

end Dispatch

theorem packedBranch_numeric {p : Params} (h : p.brPacking = .numeric) (br1 br2 : Bool) :
    packedBranch p br1 br2 = 2 * br1.toNat + br2.toNat := by
  simp only [packedBranch, h]

/-! ### The lists (R267) -/

theorem andThen_assoc (o : Host.Outcome State Fault Refusal) (f g : State → Host.Outcome State Fault Refusal) :
    andThen (andThen o f) g = andThen o fun s => andThen (f s) g := by
  cases o <;> rfl

theorem runPulses_single {id : PulseId} {i : Instr} (h : decodePulse id = .ok i) (s : State) :
    runPulses [id] s = exec i s := by
  rw [runPulses_cons, runPulse_of_decode h]
  cases exec i s <;> rfl

theorem runPulses_append (xs ys : List PulseId) (s : State) :
    runPulses (xs ++ ys) s = andThen (runPulses xs s) (runPulses ys) := by
  induction xs generalizing s with
  | nil => rfl
  | cons id rest ih =>
    rw [List.cons_append, runPulses_cons, runPulses_cons, andThen_assoc]
    exact congrArg _ (funext ih)

theorem andThen_congr {o : Host.Outcome State Fault Refusal} {f g : State → Host.Outcome State Fault Refusal}
    (h : ∀ s, o = .next s → f s = g s) : andThen o f = andThen o g := by
  cases o with
  | next s => exact h s rfl
  | fault r => rfl
  | refused r => rfl

/-! ### A step by what it dispatches -/

/-- One entry at the present time pulse: its list is run on the state without it. -/
theorem step_of_single {s : State} {e : Entry} (h : collected s = [e]) :
    step s = andThen (runPulses e.pulses (dropCollected (tickStart (applyHostWrites s)))) afterDispatch := by
  rw [step_eq, dispatch_of_single ((collected_tickStart s).trans h)]

theorem collected_eq_nil {s : State} (hq : ∀ e ∈ s.queue, e.n ≠ s.t) : collected s = [] :=
  List.filter_eq_nil_iff.mpr fun e he hn => hq e he (of_decide_eq_true hn)

/-- No entry at the present time pulse: the dispatch does nothing. -/
theorem step_of_idle {s : State} (hhost : s.cfg.hostChannelWrites = false) (hq : ∀ e ∈ s.queue, e.n ≠ s.t) :
    step s = afterDispatch (tickStart s) := by
  have hnil : collected (tickStart (applyHostWrites s)) = [] := (collected_tickStart s).trans (collected_eq_nil hq)
  rw [step_eq, dispatch_of_nil hnil, dropCollected_of_collected_nil hnil, andThen_next, applyHostWrites_of_not_allowed hhost]

/-- The lookup of a key that no definition covers is the default skip at that key (R271). -/
theorem invokeNext_of_uncovered {s : State} (h : ∀ d ∈ s.cfg.isaDefs, covers d (decodeKeyOf s) = false) :
    invokeNext s = exec (.defaultSkip (decodeKeyOf s).stage (decodeKeyOf s).extend (decodeKeyOf s).opcode) s := by
  simp only [invokeNext, buildTable_eq_none_iff.mpr h]

/-- A T12 without a list commits the stage and looks up the next subinstruction. -/
theorem step_of_idle_of_eq_12 {s : State} (h12 : s.t = 12) (hhost : s.cfg.hostChannelWrites = false)
    (hq : ∀ e ∈ s.queue, e.n ≠ 12) :
    step s = andThen (invokeNext { commitStage s with mcro := false })
      fun u => .next (tickEnd { u with dvSequence := false }) := by
  have hstart : tickStart s = clearMcro s := tickStart_eq_clearMcro (by omega) (by rw [h12]; rfl)
  have hcommit : commitStage (clearMcro s) = { commitStage s with mcro := false } := by
    rw [commitStage_eq, commitStage_eq]
    rfl
  have h12' : (clearMcro s).t = 12 := h12
  rw [step_of_idle hhost (by rwa [h12]), hstart, afterDispatch_of_ne_4 (by omega),
    (writeBackStep_frame _).1 (by omega), cycleStep, if_pos h12', hcommit, andThen_assoc]
  rfl

/-! ### The obligations -/

/-- Settles O43: the first part is the definition of a tick, the others what it does to the two latches. -/
theorem latchesClearedBeforeTheDispatch : Obligations.LatchesClearedBeforeTheDispatch := fun s =>
  ⟨step_eq s, tickStart_mcro s, tickStart_pifl s⟩

/-- Settles O44: the steps before the dispatch under the spec's parameters; `PIFL` is left as they leave it. -/
theorem fetchLatchesClearedAtT1 : Obligations.FetchLatchesClearedAtT1 := by
  intro s hspec clear
  rw [tickStart_pifl]
  exact tickStart_spec hspec

/-- Settles O45: the dispatch by the number of entries collected. -/
theorem dispatchSelectsByTheBranchRegister : Obligations.DispatchSelectsByTheBranchRegister := by
  intro s hpack found rest br
  have hbr : packedBranch s.cfg.params s.br1 s.br2 = br := packedBranch_numeric hpack s.br1 s.br2
  refine ⟨fun h => dispatch_of_nil (List.eq_nil_of_length_eq_zero h), fun e h => dispatch_of_single h,
    fun e h2 h4 he => dispatch_of_selected h2 h4 (hbr ▸ he), fun h2 h4 h => ?_, dispatch_of_collision⟩
  rw [← hbr] at h ⊢
  exact dispatch_of_index_out_of_range h2 h4 h

/-- Settles O46: a list is run as the sequence of its parts, and a fault ends a sequence. -/
theorem listsRunInDeclaredOrder : Obligations.ListsRunInDeclaredOrder := by
  refine ⟨runPulses_nil, fun id i s hi => runPulses_single hi s, runPulses_append, fun xs ys id i s u f hxs hi hf => ?_,
    fun s f hf => ?_⟩
  · rw [runPulses_append, hxs, andThen_next, runPulses_cons, runPulse_of_decode hi, hf, andThen_fault]
  · rw [step_eq, hf, andThen_fault]

/-- Settles O42: an id alone in its list, the sentinel that `RAD` decodes, and the lookup of a key that no definition covers. -/
theorem aStepRunsTheDecodedInstruction : Obligations.AStepRunsTheDecodedInstruction := by
  refine ⟨fun s id i hq hi => ?_, fun s i hi => exec_rad_of_decodeWord hi, fun s k h12 hq hhost hk hcov => ?_⟩
  · rw [step_of_single hq, runPulses_single hi]
  · subst hk
    have hcommit : (commitStage s).cfg = s.cfg ∧ (commitStage s).t = 12 := by rw [commitStage_eq]; exact ⟨rfl, h12⟩
    rw [step_of_idle_of_eq_12 h12 hhost hq, invokeNext_of_uncovered (hcommit.1 ▸ hcov)]
    refine andThen_congr fun u hu => ?_
    have hu12 : u.t = 12 := (sameKept_exec hu).time.trans hcommit.2
    rw [tickEnd, hu12]
    rfl

end Sys2Proof.Machine

/-! PROOFS. The tick after its dispatch (48_scheduler R268 to R276, R280): the cycle boundary field by field, what each step keeps,
the counter, then the obligations O47 to O51. -/

namespace Sys2Proof.Machine

/-! ### The dispatched state -/

/-- The registers that only the cycle boundary writes are, after the dispatch, as before the step; the queue has lost the
entries of this time pulse. -/
theorem dispatch_keeps_key {s u : State} (hd : dispatch (tickStart (applyHostWrites s)) = .next u) :
    u.sTemp = s.sTemp ∧ u.sq = s.sq ∧ u.st = s.st ∧ u.extend = s.extend ∧
      u.queue = s.queue.filter fun e => decide (e.n ≠ s.t) := by
  obtain ⟨K, hqueue, _⟩ := dispatch_kept hd
  obtain ⟨htemp, hsq, hst, hextend, htime, _, _, _, _, hq, _⟩ := tickStart_kept s
  rw [htime, hq] at hqueue
  exact ⟨K.sTemp.trans htemp, K.sq.trans hsq, K.st.trans hst, K.extend.trans hextend, hqueue⟩

/-! ### The cycle boundary (R270 to R274) -/

/-- What the lookup emits: a diagnostic for a key that no definition covers, outside the skip stage (R273, decision D27). -/
def emitted (s : State) (k : Key) : List Diag :=
  if (∀ d ∈ s.cfg.isaDefs, covers d k = false) ∧ k.stage ≠ .normal 2#2 then
    s.diags ++ [{ b := s.b, sq := k.opcode, stage := k.stage, extend := k.extend, z := s.z }]
  else s.diags

theorem invokeNext_eq (s : State) :
    invokeNext s = .next { s with
      queue := s.queue ++ tableEntries s.cfg (decodeKeyOf s)
      diags := emitted s (decodeKeyOf s) } := by
  by_cases hcov : ∀ d ∈ s.cfg.isaDefs, covers d (decodeKeyOf s) = false
  · rw [invokeNext_of_uncovered hcov, tableEntries_of_none (buildTable_eq_none_iff.mpr hcov), emitted]
    by_cases hstage : (decodeKeyOf s).stage = .normal 2#2
    · rw [exec_defaultSkip_of_skipStage s _ _ hstage, if_neg fun h => h.2 hstage]
      rfl
    · rw [exec_defaultSkip_of_otherStage s _ _ hstage, if_pos ⟨hcov, hstage⟩]
      rfl
  · obtain ⟨d, hd⟩ := Option.ne_none_iff_exists'.mp (mt buildTable_eq_none_iff.mp hcov)
    rw [tableEntries_of_some hd, emitted, if_neg fun h => hcov h.1]
    simp only [invokeNext, hd]
    rfl

/-- The key of the state that the stage commit leaves (30_encoding R106). -/
def committedKey (s : State) : Key where
  stage := if s.dvSequence then .divide s.dvStage else .normal s.stNext
  extend := if s.nextInstruction then s.extendNext else s.extend
  opcode := if s.nextInstruction then opcodeOf s.cfg.params s.b else s.sq

theorem decodeKeyOf_commitStage (s : State) : decodeKeyOf (commitStage s) = committedKey s := by
  rw [commitStage_eq]
  rfl

theorem afterDispatch_at_12 {s : State} (h12 : s.t = 12) :
    afterDispatch s = .next { s with
      st := s.stNext
      stNext := 0
      sq := (committedKey s).opcode
      extend := (committedKey s).extend
      queue := s.queue ++ tableEntries s.cfg (committedKey s)
      diags := emitted s (committedKey s)
      dvSequence := false
      wbus := 0
      t := 1 } := by
  rw [afterDispatch_of_ne_4 (by omega), (writeBackStep_frame s).1 (by omega), cycleStep, if_pos h12, invokeNext_eq,
    decodeKeyOf_commitStage, commitStage_eq, andThen_next, andThen_next, tickEnd]
  simp only [h12]
  rfl

/-! ### The counter (R276, R280) -/

/-- The end of every step clears the bus and advances the counter, whatever else it did. -/
theorem bus_and_time_of_step {s t : State} (h : step s = .next t) : t.wbus = 0 ∧ t.t = s.t % 12 + 1 := by
  obtain ⟨u, hd, hafter⟩ := andThen_eq_next.mp h
  obtain ⟨_, _, hframe, _⟩ := everyWriterIsListed
  obtain ⟨ht, _⟩ := hframe u t hafter
  rw [ht, ← (dispatchKeeps_of_dispatch hd).time]
  exact ⟨rfl, rfl⟩

theorem time_of_runTicks {n : Nat} {s t : State} (hrange : timeInRange s) (h : runTicks n s = .next t) :
    t.t = (s.t + n - 1) % 12 + 1 := by
  induction n generalizing s with
  | zero => cases h; omega
  | succ n ih =>
    obtain ⟨s', hstep, hrest⟩ := andThen_eq_next.mp h
    have htime := (bus_and_time_of_step hstep).2
    rw [ih (by omega) hrest]
    omega

/-! ### The obligations -/

/-- Settles O47: the boundary on the dispatched state, whose key registers are the old ones; the idle case as for O37 and O39. -/
theorem theCycleBoundary : Obligations.TheCycleBoundary := by
  intro s u h12 hd sq ex k
  have K := dispatchKeeps_of_dispatch hd
  obtain ⟨_, hsq, _, hextend, _⟩ := dispatch_keeps_key hd
  have hkey : committedKey u = k := by rw [committedKey, K.cfg, hsq, hextend]
  refine ⟨?_, fun hq hhost => eq_of_dispatch_idle hd (by rwa [h12]) hhost (by omega) (by rw [h12]; rfl)⟩
  rw [step_of_dispatch hd, afterDispatch_at_12 (K.time.trans h12), hkey, emitted, K.cfg]

/-- Settles O48: the frame of the steps after the dispatch. -/
theorem busClearedAndCounterAdvanced : Obligations.BusClearedAndCounterAdvanced := fun _ _ => bus_and_time_of_step

/-- Settles O49: the counter after any number of steps, by induction on them. -/
theorem twelveTicksMakeACycle : Obligations.TwelveTicksMakeACycle := by
  intro k s t hrange hrun
  rw [time_of_runTicks hrange hrun]
  omega

/-- Settles O50: after the dispatch of T12 the queue of a state in form is empty, so the boundary's entries are all of it. -/
theorem queueAfterT12 : Obligations.QueueAfterT12 := by
  intro s t hinv h12 hstep
  obtain ⟨u, hd, hafter⟩ := andThen_eq_next.mp hstep
  have hu12 : u.t = 12 := (dispatchKeeps_of_dispatch hd).time.trans h12
  have hnil : u.queue = [] := (dispatchedInForm_of_inv hinv hd).queue_nil hu12
  rw [afterDispatch_at_12 hu12, hnil, List.nil_append] at hafter
  cases hafter
  exact ⟨u, hd, rfl⟩

/-- Settles O51: what the dispatch keeps, and what the steps after it keep at each time pulse. -/
theorem whichTicksChangeWhat : Obligations.WhichTicksChangeWhat := by
  intro s t hstep
  obtain ⟨u, hd, hafter⟩ := andThen_eq_next.mp hstep
  have K := dispatchKeeps_of_dispatch hd
  obtain ⟨htemp, hsq, hst, hextend, hqueue⟩ := dispatch_keeps_key hd
  obtain ⟨_, _, hframe, _⟩ := everyWriterIsListed
  obtain ⟨ht, _, hE, _, hkey, hcommit, _⟩ := hframe u t hafter
  rw [K.time] at hE hkey hcommit
  refine ⟨fun h12 => ?_, fun h4 h9 => ?_, ?_⟩
  · have hst' : t.st = u.st := by_contra fun h => h12 (hkey (.inl h))
    have hqueue' : t.queue = u.queue := by_contra fun h => h12 (hkey (.inr (.inr (.inr h))))
    have hsq' : t.sq = u.sq := by_contra fun h => h12 (hcommit (.inl h)).1
    have hextend' : t.extend = u.extend := by_contra fun h => h12 (hcommit (.inr h)).1
    exact ⟨hst'.trans hst, hsq'.trans hsq, hextend'.trans hextend, hqueue'.trans hqueue⟩
  · exact (not_ne_iff.mp (mt hE (by omega))).trans K.eMem
  · rw [ht]; exact ⟨K.fMem, K.cfg, htemp⟩

end Sys2Proof.Machine

/-! PROOFS. The one fault left when every OPEN parameter is supplied (60_exceptions R300 to R305): the pulses, the T4 read and the
dispatch one after another, then the obligation O57. -/

namespace Sys2Proof.Machine

/-! ### The pulses complete (R303, R305) -/

/-- Eight valid rows leave no selector without an action (46_compound R241). -/
theorem zipRow_ne_none {table : List (Option ZipAction)} (hlen : table.length = 8) (hvalid : table.all Option.isSome = true)
    (k : BitVec 3) : zipRow table k ≠ none := by
  have hk : k.toNat < table.length := hlen ▸ k.isLt
  have hrow : zipRow table k = table[k.toNat] := by rw [zipRow, List.getElem?_eq_getElem hk, Option.getD_some]
  rw [hrow]
  exact Option.isSome_iff_ne_none.mp (List.all_eq_true.mp hvalid _ (List.getElem_mem hk))

theorem exec_ne_fault {s : State} (hc : fullySpecified s.cfg) (i : Instr) (f : Fault) : exec i s ≠ .fault f := by
  obtain ⟨_, hedit, hlen, hvalid⟩ := hc
  intro h
  rcases exec_fault_row h with rfl | rfl
  · obtain ⟨_, habsent, _⟩ := exec_wg_fault h
    rw [habsent] at hedit
    cases hedit
  · exact zipRow_ne_none hlen hvalid _ (exec_zip_fault h).2

theorem runPulses_ne_fault {s : State} (hc : fullySpecified s.cfg) (ids : List PulseId) (f : Fault) :
    runPulses ids s ≠ .fault f := by
  induction ids generalizing s with
  | nil => exact nofun
  | cons id rest ih =>
    intro h
    rw [runPulses_cons] at h
    rcases andThen_eq_fault.mp h with h1 | ⟨u, h1, h2⟩
    · unfold runPulse at h1
      split at h1
      · exact exec_ne_fault hc _ _ h1
      · cases h1
    · obtain ⟨i, _, hi⟩ := runPulse_next h1
      exact ih ((sameKept_exec hi).cfg ▸ hc) h2

/-! ### The T4 read and the steps after the dispatch complete (20_memory R78, R304) -/

theorem memoryRead_ne_fault {s : State} (hspec : s.cfg.params = specParams) (f : Fault) : memoryRead s ≠ .fault f := by
  intro h
  obtain ⟨sp, i, hr, hi, _⟩ := memoryRead_fault h
  have hlt := resolve_spec_lt s.sReg s.eb s.fb
  rw [hspec] at hr hi
  rw [hr] at hlt
  exact absurd hlt (by simpa using hi)

theorem afterDispatch_ne_fault {s : State} (hspec : s.cfg.params = specParams) (f : Fault) : afterDispatch s ≠ .fault f := by
  by_cases h4 : s.t = 4
  · rw [afterDispatch_of_eq_4 h4]
    intro h
    rcases andThen_eq_fault.mp h with h | ⟨u, _, h⟩
    · exact memoryRead_ne_fault hspec f h
    · cases h
  by_cases h9 : s.t = 9
  · rw [afterDispatch_of_eq_9 h9]; exact nofun
  by_cases h12 : s.t = 12
  · rw [afterDispatch_at_12 h12]; exact nofun
  · rw [afterDispatch_of_ne h4 h9 h12]; exact nofun

/-! ### The dispatch (R301, R302) -/

/-- A dispatch faults in the list it runs, by five or more entries, or by an index beyond the entries. -/
theorem dispatch_fault {s : State} {f : Fault} (h : dispatch s = .fault f) :
    (∃ e ∈ collected s, runPulses e.pulses (dropCollected s) = .fault f) ∨ 5 ≤ (collected s).length ∨
    (2 ≤ (collected s).length ∧ (collected s).length ≤ packedBranch s.cfg.params s.br1 s.br2 ∧
      f = .branchIndexOutOfRange s.t (collected s).length (packedBranch s.cfg.params s.br1 s.br2) (dropCollected s)) := by
  rcases dispatch_shape s with ⟨_, hd⟩ | ⟨e, he, hd⟩ | ⟨h2, _⟩
  · cases hd.symm.trans h
  · exact .inl ⟨e, he, hd.symm.trans h⟩
  · by_cases h5 : 5 ≤ (collected s).length
    · exact .inr (.inl h5)
    cases he : (collected s)[packedBranch s.cfg.params s.br1 s.br2]? with
    | some e =>
      rw [dispatch_of_selected h2 (by omega) he] at h
      exact .inl ⟨e, List.mem_of_getElem? he, h⟩
    | none =>
      have hbr := List.getElem?_eq_none_iff.mp he
      rw [dispatch_of_index_out_of_range h2 (by omega) hbr] at h
      cases h
      exact .inr (.inr ⟨h2, hbr, rfl⟩)

/-- The branch register holds a number below 4, and from 2 up only with `BR1` set (10_state R39). -/
theorem packedBranch_numeric_range {p : Params} (h : p.brPacking = .numeric) (br1 br2 : Bool) :
    packedBranch p br1 br2 ≤ 3 ∧ (2 ≤ packedBranch p br1 br2 → br1 = true) := by
  rw [packedBranch_numeric h]
  revert br1 br2
  decide

/-- A well-formed queue has two alternatives at a time pulse, or four, or no choice (30_encoding R115). -/
theorem length_collected_of_wf {s : State} (hq : entriesWf s.queue = true) (ht : timeInRange s) :
    (collected s).length ≤ 1 ∨ (collected s).length = 2 ∨ (collected s).length = 4 := by
  have hcount := (entriesWf_iff.mp hq).2 s.t ht.1 ht.2
  have hc : (collected s).length = countAt s.queue s.t := rfl
  omega

/-- With the lists out of the question, four alternatives are enough for every value of the branch register. -/
theorem dispatch_fault_of_fullySpecified {s : State} {f : Fault} (hc : fullySpecified s.cfg)
    (hq : entriesWf s.queue = true) (ht : timeInRange s) (h : dispatch s = .fault f) :
    s.br1 = true ∧ ∃ (wreck : State) (br : Nat), f = .branchIndexOutOfRange s.t 2 br wreck ∧ 2 ≤ br ∧ br ≤ 3 := by
  have hlen := length_collected_of_wf hq ht
  obtain ⟨hmax, hbr1⟩ := packedBranch_numeric_range (p := s.cfg.params) (by rw [hc.1]; rfl) s.br1 s.br2
  rcases dispatch_fault h with ⟨e, _, hrun⟩ | h5 | ⟨h2, hbr, rfl⟩
  · exact absurd hrun (runPulses_ne_fault (s := dropCollected s) hc e.pulses f)
  · omega
  · have htwo : (collected s).length = 2 := by omega
    rw [htwo] at hbr ⊢
    exact ⟨hbr1 hbr, _, _, rfl, hbr, hmax⟩

/-- Settles O57: the dispatch is the only part of a step left to fault; the steps before it keep what its fault depends on. -/
theorem onlyTheBranchIndexFault : Obligations.OnlyTheBranchIndexFault := by
  intro s f hinv hc hstep
  obtain ⟨htime, _, _, ⟨hentries, _⟩, _⟩ := hinv
  obtain ⟨_, _, _, _, ht, _, _, _, hcfg, hq, _⟩ := tickStart_kept s
  have hbr1 : (tickStart (applyHostWrites s)).br1 = s.br1 := by rw [tickStart_eq, applyHostWrites_eq]
  rw [step_eq] at hstep
  rcases andThen_eq_fault.mp hstep with hd | ⟨u, hd, hafter⟩
  · have hfault := dispatch_fault_of_fullySpecified (by rw [hcfg]; exact hc) (by rw [hq]; exact hentries)
      (by rw [timeInRange, ht]; exact htime) hd
    rwa [hbr1, ht] at hfault
  · have hspec : u.cfg.params = specParams := by rw [(dispatchKeeps_of_dispatch hd).cfg]; exact hc.1
    exact absurd hafter (afterDispatch_ne_fault hspec f)

end Sys2Proof.Machine

/-! PROOFS. What one cycle of the default skip is made of (48_scheduler R281): a memory known by what it reads, the ticks that run a
list or none, the four lists. -/

namespace Sys2Proof.Machine

/-! ### A canonical memory is known by what it reads (20_memory R71) -/

theorem memWf_cons_iff {j : Nat} {v : Word} {m : Memory} :
    memWf ((j, v) :: m) = true ↔ v ≠ unlistedWord ∧ memWfAbove j m = true := by
  simp only [memWf, Bool.and_eq_true, decide_eq_true_eq]

/-- The first listed index is the least one at which anything but the default is read. -/
theorem le_of_memRead_ne {j i : Nat} {v : Word} {m : Memory} (h : memWf ((j, v) :: m) = true)
    (hr : memRead ((j, v) :: m) i ≠ unlistedWord) : j ≤ i := by
  by_contra hlt
  refine hr ?_
  rw [memRead_cons, if_neg (by omega)]
  exact memRead_of_memWfAbove (memWf_cons_iff.mp h).2 (by omega)

theorem memRead_head_ne {j : Nat} {v : Word} {m : Memory} (h : memWf ((j, v) :: m) = true) :
    memRead ((j, v) :: m) j ≠ unlistedWord := by
  rw [memRead_cons, if_pos rfl]
  exact (memWf_cons_iff.mp h).1

theorem memory_ext {m m' : Memory} (h : memWf m = true) (h' : memWf m' = true) (hr : ∀ i, memRead m i = memRead m' i) :
    m = m' := by
  induction m generalizing m' with
  | nil =>
    cases m' with
    | nil => rfl
    | cons c rest => exact absurd (hr c.1).symm (memRead_head_ne h')
  | cons c rest ih =>
    obtain ⟨j, v⟩ := c
    cases m' with
    | nil => exact absurd (hr j) (memRead_head_ne h)
    | cons c' rest' =>
      obtain ⟨j', v'⟩ := c'
      obtain rfl : j = j' :=
        le_antisymm (le_of_memRead_ne h (hr j' ▸ memRead_head_ne h')) (le_of_memRead_ne h' (hr j ▸ memRead_head_ne h))
      have hv := hr j
      rw [memRead_cons, memRead_cons, if_pos rfl, if_pos rfl] at hv
      have habove := (memWf_cons_iff.mp h).2
      have habove' := (memWf_cons_iff.mp h').2
      rw [hv, ih (memWf_of_memWfAbove habove) (memWf_of_memWfAbove habove') fun i => ?_]
      by_cases hi : i = j
      · rw [memRead_of_memWfAbove habove hi.le, memRead_of_memWfAbove habove' hi.le]
      · have htail := hr i
        rwa [memRead_cons, memRead_cons, if_neg hi, if_neg hi] at htail

/-- A cell that is zeroed and then given its word back leaves the memory as it was (R85). -/
theorem memWrite_restore {m : Memory} (h : memWf m = true) (i : Nat) (v : Word) :
    memWrite (memWrite m i v) i (memRead m i) = m := by
  refine memory_ext (memWf_memWrite _ _ (memWf_memWrite _ _ h)) h fun j => ?_
  rw [memRead_memWrite (memWf_memWrite _ _ h), memRead_memWrite h]
  split_ifs with hj
  · rw [hj]
  · rfl

/-! ### Ticks that run a list, or none -/

/-- Between two ticks, with the one-pulse latches off, the bus clear and no host writing. -/
structure AtRest (s : State) : Prop where
  mcro : s.mcro = false
  pifl : s.pifl = false
  wbus : s.wbus = 0
  host : s.cfg.hostChannelWrites = false

theorem tickStart_of_atRest {s : State} (h : AtRest s) (h1 : s.t ≠ 1) : tickStart s = s := by
  have hpifl : (tickStart s).pifl = s.pifl := by rw [tickStart_pifl, h.pifl, ite_self]
  rw [tickStart_eq, tickStart_nextInstruction, tickStart_extendNext, hpifl, if_neg fun h => h1 h.1, if_neg fun h => h1 h.1,
    ← h.mcro]

/-- The same state at another time pulse. -/
def atTime (n : Nat) (s : State) : State := { s with t := n }

theorem AtRest.at_time {s : State} (h : AtRest s) (n : Nat) : AtRest (atTime n s) := ⟨h.mcro, h.pifl, h.wbus, h.host⟩

/-- The end of a tick on a state at rest only advances the counter. -/
theorem tickEnd_atTime {s : State} (h : AtRest s) {n : Nat} (h12 : n < 12) : tickEnd (atTime n s) = atTime (n + 1) s := by
  have htime : (atTime n s).t % 12 + 1 = n + 1 := congrArg (· + 1) (Nat.mod_eq_of_lt h12)
  rw [tickEnd, htime]
  exact congrArg (fun w => { s with wbus := w, t := n + 1 }) h.wbus.symm

/-- A tick with no entry does, on a state at rest, what its time pulse does and nothing else. -/
theorem step_of_atRest {s : State} (h : AtRest s) (h1 : s.t ≠ 1) (hq : ∀ e ∈ s.queue, e.n ≠ s.t) :
    step s = afterDispatch s := by
  rw [step_of_idle h.host hq, tickStart_of_atRest h h1]

/-- At a time pulse that does nothing of its own such a tick only advances the counter. -/
theorem step_idle {s : State} (h : AtRest s) (n : Nat) (hn : n ∈ [2, 3, 5, 6, 7, 8, 10, 11]) (hq : ∀ e ∈ s.queue, e.n ≠ n) :
    step (atTime n s) = .next (atTime (n + 1) s) := by
  have htime : ∀ n ∈ [2, 3, 5, 6, 7, 8, 10, 11], n ≠ 1 ∧ n ≠ 4 ∧ n ≠ 9 ∧ n < 12 := by decide
  obtain ⟨h1, h4, h9, h12⟩ := htime n hn
  rw [step_of_atRest (h.at_time n) h1 hq, afterDispatch_of_ne h4 h9 h12.ne, tickEnd_atTime h h12]

/-- A queue that begins with the one entry of this time pulse: its list is run on what the steps before the dispatch left. -/
theorem step_of_head {s : State} {ids : List PulseId} {rest : List Entry} (hhost : s.cfg.hostChannelWrites = false)
    (hq : s.queue = { n := s.t, pulses := ids } :: rest) (hrest : ∀ e ∈ rest, e.n ≠ s.t) :
    step s = andThen (runPulses ids { tickStart s with queue := rest }) afterDispatch := by
  have hnone : rest.filter (fun e => decide (e.n = s.t)) = [] :=
    List.filter_eq_nil_iff.mpr fun e he hn => hrest e he (of_decide_eq_true hn)
  have hall : rest.filter (fun e => decide (e.n ≠ s.t)) = rest :=
    List.filter_eq_self.mpr fun e he => decide_eq_true (hrest e he)
  have hcollected : collected s = [{ n := s.t, pulses := ids }] := by
    rw [collected, hq, List.filter_cons_of_pos (by simp), hnone]
  have hdrop : dropCollected (tickStart s) = { tickStart s with queue := rest } := by
    rw [tickStart_eq, dropCollected]
    dsimp only
    rw [hq, List.filter_cons_of_neg (by simp), hall]
  rw [step_of_single hcollected, applyHostWrites_of_not_allowed hhost, hdrop]

/-- Such a tick, where its time pulse does nothing of its own, ends with what the list left. -/
theorem step_of_head_plain {s u : State} {ids : List PulseId} {rest : List Entry} (hhost : s.cfg.hostChannelWrites = false)
    (hq : s.queue = { n := s.t, pulses := ids } :: rest) (hrest : ∀ e ∈ rest, e.n ≠ s.t) (h4 : s.t ≠ 4) (h9 : s.t ≠ 9)
    (h12 : s.t < 12) (hrun : runPulses ids { tickStart s with queue := rest } = .next u) :
    step s = .next { u with wbus := 0, t := s.t + 1 } := by
  have htime : u.t = s.t := by rw [(runPulses_kept hrun).1.time, tickStart_eq]
  rw [step_of_head hhost hq hrest, hrun, andThen_next, afterDispatch_of_ne (by omega) (by omega) (by omega), tickEnd, htime,
    Nat.mod_eq_of_lt h12]
  rfl

theorem step_of_head_atRest {s u : State} {ids : List PulseId} {rest : List Entry} (h : AtRest s)
    (hq : s.queue = { n := s.t, pulses := ids } :: rest) (hrest : ∀ e ∈ rest, e.n ≠ s.t) (h1 : s.t ≠ 1) (h4 : s.t ≠ 4)
    (h9 : s.t ≠ 9) (h12 : s.t < 12) (hrun : runPulses ids { s with queue := rest } = .next u) :
    step s = .next { u with wbus := 0, t := s.t + 1 } :=
  step_of_head_plain h.host hq hrest h4 h9 h12 (by rwa [tickStart_of_atRest h h1])

/-! ### The four lists of the default skip (R281) -/

theorem runPulses_addressing {s : State} (hbus : s.wbus = 0) :
    runPulses (pulseIds [.rz, .ws, .wy12, .ci]) s = .next { s with
      wbus := s.z
      sReg := s.z.setWidth 12
      x := 0
      y := BitVec.ofNat 16 (s.z.toNat % 4096)
      ci := true } := by
  have hz : s.wbus ||| s.z = s.z := by simp [hbus]
  rw [runPulses_pulseIds_cons rfl, exec_rz, andThen_next, orBus, hz, runPulses_pulseIds_cons rfl, exec_ws, andThen_next,
    runPulses_pulseIds_cons rfl, exec_wy12, andThen_next, zext16_slice_low12, slice_one_eq_setWidth]
  rfl

/-- Away from the fourth edit address `WG` finds a word, so the second list completes; what it leaves in `G` no one reads. -/
theorem runPulses_requesting {s : State} (hspec : s.cfg.params = specParams) (h23 : s.sReg ≠ 0o23#12) :
    ∃ bus g : Word, runPulses (pulseIds [.rsc, .wg, .nisq]) s = .next { s with
      wbus := bus, g := g, nextInstruction := true, inhibitInterrupts := false } := by
  have hword : editedWord s.cfg s.sReg (s.wbus ||| centralRead s) ≠ none := fun h => by
    obtain ⟨_, hfourth⟩ := editedWord_eq_none h
    rw [hspec] at hfourth
    exact h23 hfourth
  obtain ⟨g, hg⟩ := Option.ne_none_iff_exists'.mp hword
  refine ⟨s.wbus ||| centralRead s, g, ?_⟩
  rw [runPulses_pulseIds_cons rfl, exec_rsc, andThen_next, runPulses_pulseIds_cons rfl,
    exec_wg_of_some (s := orBus (centralRead s) s) hg, andThen_next, runPulses_pulseIds_cons rfl, exec_nisq, andThen_next]
  rfl

/-- `Y` and the carry, `X` being 0: the word after `Y`, with the end-around carry inhibited or not. -/
theorem adderOut_increment {s : State} {n : Nat} (hx : s.x = 0) (hy : s.y = BitVec.ofNat 16 n) (hci : s.ci = true) :
    adderOut s = BitVec.ofNat 16 (n + 1) := by
  rw [adderOut, hx, hy, hci, adder_comm]
  exact (adder_zero _ true s.noEAC).trans (BitVec.ofNat_add n 1).symm

theorem runPulses_advancing {s : State} {n : Nat} (hbus : s.wbus = 0) (hx : s.x = 0) (hy : s.y = BitVec.ofNat 16 n)
    (hci : s.ci = true) :
    runPulses (pulseIds [.ru, .wz]) s = .next { s with
      wbus := BitVec.ofNat 16 (n + 1)
      z := BitVec.ofNat 16 (n + 1) } := by
  have hsum : s.wbus ||| adderOut s = BitVec.ofNat 16 (n + 1) := by
    rw [adderOut_increment hx hy hci, hbus]
    exact BitVec.zero_or
  rw [runPulses_pulseIds_cons rfl, exec_ru, andThen_next, orBus, hsum, runPulses_pulseIds_cons rfl, exec_wz, andThen_next]
  rfl

/-- The word that `RAD` puts on an empty bus: `Z` after a sentinel, else the word in `G` (45_stage_flow R233). -/
def fetchedWord (g z : Word) : Word := if g = 0x0003#16 ∨ g = 0x0004#16 ∨ g = 0x0006#16 then z else g

/-- The stage that `RAD` requests: the skip stage after a sentinel. -/
def fetchedStage (g : Word) : BitVec 2 := if g = 0x0003#16 ∨ g = 0x0004#16 ∨ g = 0x0006#16 then 2 else 0

/-- `RAD` on an empty bus, with no stage requested and interrupts not inhibited, for the sentinels and the ordinary words alike. -/
theorem exec_rad_fetch {s : State} (hspec : s.cfg.params = specParams) (hbus : s.wbus = 0) (hst : s.stNext = 0)
    (hinh : s.inhibitInterrupts = false) :
    exec .rad s = .next { s with
      wbus := fetchedWord s.g s.z
      stNext := fetchedStage s.g
      inhibitInterrupts := decide (s.g = 0x0004#16)
      extendNext := decide (s.g = 0x0006#16) || s.extendNext } := by
  obtain ⟨hrelint, hinhint, hextend, hordinary⟩ := radActsOnSentinels.1 s hspec
  by_cases h3 : s.g = 0x0003#16
  · rw [hrelint h3]; simp [fetchedWord, fetchedStage, h3, hbus, hst]
  by_cases h4 : s.g = 0x0004#16
  · rw [hinhint h4]; simp [fetchedWord, fetchedStage, h4, hbus, hst]
  by_cases h6 : s.g = 0x0006#16
  · rw [hextend h6]; simp [fetchedWord, fetchedStage, h6, hbus, hst, hinh]
  · rw [hordinary h3 h4 h6]; simp [fetchedWord, fetchedStage, h3, h4, h6, hbus, ← hst, ← hinh]

theorem runPulses_fetching {s : State} (hspec : s.cfg.params = specParams) (hbus : s.wbus = 0) (hst : s.stNext = 0)
    (hinh : s.inhibitInterrupts = false) :
    runPulses (pulseIds [.rad, .wb, .ws]) s = .next { s with
      wbus := fetchedWord s.g s.z
      b := fetchedWord s.g s.z
      sReg := (fetchedWord s.g s.z).setWidth 12
      stNext := fetchedStage s.g
      inhibitInterrupts := decide (s.g = 0x0004#16)
      extendNext := decide (s.g = 0x0006#16) || s.extendNext } := by
  rw [runPulses_pulseIds_cons rfl, exec_rad_fetch hspec hbus hst hinh, andThen_next, runPulses_pulseIds_cons rfl, exec_wb,
    andThen_next, runPulses_pulseIds_cons rfl, exec_ws, andThen_next, slice_one_eq_setWidth]
  rfl

end Sys2Proof.Machine

/-! PROOFS. One cycle of the default skip (48_scheduler R282): the state that each stretch of its ticks leaves, the ticks one after
another, the cell that is read and written back, then the obligation O58. -/

namespace Sys2Proof.Machine

/-! ### Runs of ticks -/

theorem runTicks_of_step {k : Nat} {s u t : State} (hstep : step s = .next u) (hrest : runTicks k u = .next t) :
    runTicks (k + 1) s = .next t := by
  rw [runTicks, hstep, andThen_next, hrest]

theorem runTicks_trans {m n : Nat} {s u t : State} (hm : runTicks m s = .next u) (hn : runTicks n u = .next t) :
    runTicks (m + n) s = .next t := by
  induction m generalizing s with
  | zero => cases hm; rwa [Nat.zero_add]
  | succ m ih =>
    obtain ⟨s', hstep, hrest⟩ := andThen_eq_next.mp hm
    rw [Nat.add_right_comm]
    exact runTicks_of_step hstep (ih hrest)

/-! ### The state that each stretch of ticks leaves -/

/-- After T1: the word at `Z` is addressed, and the adder set up to add one to its address. -/
def addressed (s : State) : State :=
  { s with
    mcro := false
    nextInstruction := s.nextInstruction && decide (s.st ≠ 0)
    extendNext := decide (s.st ≠ 0) && s.extendNext
    sReg := s.z.setWidth 12
    x := 0
    y := BitVec.ofNat 16 (s.z.toNat % 4096)
    ci := true
    queue := defaultSkipEntries.drop 1
    t := 2 }

/-- After T3: the next instruction is requested; `g` is what `WG` left in `G`. -/
def requested (g : Word) (s : State) : State :=
  { s with
    pifl := false
    g := g
    nextInstruction := true
    inhibitInterrupts := false
    queue := defaultSkipEntries.drop 2
    t := 4 }

/-- The erasable array after the T4 read of word `i` of an array. -/
def erasableRead (sp : Space) (i : Nat) (m : Memory) : Memory :=
  match sp with
  | .erasable => memWrite m i 0x0000#16
  | .fixed => m

/-- The write-back latch after the T4 read of word `i` of an array. -/
def latchRead (sp : Space) (i : Nat) : Option Nat :=
  match sp with
  | .erasable => some i
  | .fixed => none

/-- After T5: `w`, which is word `i` of an array, is in `G`. -/
def wordRead (sp : Space) (i : Nat) (w : Word) (s : State) : State :=
  { s with
    g := w
    eMem := erasableRead sp i s.eMem
    wba := latchRead sp i
    t := 6 }

/-- After T7: `Z` is the number after `n`. -/
def advanced (n : Nat) (s : State) : State :=
  { s with z := BitVec.ofNat 16 (n + 1), queue := defaultSkipEntries.drop 3, t := 8 }

/-- After T8: `B` and `S` hold the word in `G`, or `Z` after a sentinel. -/
def fetched (s : State) : State :=
  { s with
    b := fetchedWord s.g s.z
    sReg := (fetchedWord s.g s.z).setWidth 12
    stNext := fetchedStage s.g
    inhibitInterrupts := decide (s.g = 0x0004#16)
    extendNext := decide (s.g = 0x0006#16) || s.extendNext
    queue := []
    t := 9 }

/-- After T11: the word in `G` is in the latched cell, if there is one. -/
def writtenBack (s : State) : State :=
  { s with eMem := s.wba.elim s.eMem fun i => memWrite s.eMem i s.g, wba := none, t := 12 }

/-! ### The ticks -/

theorem step_addressed {s : State} (h1 : s.t = 1) (hspec : s.cfg.params = specParams)
    (hhost : s.cfg.hostChannelWrites = false) (hbus : s.wbus = 0) (hq : s.queue = defaultSkipEntries) :
    step s = .next (addressed s) := by
  have hhead : s.queue = { n := s.t, pulses := pulseIds [.rz, .ws, .wy12, .ci] } :: defaultSkipEntries.drop 1 := by
    rw [hq, h1]; rfl
  have hrun := runPulses_addressing (s := { tickStart s with queue := defaultSkipEntries.drop 1 })
    (by rw [tickStart_eq]; exact hbus)
  rw [step_of_head_plain hhost hhead (by rw [h1]; decide) (by omega) (by omega) (by omega) hrun, tickStart_spec hspec]
  simp [addressed, h1, hbus, Bool.and_comm]

theorem runTicks_requested {s : State} (h2 : s.t = 2) (hspec : s.cfg.params = specParams)
    (hhost : s.cfg.hostChannelWrites = false) (hbus : s.wbus = 0) (hmcro : s.mcro = false)
    (hq : s.queue = defaultSkipEntries.drop 1) (h23 : s.sReg ≠ 0o23#12) :
    ∃ g, runTicks 2 s = .next (requested g s) := by
  have hhead : s.queue = { n := s.t, pulses := pulseIds [.rsc, .wg, .nisq] } :: defaultSkipEntries.drop 2 := by
    rw [hq, h2]; rfl
  obtain ⟨bus, g, hrun⟩ := runPulses_requesting (s := { tickStart s with queue := defaultSkipEntries.drop 2 })
    (by rw [tickStart_eq]; exact hspec) (by rw [tickStart_eq]; exact h23)
  have hT2 : step s = .next (atTime 3 (requested g s)) := by
    rw [step_of_head_plain hhost hhead (by rw [h2]; decide) (by omega) (by omega) (by omega) hrun, tickStart_spec hspec]
    simp [requested, atTime, h2, hbus, hmcro]
  have hT3 : step (atTime 3 (requested g s)) = .next (requested g s) :=
    step_idle (s := requested g s) ⟨hmcro, rfl, hbus, hhost⟩ 3 (by decide)
      (show ∀ e ∈ defaultSkipEntries.drop 2, e.n ≠ 3 by decide)
  exact ⟨g, runTicks_of_step hT2 (runTicks_of_step hT3 rfl)⟩

theorem writeBack_eq (s : State) : writeBack s = atTime s.t (writtenBack s) := by
  show _ = { s with eMem := s.wba.elim s.eMem fun i => memWrite s.eMem i s.g, wba := none }
  cases h : s.wba with
  | none => rw [writeBack_of_empty h, Option.elim_none, ← h]
  | some i => rw [writeBack_of_latched h, Option.elim_some]

theorem memoryRead_wordRead {s : State} {sp : Space} {i : Nat} {w : Word} (hspec : s.cfg.params = specParams)
    (hlow : 8 ≤ s.sReg.toNat) (hr : resolve specParams s.sReg s.eb s.fb = (sp, i)) (hempty : s.wba = none)
    (hw : w = doubleSignCompress (readSpace s sp i) false) : memoryRead s = .next (atTime s.t (wordRead sp i w s)) := by
  have hlimit : s.cfg.params.reservedLowLimit ≤ s.sReg.toNat := by rw [hspec]; exact hlow
  have hlt : i < spaceWords s.cfg.params sp := by
    have := resolve_spec_lt s.sReg s.eb s.fb
    rwa [hr, ← hspec] at this
  rw [← hspec] at hr
  subst hw
  cases sp with
  | erasable => exact memoryRead_of_erasable hlimit hr hlt
  | fixed =>
    rw [memoryRead_of_fixed hlimit hr hlt, wordRead, latchRead, ← hempty]
    rfl

theorem runTicks_wordRead {s : State} {sp : Space} {i : Nat} {w : Word} (h4 : s.t = 4) (hspec : s.cfg.params = specParams)
    (hrest : AtRest s) (hq : s.queue = defaultSkipEntries.drop 2) (hlow : 8 ≤ s.sReg.toNat)
    (hr : resolve specParams s.sReg s.eb s.fb = (sp, i)) (hempty : s.wba = none)
    (hw : w = doubleSignCompress (readSpace s sp i) false) : runTicks 2 s = .next (wordRead sp i w s) := by
  have hread : AtRest (wordRead sp i w s) := ⟨hrest.mcro, hrest.pifl, hrest.wbus, hrest.host⟩
  have hT4 : step s = .next (atTime 5 (wordRead sp i w s)) := by
    rw [step_of_atRest hrest (by omega) (by rw [hq, h4]; decide), afterDispatch_of_eq_4 h4,
      memoryRead_wordRead hspec hlow hr hempty hw, andThen_next, h4, tickEnd_atTime hread (by decide)]
  have hT5 : step (atTime 5 (wordRead sp i w s)) = .next (wordRead sp i w s) :=
    step_idle hread 5 (by decide) (show ∀ e ∈ s.queue, e.n ≠ 5 by rw [hq]; decide)
  exact runTicks_of_step hT4 (runTicks_of_step hT5 rfl)

theorem runTicks_advanced {s : State} {n : Nat} (h6 : s.t = 6) (hrest : AtRest s) (hq : s.queue = defaultSkipEntries.drop 2)
    (hx : s.x = 0) (hy : s.y = BitVec.ofNat 16 n) (hci : s.ci = true) : runTicks 2 s = .next (advanced n s) := by
  have hhead : s.queue = { n := s.t, pulses := pulseIds [.ru, .wz] } :: defaultSkipEntries.drop 3 := by rw [hq, h6]; rfl
  have hrun := runPulses_advancing (s := { s with queue := defaultSkipEntries.drop 3 }) hrest.wbus hx hy hci
  have hT6 : step s = .next (atTime 7 (advanced n s)) := by
    rw [step_of_head_atRest hrest hhead (by rw [h6]; decide) (by omega) (by omega) (by omega) (by omega) hrun, h6, advanced]
    exact congrArg _ (congrArg (fun w => { advanced n s with wbus := w, t := 7 }) hrest.wbus.symm)
  have hT7 : step (atTime 7 (advanced n s)) = .next (advanced n s) :=
    step_idle (s := advanced n s) ⟨hrest.mcro, hrest.pifl, hrest.wbus, hrest.host⟩ 7 (by decide)
      (show ∀ e ∈ defaultSkipEntries.drop 3, e.n ≠ 7 by decide)
  exact runTicks_of_step hT6 (runTicks_of_step hT7 rfl)

theorem step_fetched {s : State} (h8 : s.t = 8) (hspec : s.cfg.params = specParams) (hrest : AtRest s)
    (hq : s.queue = defaultSkipEntries.drop 3) (hst : s.stNext = 0) (hinh : s.inhibitInterrupts = false) :
    step s = .next (fetched s) := by
  have hhead : s.queue = { n := s.t, pulses := pulseIds [.rad, .wb, .ws] } :: [] := by rw [hq, h8]; rfl
  have hrun := runPulses_fetching (s := { s with queue := [] }) hspec hrest.wbus hst hinh
  rw [step_of_head_atRest hrest hhead (by simp) (by omega) (by omega) (by omega) (by omega) hrun, h8]
  exact congrArg _ (congrArg (fun w => { fetched s with wbus := w }) hrest.wbus.symm)

theorem runTicks_writtenBack {s : State} (h9 : s.t = 9) (hrest : AtRest s) (hq : s.queue = []) :
    runTicks 3 s = .next (writtenBack s) := by
  have hwritten : AtRest (writtenBack s) := ⟨hrest.mcro, hrest.pifl, hrest.wbus, hrest.host⟩
  have hT9 : step s = .next (atTime 10 (writtenBack s)) := by
    rw [step_of_atRest hrest (by omega) (by rw [hq]; simp), afterDispatch_of_eq_9 h9, writeBack_eq, h9,
      tickEnd_atTime hwritten (by decide)]
  have hnone : (writtenBack s).queue = [] := hq
  have hT10 : step (atTime 10 (writtenBack s)) = .next (atTime 11 (writtenBack s)) :=
    step_idle hwritten 10 (by decide) (by rw [hnone]; simp)
  have hT11 : step (atTime 11 (writtenBack s)) = .next (writtenBack s) :=
    step_idle hwritten 11 (by decide) (by rw [hnone]; simp)
  exact runTicks_of_step hT9 (runTicks_of_step hT10 (runTicks_of_step hT11 rfl))

/-! ### The whole cycle -/

/-- After T11 of a cycle of the default skip that reads `w` from word `i` of an array. -/
def beforeCommit (g : Word) (sp : Space) (i : Nat) (w : Word) (s : State) : State :=
  writtenBack (fetched (advanced (s.z.toNat % 4096) (wordRead sp i w (requested g (addressed s)))))

theorem runTicks_beforeCommit {s : State} {sp : Space} {i : Nat} {w : Word} (h1 : s.t = 1)
    (hspec : s.cfg.params = specParams) (hhost : s.cfg.hostChannelWrites = false) (hbus : s.wbus = 0)
    (hempty : s.wba = none) (hq : s.queue = defaultSkipEntries) (hst : s.stNext = 0) (hlow : 8 ≤ s.z.toNat % 4096)
    (h23 : s.z.toNat % 4096 ≠ 0o23) (hr : resolve specParams (s.z.setWidth 12) s.eb s.fb = (sp, i))
    (hw : w = doubleSignCompress (readSpace s sp i) false) :
    ∃ g, runTicks 11 s = .next (beforeCommit g sp i w s) := by
  have haddr : (s.z.setWidth 12).toNat = s.z.toNat % 4096 := BitVec.toNat_setWidth 12 s.z
  have h23' : s.z.setWidth 12 ≠ 0o23#12 := fun h => h23 (haddr ▸ congrArg BitVec.toNat h)
  obtain ⟨g, hrequested⟩ := runTicks_requested (s := addressed s) rfl hspec hhost hbus rfl rfl h23'
  have hread := runTicks_wordRead (s := requested g (addressed s)) rfl hspec ⟨rfl, rfl, hbus, hhost⟩ rfl
    (haddr ▸ hlow) hr hempty (by cases sp <;> exact hw)
  have hadvanced := runTicks_advanced (s := wordRead sp i w (requested g (addressed s))) rfl ⟨rfl, rfl, hbus, hhost⟩ rfl rfl
    rfl rfl
  have hfetched := step_fetched (s := advanced (s.z.toNat % 4096) (wordRead sp i w (requested g (addressed s)))) rfl hspec
    ⟨rfl, rfl, hbus, hhost⟩ rfl hst rfl
  have hwritten := runTicks_writtenBack
    (s := fetched (advanced (s.z.toNat % 4096) (wordRead sp i w (requested g (addressed s))))) rfl ⟨rfl, rfl, hbus, hhost⟩ rfl
  exact ⟨g, runTicks_of_step (step_addressed h1 hspec hhost hbus hq)
    (runTicks_trans hrequested (runTicks_trans hread (runTicks_trans hadvanced (runTicks_of_step hfetched hwritten))))⟩

/-- The latch is empty before T4 has been (10_state R55). -/
theorem wba_eq_none_of_latchInForm {s : State} (h : latchInForm s) (ht : s.t < 5) : s.wba = none := by
  refine Option.eq_none_iff_forall_not_mem.mpr fun i hi => ?_
  have := h i hi
  omega

/-- The committed key where the next instruction was requested and no divide sequence is active (30_encoding R106). -/
theorem committedKey_of_requested {s : State} (hnext : s.nextInstruction = true) (hdv : s.dvSequence = false) :
    committedKey s = { stage := .normal s.stNext, extend := s.extendNext, opcode := opcodeOf s.cfg.params s.b } := by
  rw [committedKey, hnext, hdv, if_neg Bool.false_ne_true, if_pos rfl, if_pos rfl]

/-! ### The cell that is read and written back (R85) -/

/-- The erasable array after the read of word `i` of an array and the write-back of `w`. -/
def erasableCycled (sp : Space) (i : Nat) (w : Word) (m : Memory) : Memory :=
  (latchRead sp i).elim (erasableRead sp i m) fun j => memWrite (erasableRead sp i m) j w

theorem memRead_erasableCycled {m : Memory} (h : memWf m = true) (sp : Space) (i : Nat) (w : Word) (j : Nat) :
    memRead (erasableCycled sp i w m) j = if sp = .erasable ∧ j = i then w else memRead m j := by
  cases sp with
  | erasable =>
    show memRead (memWrite (memWrite m i 0x0000#16) i w) j = _
    rw [memRead_memWrite (memWf_memWrite _ _ h), memRead_memWrite h]
    by_cases hj : j = i <;> simp [hj]
  | fixed => exact (if_neg fun h => nomatch h.1).symm

/-- A word whose two top bits agree is written back as it was read. -/
theorem erasableCycled_eq_self {s : State} (h : memWf s.eMem = true) {sp : Space} {i : Nat}
    (hsign : bit (readSpace s sp i) 15 = bit (readSpace s sp i) 16) :
    erasableCycled sp i (doubleSignCompress (readSpace s sp i) false) s.eMem = s.eMem := by
  rw [doubleSignCompress_false, (mirroredSign_eq_self_iff _).mpr hsign]
  cases sp with
  | erasable => exact memWrite_restore h i _
  | fixed => rfl

/-! ### The obligation -/

/-- Settles O58: eleven ticks to the state before the commit, then the cycle boundary. -/
theorem oneDefaultSkipCycle : Obligations.OneDefaultSkipCycle := by
  intro s sp i w hinv h1 hspec hhost hq hst hdv hlow h23 hr hw z1 sentinel b1 st1 ex
  obtain ⟨_, hbus, _, _, _, ⟨hwf, _⟩, _, hlatch, _⟩ := hinv
  have hempty : s.wba = none := wba_eq_none_of_latchInForm hlatch (by omega)
  obtain ⟨g, hrun⟩ := runTicks_beforeCommit h1 hspec hhost hbus hempty hq hst hlow h23 hr hw
  have hT12 : step (beforeCommit g sp i w s) = afterDispatch (beforeCommit g sp i w s) :=
    step_of_atRest ⟨rfl, rfl, hbus, hhost⟩ (show 12 ≠ 1 by decide) nofun
  rw [afterDispatch_at_12 rfl, committedKey_of_requested (s := beforeCommit g sp i w s) rfl hdv] at hT12
  have hcycle := runTicks_trans hrun (runTicks_of_step (k := 0) hT12 rfl)
  refine ⟨_, hcycle, ?_, memRead_erasableCycled hwf sp i w, fun hsign => ?_⟩
  · rw [hst, hdv, hbus, h1, hempty, ← hspec]
    rfl
  · rw [hw]
    exact erasableCycled_eq_self hwf hsign

end Sys2Proof.Machine
